-- ==== Sys2Proof/Word.lean ====
section
/-! DEFINITION. The bit-vector types of Sirius: what the spec adds, shifts, masks or numbers as bits. -/

namespace Sys2Proof

/-- A general register, an instruction word or an IVT entry: 32 bits (10_state.md R10, 30_encoding.md R80). -/
abbrev Word := BitVec 32

/-- A memory cell (20_memory.md R40). -/
abbrev Byte := BitVec 8

/-- The program counter and every main memory address: 24 bits (10_state.md R14). -/
abbrev Pc := BitVec 24

/-- A five-bit register field, one of x0 to x31 (30_encoding.md R82). -/
abbrev RegIx := BitVec 5

/-- The four-bit opcode field, bits 28:25 of every word (30_encoding.md R81). -/
abbrev Opcode := BitVec 4

end Sys2Proof
end

