-- ==== Sys2Proof/Config.lean ====
section
/-! DEFINITION. What is fixed for one machine: the spec's parameters (00_scope.md section 4, the table that closes
92_eei_decisions.md), the `OPMAP` entries as plain data (30_encoding.md R99), and the free values, constants without a
body. A `Platform` is one choice of all parameters. It is a field of State because the host's step takes no other
argument; no step changes it. -/

namespace Sys2Proof

/-! ## Names the parameters and entries use -/

/-- The two address spaces of 20_memory.md R40. -/
inductive Space where
  | main | data
deriving DecidableEq, Repr

/-- An access width n in 1, 2, 4 bytes (20_memory.md R57). -/
inductive Width where
  | byte | half | word
deriving DecidableEq, Repr

/-- How a narrow load fills the register (43_i.md R129). -/
inductive Ext where
  | sign | zero
deriving DecidableEq, Repr

/-- `DATA_ENDIAN` (92_eei_decisions.md D2). -/
inductive Endian where
  | big | little
deriving DecidableEq, Repr

/-- `REL_BASE` in 0, 4 (92_eei_decisions.md D4). -/
inductive RelBase where
  | zero | four
deriving DecidableEq, Repr

/-- The two kinds of exception (60_exceptions.md section 1). -/
inductive ExcKind where
  | trap | fault
deriving DecidableEq, Repr

/-- `FAULT_SCOPE` (60_exceptions.md R183). -/
inductive FaultScope where
  | entryOnly | untilReturn
deriving DecidableEq, Repr

/-- The order of two register fields against the reading order of 30_encoding.md R89. -/
inductive PairOrder where
  | inOrder | swapped
deriving DecidableEq, Repr

/-- A register field of an instruction word, named as in 30_encoding.md R82 to R86. -/
inductive Field where
  | r1 | r2 | r3 | r4
deriving DecidableEq, Repr

/-- Which field of an R word is rd, rs1, rs2, and the fourth register (which ENCODING III lacks). -/
structure RegRoles where
  rd : Field
  rs1 : Field
  rs2 : Field
  fourth : Field
deriving DecidableEq, Repr

/-- Reading order, destination first. -/
def RegRoles.default : RegRoles := { rd := .r1, rs1 := .r2, rs2 := .r3, fourth := .r4 }

/-- `FIELD_ROLES` (30_encoding.md R89, 92_eei_decisions.md D3): which field is which operand, one value for each row of
R89's table that names more than one. -/
structure FieldRoles where
  /-- B: (rs1, rs2). -/
  b : PairOrder
  /-- I, both groups: (rd, rs1). -/
  i : PairOrder
  /-- S: (rs1 the value, rs2 the base). -/
  s : PairOrder
  /-- R under ENCODING III. -/
  three : RegRoles
  /-- R under ENCODING IV. -/
  four : RegRoles
deriving DecidableEq, Repr

/-- The table of 30_encoding.md R89: reading order, destination first. -/
def FieldRoles.default : FieldRoles :=
  { b := .inOrder, i := .inOrder, s := .inOrder, three := .default, four := .default }

/-- Which way a push moves the stack pointer. -/
inductive Growth where
  | down | up
deriving DecidableEq, Repr

/-- Whether a push moves the pointer before or after its write. -/
inductive PointerMove where
  | before | after
deriving DecidableEq, Repr

/-- Which of the two words a trap entry pushes first. -/
inductive FrameOrder where
  | psrFirst | pcFirst
deriving DecidableEq, Repr

/-- `TRAP_FRAME` (60_exceptions.md R172, 92_eei_decisions.md D11). The stack is the supervisor's and each word has four
bytes in every value of the parameter. -/
structure TrapFrame where
  growth : Growth
  move : PointerMove
  order : FrameOrder
deriving DecidableEq, Repr

/-- The layout of 60_exceptions.md R172: downward, pointer first, psr before pc. -/
def TrapFrame.default : TrapFrame := { growth := .down, move := .before, order := .psrFirst }

/-- A run of addresses. -/
structure Region where
  base : Nat
  size : Nat
deriving DecidableEq, Repr

/-- A set of addresses: `MAIN_INSTALLED` and `DATA_INSTALLED` (20_memory.md R44). -/
inductive AddrSet where
  | all
  | regions (rs : List Region)
deriving DecidableEq, Repr

/-- One part of `DEVICE_BUFFERS`: storage a device may write (20_memory.md R50). -/
structure BufferRegion where
  space : Space
  region : Region
deriving DecidableEq, Repr

/-- `EXC_PRIORITY(vector, psr.p)` (60_exceptions.md R170, 92_eei_decisions.md D14). `table` is any function of the two;
`hardware` is the chip's own, which no source gives. -/
inductive ExcPriority where
  | unset
  | keep
  | fixed (q : BitVec 3)
  | table (rows : List ((Byte × BitVec 3) × BitVec 3))
  | hardware
deriving DecidableEq, Repr

/-- `EXC_KIND(vector)` but for vector 0x07, which is fixed (92_eei_decisions.md D15). A vector that `table` does not list is
unset; `hardware` is the chip's own. -/
inductive ExcKinds where
  | table (rows : List (Byte × ExcKind))
  | hardware
deriving DecidableEq, Repr

/-! ## The vocabulary of OPMAP entries

An entry is "a semantic function from the decoded fields and the machine state", "built from the primitives" of
00_scope.md R4 (30_encoding.md R99). State is plain data, so an entry is written as data: expressions over words, and small
programs of the primitives. Nothing here says that Sirius has any of these operations; only addition and
subtraction have a result the spec states (45_r.md R142). `free k` is an operation of which nothing is known. -/

/-- Two-operand word operations an entry may name. -/
inductive BinOp where
  | add | sub | and | or | xor
  | mul | mulHighU | mulHighS
  | divU | divS | remU | remS
  | shl | shrU | shrS
  | eq | ltU | ltS
deriving DecidableEq, Repr

/-- A word computed from the operand list of the entry. `free k` is the opaque operation number k. -/
inductive Expr where
  | lit (w : Word)
  | opnd (i : Nat)
  | bin (o : BinOp) (a b : Expr)
  | ite (c a b : Expr)
  | free (k : Nat) (a b : Expr)
deriving DecidableEq, Repr

/-- `op_k` of 43_i.md R130 and 45_r.md R140. `divides`: operand 1 is a divisor, so 0 raises Division by Zero (R131, R143); a
division or remainder in `defined` or `value` raises it for its own divisor, marked or not. `defined`: 0 on operands for which
the entry states no result (93_implementation_defined.md U10). -/
structure AluOp where
  divides : Bool
  defined : Expr
  value : Expr
deriving DecidableEq, Repr

/-- A register an entry's program names: a field of the word, or one index. -/
inductive RegSel where
  | field (f : Field)
  | fixed (i : RegIx)
deriving DecidableEq, Repr

/-- The priority of a trap that an instruction requests (47_t.md R153 leaves it open): psr.p, a fixed one, or the low three
bits of a computed word. -/
inductive TrapPrio where
  | keep
  | fixed (q : BitVec 3)
  | computed (e : Expr)
deriving DecidableEq, Repr

/-- The exceptions of 60_exceptions.md R160 that an instruction can raise. Bus Error and Address Error have no cause (R179)
and Reset is not raised (R174); their vectors are in Machine/Map.lean. -/
inductive Exc where
  | illegalInstruction
  | divisionByZero
  | privilegeViolation
  | pageFault
  | accessViolation
deriving DecidableEq, Repr

/-- One primitive of 00_scope.md R4. `compute`, `fieldNumber`, `readReg`, `readPc`, `readPsr`, `load`, `physLoad` and
`fetchWord` append a word to the operand list. -/
inductive MicroOp where
  | compute (e : Expr)
  /-- The number in a register field, as a word. -/
  | fieldNumber (f : Field)
  | readReg (r : RegSel)
  | writeReg (r : RegSel) (e : Expr)
  | readPc
  | readPsr
  | writePsr (e : Expr)
  | jump (e : Expr)
  | load (sp : Space) (w : Width) (x : Ext) (addr : Expr)
  | store (sp : Space) (w : Width) (addr val : Expr)
  /-- `PhysRead` and `PhysWrite`: no translation. -/
  | physLoad (w : Width) (x : Ext) (addr : Expr)
  | physStore (w : Width) (addr val : Expr)
  /-- `Fetch`: an instruction word of main memory. -/
  | fetchWord (addr : Expr)
  /-- `refuse` unless the expression is nonzero. -/
  | require (e : Expr)
  /-- Division by Zero if the expression is 0. -/
  | checkDivisor (e : Expr)
  /-- `raise E`. -/
  | raise (e : Exc)
  /-- `TrapEnter(v, prio, pc + 4)`, pc the instruction's own address (47_t.md R153). -/
  | requestTrap (vec : Expr) (prio : TrapPrio)
  /-- `TrapEnter(v, prio, saved)`. -/
  | trapEnter (vec : Expr) (prio : TrapPrio) (saved : Expr)
  | trapReturn
  /-- Where `Platform.bulkKeeps` is set, what has been done so far stays when a later primitive raises: how an M entry states
  "what registers hold when an exception stops it half way and whether it restarts or resumes" (46_m.md R145,
  notes/assumptions 39). Else it does nothing, as 60_exceptions.md R170 demands. No other family's entry may use it. -/
  | commit
  /-- `halt`. -/
  | halt
deriving DecidableEq, Repr

/-- A program of primitives. `loop n body rest` runs body n times, with the index as a new operand each time; `branch` runs
one of two programs. The operands a body appends are gone when it ends. -/
inductive Prog where
  | done
  | op (o : MicroOp) (rest : Prog)
  | loop (count : Expr) (body rest : Prog)
  | branch (c : Expr) (yes no rest : Prog)
deriving DecidableEq, Repr

/-- The two encodings of group 0b001 (46_m.md R145). -/
inductive BulkEncoding where
  | two | three
deriving DecidableEq, Repr

/-- Which vector a requested trap goes to: the word's own byte, one the entry fixes, or the low byte of a computed word
(47_t.md R153 leaves it open). -/
inductive TrapVector where
  | field
  | fixed (v : Byte)
  | computed (e : Expr)
deriving DecidableEq, Repr

/-- T, group 0b000 (47_t.md R150 to R153). What `requestTrap` computes is over [the vector byte, x[r1]]. -/
inductive SysBody where
  | writePsr
  | readPsr
  | trapReturn
  | requestTrap (vec : TrapVector) (prio : TrapPrio)
  | prog (p : Prog)
deriving DecidableEq, Repr

/-- M, group 0b001 (46_m.md R145). -/
structure BulkBody where
  enc : BulkEncoding
  prog : Prog
deriving DecidableEq, Repr

/-- Group 0b010: a U instruction (40_u.md R110), or the J instruction with its `LINK(rd)` (41_j.md R116), a program of
registers whose field r1 is rd and whose operands are [the instruction's address, the offset]; `none` while the link is
unknown. 92_eei_decisions.md D32 lets an entry override how J uses imm20: such a J is listed as a `u` program with a jump, and
`j` has the offset of D32 only (the model's choice, notes/assumptions 36). -/
inductive UJBody where
  | u (p : Prog)
  | j (link : Option Prog)
deriving DecidableEq, Repr

/-- Group 0b100: a load (43_i.md R127, R128), or the aligned-offset instruction (R126). -/
inductive LoadBody where
  | load (sp : Space) (w : Width) (x : Ext)
  | alignedOffset (p : Prog)
deriving DecidableEq, Repr

/-- R, group 0b110: ENCODING III (45_r.md R140), or ENCODING IV with the fourth register a third source, a second
destination, or in any other role: a program whose fields r1 to r4 are rd, rs1, rs2 and the fourth register (R141). -/
inductive RegBody where
  | three (f : AluOp)
  | fourSource (f : AluOp)
  | fourDest (f g : AluOp)
  | fourProg (p : Prog)
deriving DecidableEq, Repr

/-- S, group 0b111 (44_s.md R135, R136). -/
structure StoreBody where
  space : Space
  width : Width
deriving DecidableEq, Repr

/-- An entry: its name, whether it is marked supervisor-only (47_t.md R154), what it does. -/
structure Entry (β : Type) where
  name : String
  supervisorOnly : Bool
  body : β
deriving DecidableEq, Repr

/-- What a (group, opcode) pair without a listed entry is (30_encoding.md R95): the map is partial, the map is declared
complete, or the rest of the map is the chip's own, which no source gives: a third kind beside D20's two, and the model's choice
(notes/assumptions 16). -/
inductive MapRest where
  | declaredPartial
  | declaredComplete
  | hardware
deriving DecidableEq, Repr

/-- `OPMAP` (30_encoding.md R99), one table for each group code. -/
structure OpMap where
  sys : List (Opcode × Entry SysBody)
  bulk : List (Opcode × Entry BulkBody)
  uj : List (Opcode × Entry UJBody)
  branch : List (Opcode × Entry Expr)
  load : List (Opcode × Entry LoadBody)
  arithImm : List (Opcode × Entry AluOp)
  arithReg : List (Opcode × Entry RegBody)
  store : List (Opcode × Entry StoreBody)
  rest : MapRest
deriving DecidableEq, Repr

/-- The default of 92_eei_decisions.md's table: empty, and what stands in the slots is `r`. -/
def OpMap.empty (r : MapRest) : OpMap :=
  { sys := [], bulk := [], uj := [], branch := [], load := [], arithImm := [], arithReg := [], store := [], rest := r }

/-- One value of every parameter of the spec. -/
structure Platform where
  endian : Endian
  roles : FieldRoles
  frame : TrapFrame
  relBase : Option RelBase
  mainInstalled : AddrSet
  dataInstalled : AddrSet
  excPriority : ExcPriority
  excKind : ExcKinds
  faultScope : Option FaultScope
  /-- `PT_INDEX_BITS`; `PDT_INDEX_BITS` is 12 less it (20_memory.md R61). -/
  ptIndexBits : Fin 13
  mmuSetsDirty : Bool
  /-- `DEVICE_REGION` without the device map. -/
  deviceRegion : List Region
  devmapSize : Nat
  deviceBuffers : List BufferRegion
  /-- The listed part of `IRQ_PRIORITY`; the free value answers for the rest. -/
  irqPriority : List (Byte × BitVec 3)
  opmap : OpMap
  /-- The model's own, false in the spec's default: 60_exceptions.md R170 keeps nothing of an instruction that raises but its
  dirty bits, 46_m.md R145 lets an M entry state what registers hold then; set, the entry's `commit` keeps what it has done
  (notes/assumptions 39). -/
  bulkKeeps : Bool
deriving DecidableEq, Repr

/-! ## Free values: constants without a body (notes/assumptions 5 to 9, 14, 16, 22) -/

/-- What the n-th free draw answers to a read of a device register (20_memory.md R50). -/
opaque Config.deviceByte : Nat → Nat → Byte

/-- Which of several requests of the greatest priority is taken (60_exceptions.md R167). -/
opaque Config.pickRequest : Nat → Nat

/-- Operation number k of an entry that states no more than that it is a function of two words. -/
opaque Config.freeOp : Nat → Word → Word → Word

/-- The priority of a device interrupt is this value plus 1, so 1 to 7 (60_exceptions.md R168). -/
opaque Config.irqPriority : Byte → Fin 7

/-- The chip's `REL_BASE`, `FAULT_SCOPE`, `MMU_SETS_DIRTY`, `PT_INDEX_BITS`. -/
opaque Config.relBaseIsFour : Bool
opaque Config.faultScopeIsUntilReturn : Bool
opaque Config.mmuSetsDirty : Bool
opaque Config.ptIndexBits : Fin 13

/-- The chip's device map ends at or before the default vector table of the map figure (20_memory.md R41; the bound is DEDUCED,
notes/assumptions 13). -/
opaque Config.devmapSize : Fin 0xF701

/-- What stands for the quotient or remainder of a division by 0, which has none. No instruction uses it: the division raises
(43_i.md R131). -/
opaque Config.quotientByZero : BinOp → Word → Word

/-- The chip's `EXC_PRIORITY` and `EXC_KIND`. -/
opaque Config.excPriority : Byte → BitVec 3 → BitVec 3
opaque Config.excIsFault : Byte → Bool

/-! The chip's `OPMAP` is `Config.chipMap` of Machine/Chip.lean, where what is known of it can be written. -/

/-! ## The platform right after reset -/

/-- The value of every parameter in `State.reset`: the spec's default where its table has one; the chip's own, free, where
the table has none; every address installed (the value the spec's test vectors take). notes/assumptions 3, 10, 13. -/
def Platform.reset : Platform :=
  { endian := .big
    roles := .default
    frame := .default
    relBase := some (if Config.relBaseIsFour then .four else .zero)
    mainInstalled := .all
    dataInstalled := .all
    excPriority := .hardware
    excKind := .hardware
    faultScope := some (if Config.faultScopeIsUntilReturn then .untilReturn else .entryOnly)
    ptIndexBits := Config.ptIndexBits
    mmuSetsDirty := Config.mmuSetsDirty
    deviceRegion := [⟨0x0000, 0x0100⟩]
    devmapSize := Config.devmapSize.val
    deviceBuffers := []
    irqPriority := []
    opmap := OpMap.empty .hardware
    bulkKeeps := false }

/-! ## The spec's test instantiation T0 (95_test_vectors.md section 2): not a description of Sirius -/

/-- Addition modulo 2^32 of operands 0 and 1 (45_r.md R142). -/
def AluOp.add : AluOp := { divides := false, defined := .lit 1, value := .bin .add (.opnd 0) (.opnd 1) }

/-- The condition `x[rs1] != x[rs2]`. -/
def Expr.differ : Expr := .bin .eq (.bin .eq (.opnd 0) (.opnd 1)) (.lit 0)

/-- T0's seven entries; an unlisted pair is refused. -/
def OpMap.t0 : OpMap :=
  { OpMap.empty .declaredPartial with
    uj := [(0, ⟨"T0_J", false, .j none⟩)]
    branch := [(0, ⟨"T0_BNE", false, .differ⟩)]
    load := [(0, ⟨"T0_LW", false, .load .main .word .zero⟩), (1, ⟨"T0_LBUD", true, .load .data .byte .zero⟩)]
    arithImm := [(0, ⟨"T0_ADDI", false, .add⟩)]
    arithReg := [(0, ⟨"T0_ADD", false, .three .add⟩)]
    store := [(0, ⟨"T0_SW", false, ⟨.main, .word⟩⟩)] }

/-- T0's parameters. The MMU split and the dirty bit, which T0 leaves to each vector, are arguments. -/
def Platform.t0 (ptBits : Fin 13) (dirty : Bool) : Platform :=
  { endian := .big
    roles := .default
    frame := .default
    relBase := some .zero
    mainInstalled := .all
    dataInstalled := .all
    excPriority := .keep
    excKind := .table [(0x06, .fault), (0x07, .fault)]
    faultScope := none
    ptIndexBits := ptBits
    mmuSetsDirty := dirty
    deviceRegion := [⟨0x0000, 0x0100⟩]
    devmapSize := 16
    deviceBuffers := []
    irqPriority := []
    opmap := .t0
    bulkKeeps := false }

end Sys2Proof
end

