-- ==== Sys2Proof/Syntax.lean ====
section
/-! DEFINITION. The instructions of Sirius, one constructor for each row of the opcode table (a group code,
30_encoding.md R87). The source lost the per-instruction tables, so inside a group the opcode field selects the
instruction through `OPMAP` (R88); the fields are those of the group's encoding (R82 to R86), and where a group has two
encodings the fields that both share. -/

namespace Sys2Proof

/-- An instruction word, split into the fields of its group. -/
inductive Instr where
  /-- Group 0b000, ENCODING V: T (47_t.md R150). -/
  | sys (op : Opcode) (r1 : RegIx) (vector : Byte)
  /-- Group 0b001, ENCODING II or III as the entry says: M (46_m.md R145). `low` is imm15, or r3 and ten zero bits. -/
  | bulk (op : Opcode) (r1 r2 : RegIx) (low : BitVec 15)
  /-- Group 0b010, ENCODING I: U and the J instruction (40_u.md R112). -/
  | uj (op : Opcode) (r1 : RegIx) (imm20 : BitVec 20)
  /-- Group 0b011, ENCODING II: B (42_b.md R120). -/
  | branch (op : Opcode) (r1 r2 : RegIx) (imm15 : BitVec 15)
  /-- Group 0b100, ENCODING II: I loads and the aligned-offset instruction (43_i.md R126 to R128). -/
  | load (op : Opcode) (r1 r2 : RegIx) (imm15 : BitVec 15)
  /-- Group 0b101, ENCODING II: I arithmetic with an immediate (43_i.md R130). -/
  | arithImm (op : Opcode) (r1 r2 : RegIx) (imm15 : BitVec 15)
  /-- Group 0b110, ENCODING III (r4 then is zero bits) or IV as the entry says: R (45_r.md R140, R141). -/
  | arithReg (op : Opcode) (r1 r2 r3 r4 : RegIx)
  /-- Group 0b111, ENCODING II: S (44_s.md R135, R136). -/
  | store (op : Opcode) (r1 r2 : RegIx) (imm15 : BitVec 15)
deriving DecidableEq, Repr

/-- The group code, bits 31:29 (30_encoding.md R87). -/
def Instr.group : Instr → BitVec 3
  | .sys .. => 0b000
  | .bulk .. => 0b001
  | .uj .. => 0b010
  | .branch .. => 0b011
  | .load .. => 0b100
  | .arithImm .. => 0b101
  | .arithReg .. => 0b110
  | .store .. => 0b111

/-- The opcode, bits 28:25 (30_encoding.md R81). -/
def Instr.opcode : Instr → Opcode
  | .sys op .. => op
  | .bulk op .. => op
  | .uj op .. => op
  | .branch op .. => op
  | .load op .. => op
  | .arithImm op .. => op
  | .arithReg op .. => op
  | .store op .. => op

end Sys2Proof
end

