-- ==== Sys2Proof/WellFormed.lean ====
section
/-! DEFINITION. Checks on what the types leave open: an instruction word against the entry its slot lists (zero bits, the
fourth register), an `OPMAP` against the family contracts of 30_encoding.md R99, a platform against the ranges of
92_eei_decisions.md. Every check is a Bool. The smoke tests that each check refuses something are in Tests/Slice0.lean. -/

namespace Sys2Proof

/-- The ten zero bits of ENCODING III in the `low` field of a bulk word (30_encoding.md R84, R94). -/
def lowZeroBits (low : BitVec 15) : Bool := low.extractLsb' 0 10 == 0

/-- The field of a word, the word's four fields given. -/
def pickField (f : Field) (r1 r2 r3 r4 : RegIx) : RegIx :=
  match f with
  | .r1 => r1
  | .r2 => r2
  | .r3 => r3
  | .r4 => r4

/-- A word against the entry listed for its slot. A slot without a listed entry has nothing to check. -/
def Instr.wf (p : Platform) : Instr → Bool
  | .sys _ _ _ => true
  | .bulk op _ _ low =>
    match p.opmap.bulk.lookup op with
    | some e => e.body.enc == .two || lowZeroBits low
    | none => true
  | .uj op r1 _ =>
    match p.opmap.uj.lookup op with
    | some e => e.body != .j none || r1 == 0
    | none => true
  | .branch _ _ _ _ => true
  | .load _ _ _ _ => true
  | .arithImm _ _ _ _ => true
  | .arithReg op r1 r2 r3 r4 =>
    match p.opmap.arithReg.lookup op with
    | some e =>
      match e.body with
      | .three _ => r4 == 0
      | .fourSource _ => true
      | .fourDest _ _ => pickField p.roles.four.rd r1 r2 r3 r4 != pickField p.roles.four.fourth r1 r2 r3 r4
      | .fourProg _ => true
    | none => true
  | .store _ _ _ _ => true

/-! ## Programs -/

/-- The primitives an M entry may use: registers and memory (46_m.md R145). -/
def MicroOp.memoryOnly : MicroOp → Bool
  | .compute _ | .fieldNumber _ | .readReg _ | .writeReg _ _ | .load _ _ _ _ | .store _ _ _ _ | .require _ | .commit => true
  | .checkDivisor _ | .raise _ | .readPc | .readPsr | .writePsr _ | .jump _ | .physLoad _ _ _ | .physStore _ _ _
  | .fetchWord _ | .requestTrap _ _ | .trapEnter _ _ _ | .trapReturn | .halt => false

/-- The primitives an R entry may use: registers, and Division by Zero (45_r.md R140, R141, "No memory access"). -/
def MicroOp.arithOnly : MicroOp → Bool
  | .compute _ | .fieldNumber _ | .readReg _ | .writeReg _ _ | .require _ | .checkDivisor _ => true
  | .readPc | .readPsr | .writePsr _ | .jump _ | .load _ _ _ _ | .store _ _ _ _ | .physLoad _ _ _ | .physStore _ _ _
  | .fetchWord _ | .raise _ | .requestTrap _ _ | .trapEnter _ _ _ | .trapReturn | .commit | .halt => false

/-- The primitives that touch registers only and cannot stop. -/
def MicroOp.registerOnly : MicroOp → Bool
  | .compute _ | .fieldNumber _ | .readReg _ | .writeReg _ _ | .readPc | .readPsr | .commit => true
  | .load _ _ _ _ | .store _ _ _ _ | .physLoad _ _ _ | .physStore _ _ _ | .fetchWord _ | .require _ | .checkDivisor _
  | .raise _ | .writePsr _ | .jump _ | .requestTrap _ _ | .trapEnter _ _ _ | .trapReturn | .halt => false

/-- The primitives that only supervisor mode may execute: a data memory access (20_memory.md R51), a psr write
(10_state.md R24), the trap return (47_t.md R153). -/
def MicroOp.needsSupervisor : MicroOp → Bool
  | .load sp _ _ _ => sp == .data
  | .store sp _ _ _ => sp == .data
  | .writePsr _ | .trapReturn => true
  | .compute _ | .fieldNumber _ | .readReg _ | .writeReg _ _ | .readPc | .readPsr | .jump _ | .physLoad _ _ _
  | .physStore _ _ _ | .fetchWord _ | .require _ | .checkDivisor _ | .raise _ | .requestTrap _ _ | .trapEnter _ _ _
  | .commit | .halt => false

/-- The primitive may keep what the instruction has done when a later one raises. -/
def MicroOp.commits : MicroOp → Bool
  | .commit => true
  | .compute _ | .fieldNumber _ | .readReg _ | .writeReg _ _ | .readPc | .readPsr | .writePsr _ | .jump _ | .load _ _ _ _
  | .store _ _ _ _ | .physLoad _ _ _ | .physStore _ _ _ | .fetchWord _ | .require _ | .checkDivisor _ | .raise _
  | .requestTrap _ _ | .trapEnter _ _ _ | .trapReturn | .halt => false

/-- The primitive stores to data memory. -/
def MicroOp.storesData : MicroOp → Bool
  | .store sp _ _ _ => sp == .data
  | .compute _ | .fieldNumber _ | .readReg _ | .writeReg _ _ | .readPc | .readPsr | .writePsr _ | .jump _ | .load _ _ _ _
  | .physLoad _ _ _ | .physStore _ _ _ | .fetchWord _ | .require _ | .checkDivisor _ | .raise _ | .requestTrap _ _
  | .trapEnter _ _ _ | .trapReturn | .commit | .halt => false

/-- The register the primitive writes. -/
def MicroOp.writtenReg : MicroOp → Option RegSel
  | .writeReg r _ => some r
  | .compute _ | .fieldNumber _ | .readReg _ | .readPc | .readPsr | .writePsr _ | .jump _ | .load _ _ _ _ | .store _ _ _ _
  | .physLoad _ _ _ | .physStore _ _ _ | .fetchWord _ | .require _ | .checkDivisor _ | .raise _ | .requestTrap _ _
  | .trapEnter _ _ _ | .trapReturn | .commit | .halt => none

/-- The division and remainder operations. -/
def BinOp.divides : BinOp → Bool
  | .divU | .divS | .remU | .remS => true
  | .add | .sub | .and | .or | .xor | .mul | .mulHighU | .mulHighS | .shl | .shrU | .shrS | .eq | .ltU | .ltS => false

/-- A number that is not 0. -/
def Expr.nonzeroLit : Expr → Bool
  | .lit w => w != 0
  | .opnd _ | .bin _ _ _ | .ite _ _ _ | .free _ _ _ => false

/-- The expression has a value whatever its operands are: it divides by nothing but numbers that are not 0. -/
def Expr.total : Expr → Bool
  | .lit _ | .opnd _ => true
  | .bin o a b => a.total && b.total && (!o.divides || b.nonzeroLit)
  | .ite c a b => c.total && a.total && b.total
  | .free _ a b => a.total && b.total

def TrapPrio.exprs : TrapPrio → List Expr
  | .computed e => [e]
  | .keep | .fixed _ => []

def TrapVector.exprs : TrapVector → List Expr
  | .computed e => [e]
  | .field | .fixed _ => []

/-- The expressions the primitive computes. -/
def MicroOp.exprs : MicroOp → List Expr
  | .compute e | .writeReg _ e | .writePsr e | .jump e | .load _ _ _ e | .physLoad _ _ e | .fetchWord e | .require e
  | .checkDivisor e => [e]
  | .store _ _ a v | .physStore _ a v => [a, v]
  | .requestTrap v q => v :: q.exprs
  | .trapEnter v q saved => v :: saved :: q.exprs
  | .fieldNumber _ | .readReg _ | .readPc | .readPsr | .raise _ | .trapReturn | .commit | .halt => []

/-- Every primitive of the program passes `f`. -/
def Prog.all (f : MicroOp → Bool) : Prog → Bool
  | .done => true
  | .op o rest => f o && rest.all f
  | .loop _ body rest => body.all f && rest.all f
  | .branch _ yes no rest => yes.all f && no.all f && rest.all f

/-- Some primitive of the program passes `f`. -/
def Prog.any (f : MicroOp → Bool) : Prog → Bool
  | .done => false
  | .op o rest => f o || rest.any f
  | .loop _ body rest => body.any f || rest.any f
  | .branch _ yes no rest => yes.any f || no.any f || rest.any f

/-- Every expression of the program has a value whatever its operands are. -/
def Prog.total : Prog → Bool
  | .done => true
  | .op o rest => o.exprs.all Expr.total && rest.total
  | .loop n body rest => n.total && body.total && rest.total
  | .branch c yes no rest => c.total && yes.total && no.total && rest.total

/-- Registers and memory only. -/
def Prog.memoryOnly (p : Prog) : Bool := p.all MicroOp.memoryOnly

/-- Registers only, and nothing in it can stop. -/
def Prog.registerOnly (p : Prog) : Bool := p.all MicroOp.registerOnly && p.total

/-- Registers and Division by Zero only. -/
def Prog.arithOnly (p : Prog) : Bool := p.all MicroOp.arithOnly

/-- Some primitive is supervisor-only. -/
def Prog.needsSupervisor (p : Prog) : Bool := p.any MicroOp.needsSupervisor

/-- Some primitive commits. -/
def Prog.commits (p : Prog) : Bool := p.any MicroOp.commits

/-- Some primitive stores to data memory. -/
def Prog.storesData (p : Prog) : Bool := p.any MicroOp.storesData

/-- The fields whose registers the program writes. -/
def Prog.writtenFields (p : Prog) : List Field := 
  [.r1, .r2, .r3, .r4].filter fun f => p.any fun o => o.writtenReg == some (.field f)

/-! ## The contracts of the families (30_encoding.md R99): an entry that breaks its family's is no entry -/

/-- T: an instruction that raises leaves no register and no memory written (60_exceptions.md R170), so nothing commits; a
vector and a priority that are computed outside a program have a value (47_t.md R153). -/
def sysContract (e : Entry SysBody) : Bool :=
  match e.body with
  | .writePsr | .readPsr | .trapReturn => true
  | .requestTrap v q => v.exprs.all Expr.total && q.exprs.all Expr.total
  | .prog p => !p.commits

/-- M: registers and memory only, and memory accesses alone raise (46_m.md R145). -/
def bulkContract (e : Entry BulkBody) : Bool := e.body.prog.memoryOnly && e.body.prog.total

/-- U commits nothing (60_exceptions.md R170). J raises nothing at the jump itself, so its entry has no mark and its link is
of registers only (41_j.md R115, R116). R116 leaves the link open and 30_encoding.md R99 gives an entry the outcome refuse:
that a link refuses in no state, so that an entry whose link has a `require` is no entry, is the model's choice
(notes/assumptions 36). -/
def ujContract (e : Entry UJBody) : Bool :=
  match e.body with
  | .u p => !p.commits
  | .j none => !e.supervisorOnly
  | .j (some p) => !e.supervisorOnly && p.registerOnly && !p.commits

/-- B raises nothing at the branch itself, so its entries have no mark, and a condition is total (42_b.md R120). -/
def branchContract (e : Entry Expr) : Bool := !e.supervisorOnly && e.body.total

/-- The aligned-offset instruction commits nothing (60_exceptions.md R170). -/
def loadContract (e : Entry LoadBody) : Bool :=
  match e.body with
  | .load _ _ _ => true
  | .alignedOffset p => !p.commits

/-- R: registers and Division by Zero only (45_r.md R140, R141). R141 leaves the operation and the fourth register's role open: that a
program under ENCODING IV may write any register, the one in rs1's or rs2's field or one that no field names among them, and
may leave rd unwritten, is the model's choice (notes/assumptions 37). -/
def regContract (e : Entry RegBody) : Bool :=
  match e.body with
  | .three _ | .fourSource _ | .fourDest _ _ => true
  | .fourProg p => p.arithOnly

/-! ## The map and the platform -/

/-- No opcode is listed twice. -/
def slotsDistinct {β : Type} (rows : List (Opcode × β)) : Bool := decide (rows.map (·.1)).Nodup

def UJBody.isJ : UJBody → Bool
  | .j _ => true
  | .u _ => false

def LoadBody.isAlignedOffset : LoadBody → Bool
  | .alignedOffset _ => true
  | .load _ _ _ => false

def LoadBody.isLoadOf (sp : Space) : LoadBody → Bool
  | .load sp' _ _ => sp' == sp
  | .alignedOffset _ => false

/-- ENCODING III, not IV. -/
def RegBody.isThree : RegBody → Bool
  | .three _ => true
  | .fourSource _ | .fourDest _ _ | .fourProg _ => false

/-- The programs that T, U and aligned-offset entries are. -/
def OpMap.progs (m : OpMap) : List Prog :=
  (m.sys.filterMap fun r => match r.2.body with | .prog p => some p | _ => none)
    ++ (m.uj.filterMap fun r => match r.2.body with | .u p => some p | .j _ => none)
    ++ (m.load.filterMap fun r => match r.2.body with | .alignedOffset p => some p | .load _ _ _ => none)

def MicroOp.writesPsr : MicroOp → Bool
  | .writePsr _ => true
  | _ => false

def MicroOp.returns : MicroOp → Bool
  | .trapReturn => true
  | _ => false

/-- `TrapEnter`, with pc + 4 or another saved pc. -/
def MicroOp.entersTrap : MicroOp → Bool
  | .requestTrap _ _ | .trapEnter _ _ _ => true
  | _ => false

/-- No primitive stands after a trap entry of the program. -/
def Prog.entersLast : Prog → Bool
  | .done => true
  | .op o rest => (!o.entersTrap || rest == .done) && entersLast rest
  | .loop _ body rest => !body.any MicroOp.entersTrap && entersLast rest
  | .branch _ yes no rest =>
    (if rest = .done then entersLast yes && entersLast no
      else !yes.any MicroOp.entersTrap && !no.any MicroOp.entersTrap) && entersLast rest

/-- Some entry's text has a psr write, some a trap return, some a trap entry: what a whole map cannot do without (47_t.md
R151). The text does not show that they do what R151 asks; for the chip's own map that is `OpMap.Capable`
(Machine/Chip.lean). -/
def OpMap.hasCapabilities (m : OpMap) : Bool :=
  (m.sys.any (·.2.body == .writePsr) || m.progs.any (·.any MicroOp.writesPsr))
    && (m.sys.any (·.2.body == .trapReturn) || m.progs.any (·.any MicroOp.returns))
    && (m.sys.any (fun r => match r.2.body with | .requestTrap _ _ => true | _ => false)
      || m.progs.any (·.any MicroOp.entersTrap))

/-- How many pairs the map lists. -/
def OpMap.size (m : OpMap) : Nat :=
  m.sys.length + m.bulk.length + m.uj.length + m.branch.length + m.load.length + m.arithImm.length
    + m.arithReg.length + m.store.length

def OpMap.jCount (m : OpMap) : Nat := (m.uj.filter (·.2.body.isJ)).length

def OpMap.alignedOffsetCount (m : OpMap) : Nat := (m.load.filter (·.2.body.isAlignedOffset)).length

/-- "70 instructions", one J (41_j.md R115), at least two U (40_u.md R111), one aligned-offset instruction (43_i.md R126). The J
has the offset of 92_eei_decisions.md D32: a map that overrides it cannot be declared complete (the model's choice,
notes/assumptions 36). -/
def OpMap.countsAreTheHardwares (m : OpMap) : Bool :=
  m.size == 70 && m.jCount == 1 && decide (3 ≤ m.uj.length) && m.alignedOffsetCount == 1

/-- What the source says is in a group: some instruction in each ("all eight values are used", 30_encoding.md R87), both
encodings in M and in R (46_m.md, 45_r.md), loads and stores of both memories (43_i.md R127, R128; 44_s.md R135, R136). -/
def OpMap.hasEachKind (m : OpMap) : Bool :=
  m.sys != [] && m.branch != [] && m.arithImm != []
    && m.bulk.any (·.2.body.enc == .two) && m.bulk.any (·.2.body.enc == .three)
    && m.arithReg.any (·.2.body.isThree) && m.arithReg.any (!·.2.body.isThree)
    && m.load.any (·.2.body.isLoadOf .main) && m.load.any (·.2.body.isLoadOf .data)
    && m.store.any (·.2.body.space == .main) && m.store.any (·.2.body.space == .data)

/-- An `OPMAP` that keeps the family contracts, and if it is whole has the hardware's counts and what the source says is
there (30_encoding.md R88, R99; 43_i.md R128; 47_t.md R151). It looks at the listed rows only: of a map with the chip's own behind
them (`MapRest.hardware`) the two together may have more than 70 entries, or two J (the model's choice, notes/assumptions 16). -/
def OpMap.wf (m : OpMap) : Bool :=
  slotsDistinct m.sys && slotsDistinct m.bulk && slotsDistinct m.uj && slotsDistinct m.branch && slotsDistinct m.load
    && slotsDistinct m.arithImm && slotsDistinct m.arithReg && slotsDistinct m.store
    && m.sys.all (sysContract ·.2) && m.bulk.all (bulkContract ·.2) && m.uj.all (ujContract ·.2)
    && m.branch.all (branchContract ·.2) && m.load.all (loadContract ·.2) && m.arithReg.all (regContract ·.2)
    && decide (m.jCount ≤ 1) && decide (m.alignedOffsetCount ≤ 1)
    && (m.rest != .declaredComplete || (m.countsAreTheHardwares && m.hasEachKind && m.hasCapabilities))

/-- The four roles of an R word are four fields. -/
def RegRoles.wf (r : RegRoles) : Bool := decide [r.rd, r.rs1, r.rs2, r.fourth].Nodup

/-- ENCODING III has no r4, so there r4 has the role that ENCODING III lacks. -/
def FieldRoles.wf (r : FieldRoles) : Bool := r.three.wf && r.three.fourth == .r4 && r.four.wf

/-! ## The chip's own map -/

/-- A whole map that keeps every contract: declared complete, so with the hardware's counts and kinds of instructions; and its J
has a link, if only one that writes nothing, since whatever the chip's J does with rd it does (41_j.md R116). A listed map may be
declared complete while its J's link is unknown (the model's choice, notes/assumptions 36). -/
def OpMap.isChips (m : OpMap) : Bool := m.rest == .declaredComplete && m.wf && m.uj.all (·.2.body != .j none)

/-- n slots with one entry. -/
def sameEntries {β : Type} (n : Nat) (e : β) : List (Opcode × β) := (List.range n).map fun k => (BitVec.ofNat 4 k, e)

/-- Some map with the counts and kinds of the hardware. It shows that there is one and describes nothing. -/
def OpMap.someSeventy : OpMap :=
  { sys := [(0, ⟨"", false, .writePsr⟩), (1, ⟨"", false, .trapReturn⟩), (2, ⟨"", false, .requestTrap .field .keep⟩)]
    bulk := (15, ⟨"", false, ⟨.three, .done⟩⟩) :: sameEntries 15 ⟨"", false, ⟨.two, .done⟩⟩
    uj := [(0, ⟨"", false, .j (some .done)⟩), (1, ⟨"", false, .u .done⟩), (2, ⟨"", false, .u .done⟩)]
    branch := sameEntries 16 ⟨"", false, .lit 0⟩
    load := [(0, ⟨"", false, .alignedOffset .done⟩), (1, ⟨"", false, .load .main .word .zero⟩),
      (2, ⟨"", false, .load .data .word .zero⟩)]
    arithImm := sameEntries 16 ⟨"", false, .add⟩
    arithReg := (15, ⟨"", false, .fourSource .add⟩) :: sameEntries 10 ⟨"", false, .three .add⟩
    store := [(0, ⟨"", false, ⟨.main, .word⟩⟩), (1, ⟨"", false, ⟨.data, .word⟩⟩)]
    rest := .declaredComplete }

/-! ## The platform -/

/-- Every listed interrupt priority is 1 to 7 (60_exceptions.md R168). -/
def Platform.irqWf (p : Platform) : Bool := p.irqPriority.all (·.2 != 0)

def Platform.wf (p : Platform) : Bool := p.roles.wf && p.irqWf && p.opmap.wf

end Sys2Proof
end

