-- ==== Sys2Proof/Decode.lean ====
section
/-! DEFINITION. The decoder, total on any bytes, and the encoder, both written from the five field figures (30_encoding.md
R80 to R87). Bit positions follow 00_scope.md R2 (notes/assumptions 1). -/

namespace Sys2Proof

/-- Why bytes are no instruction. -/
inductive DecodeError where
  /-- Fewer than four bytes are left. -/
  | truncated
  /-- A bit that every encoding of the word's group labels "zero" is set (30_encoding.md R94). -/
  | zeroFieldNonzero
deriving DecidableEq, Repr

/-! ## Fields of a word -/

def wordGroup (w : Word) : BitVec 3 := w.extractLsb' 29 3
def wordOpcode (w : Word) : Opcode := w.extractLsb' 25 4
def wordR1 (w : Word) : RegIx := w.extractLsb' 20 5
def wordR2 (w : Word) : RegIx := w.extractLsb' 15 5
def wordR3 (w : Word) : RegIx := w.extractLsb' 10 5
def wordR4 (w : Word) : RegIx := w.extractLsb' 5 5
def wordImm20 (w : Word) : BitVec 20 := w.extractLsb' 0 20
def wordImm15 (w : Word) : BitVec 15 := w.extractLsb' 0 15
def wordVector (w : Word) : Byte := w.extractLsb' 0 8
def wordZero12 (w : Word) : BitVec 12 := w.extractLsb' 8 12
def wordZero5 (w : Word) : BitVec 5 := w.extractLsb' 0 5

/-- The instruction a word is. The zero bits of ENCODING III beyond those it shares with ENCODING IV, and those of the M
group, depend on the entry and are checked when the entry is known (95_test_vectors.md V3, V4). -/
def decodeWord (w : Word) : Except DecodeError Instr :=
  if wordGroup w = 0b000 then
    if wordZero12 w = 0 then .ok (.sys (wordOpcode w) (wordR1 w) (wordVector w)) else .error .zeroFieldNonzero
  else if wordGroup w = 0b001 then .ok (.bulk (wordOpcode w) (wordR1 w) (wordR2 w) (wordImm15 w))
  else if wordGroup w = 0b010 then .ok (.uj (wordOpcode w) (wordR1 w) (wordImm20 w))
  else if wordGroup w = 0b011 then .ok (.branch (wordOpcode w) (wordR1 w) (wordR2 w) (wordImm15 w))
  else if wordGroup w = 0b100 then .ok (.load (wordOpcode w) (wordR1 w) (wordR2 w) (wordImm15 w))
  else if wordGroup w = 0b101 then .ok (.arithImm (wordOpcode w) (wordR1 w) (wordR2 w) (wordImm15 w))
  else if wordGroup w = 0b110 then
    if wordZero5 w = 0 then .ok (.arithReg (wordOpcode w) (wordR1 w) (wordR2 w) (wordR3 w) (wordR4 w))
    else .error .zeroFieldNonzero
  else .ok (.store (wordOpcode w) (wordR1 w) (wordR2 w) (wordImm15 w))

/-- The word with the byte at the lowest address in bits 31:24 (20_memory.md R52). -/
def wordOfBytes (b0 b1 b2 b3 : Byte) : Word := (b0 ++ b1 ++ b2 ++ b3).cast rfl

/-- One instruction and the bytes after it. -/
def decodeBytes : List Byte → Except DecodeError (Instr × List Byte)
  | b0 :: b1 :: b2 :: b3 :: rest =>
    match decodeWord (wordOfBytes b0 b1 b2 b3) with
    | .ok i => .ok (i, rest)
    | .error e => .error e
  | [] => .error .truncated
  | [_] => .error .truncated
  | [_, _] => .error .truncated
  | [_, _, _] => .error .truncated

/-! ## The encoder -/

/-- The word of an instruction. -/
def encode : Instr → Word
  | .sys op r1 v => (0b000#3 ++ op ++ r1 ++ 0#12 ++ v).cast rfl
  | .bulk op r1 r2 low => (0b001#3 ++ op ++ r1 ++ r2 ++ low).cast rfl
  | .uj op r1 imm => (0b010#3 ++ op ++ r1 ++ imm).cast rfl
  | .branch op r1 r2 imm => (0b011#3 ++ op ++ r1 ++ r2 ++ imm).cast rfl
  | .load op r1 r2 imm => (0b100#3 ++ op ++ r1 ++ r2 ++ imm).cast rfl
  | .arithImm op r1 r2 imm => (0b101#3 ++ op ++ r1 ++ r2 ++ imm).cast rfl
  | .arithReg op r1 r2 r3 r4 => (0b110#3 ++ op ++ r1 ++ r2 ++ r3 ++ r4 ++ 0#5).cast rfl
  | .store op r1 r2 imm => (0b111#3 ++ op ++ r1 ++ r2 ++ imm).cast rfl

/-- The four bytes of a word as memory holds them: most significant first (20_memory.md R52). -/
def bytesOfWord (w : Word) : List Byte :=
  [w.extractLsb' 24 8, w.extractLsb' 16 8, w.extractLsb' 8 8, w.extractLsb' 0 8]

def encodeBytes (i : Instr) : List Byte := bytesOfWord (encode i)

/-- imm15 for a byte quantity; none when the number does not fit (30_encoding.md R90). -/
def imm15OfByteOffset (n : Int) : Option (BitVec 15) :=
  if -16384 ≤ n ∧ n ≤ 16383 then some (BitVec.ofInt 15 n) else none

/-- imm15 for a branch offset; none when it is no multiple of 4 or out of range (30_encoding.md R91). -/
def imm15OfScaledOffset (n : Int) : Option (BitVec 15) :=
  if n % 4 = 0 ∧ -65536 ≤ n ∧ n ≤ 65532 then some (BitVec.ofInt 15 (n / 4)) else none

/-- imm20 for a jump offset; none when it is no multiple of 4 or out of range (30_encoding.md R92). -/
def imm20OfScaledOffset (n : Int) : Option (BitVec 20) :=
  if n % 4 = 0 ∧ -2097152 ≤ n ∧ n ≤ 2097148 then some (BitVec.ofInt 20 (n / 4)) else none

/-- The host's reading of a table word: every row is one 32-bit word, so bit 0 of `w` is the word's bit 0. The bytes are
laid out most significant first and given to the decoder. -/
def decodeTableWord (nbits w : Nat) : Option Instr :=
  match decodeBytes (bytesOfWord (BitVec.ofNat 32 (w % 2 ^ nbits))) with
  | .ok (i, _) => some i
  | .error _ => none

end Sys2Proof
end

