-- ==== Sys2Proof/Machine/State.lean ====
section
/-! DEFINITION. The state of Sirius as plain data (10_state.md), why a step can stop, and the state right after reset. -/

namespace Sys2Proof.Machine

/-- A memory: the listed bytes, addresses strictly rising, no entry equal to what an unlisted address reads as
(`Memory.unlisted`, Machine/Ops.lean). -/
abbrev Memory := List Host.Cell

/-- An interrupt request (60_exceptions.md R163). -/
structure Request where
  vector : Byte
  prio : BitVec 3
deriving DecidableEq, Repr

/-- What a device may do between two instructions (20_memory.md R50, 92_eei_decisions.md D24, D28). -/
inductive DeviceAction where
  /-- Send a request; its priority is `IRQ_PRIORITY` of the vector. -/
  | request (vector : Byte)
  /-- Withdraw a pending request. -/
  | withdraw (r : Request)
  /-- Write one byte of storage inside `DEVICE_BUFFERS`. -/
  | bufferWrite (sp : Space) (addr : Nat) (b : Byte)
deriving DecidableEq, Repr

/-- One access to a device register, as the device sees it (20_memory.md R50). -/
inductive DeviceEvent where
  | read (addr : Nat) (b : Byte)
  | write (addr : Nat) (b : Byte)
deriving DecidableEq, Repr

/-- Why a machine stopped for good: a double fault (60_exceptions.md R183), or an entry's own `halt` (00_scope.md R4). -/
inductive HaltReason where
  | doubleFault
  | byEntry
deriving DecidableEq, Repr

/-- The run status (10_state.md R30). -/
inductive RunStatus where
  | running
  | halted (r : HaltReason)
deriving DecidableEq, Repr

/-- Why the machine has no further step. -/
inductive Fault where
  /-- Raised by `step` in a halted state: "a halted machine executes nothing further" (60_exceptions.md R183). Safe. -/
  | halted (r : HaltReason)
deriving DecidableEq, Repr

/-- Where the spec gives a situation no meaning and says that the model refuses. Every one is safe: the hardware does
something there and nothing is claimed about it. -/
inductive Refusal where
  /-- Raised by an arm of exec without a meaning; no arm raises it now. Safe. -/
  | notModelled (mnemonic : String)
  /-- Raised at decode by a nonzero field labelled "zero" (30_encoding.md R94). Safe. -/
  | zeroFieldNonzero
  /-- Raised by every meaning whose (group, opcode) has no entry while `OPMAP` is partial (30_encoding.md R95), by one whose
  listed entry breaks its family's contract (R99), and by the all-zero word on the chip's own map (47_t.md R150). Safe. -/
  | noOpmapEntry
  /-- Raised by `fetch` at a pc that is not a multiple of 4 (20_memory.md R54). Safe. -/
  | pcMisaligned
  /-- Raised where the pc, a computed target or a saved pc leaves 0 to 0xFFFFFF (10_state.md R15, 20_memory.md R56). Safe. -/
  | pcOutOfRange
  /-- Raised by an access whose 32-bit address is wider than its space (20_memory.md R56). Safe. -/
  | addressTooWide
  /-- Raised by a 2- or 4-byte access at an address that is not a multiple of its size (20_memory.md R55). Safe. -/
  | misaligned
  /-- Raised by an access to an address that is not installed (20_memory.md R44). Safe. -/
  | notInstalled
  /-- Raised by a walk whose PDT entry lies past 0xFFFF (20_memory.md R62). Safe. -/
  | pdtPastEnd
  /-- Raised by a walk through a PDT entry with a nonzero reserved bit (20_memory.md R63). Safe. -/
  | pdeReserved
  /-- Raised by a walk whose page table entry lies past 0xFFFFFF (20_memory.md R64). Safe. -/
  | pageTablePastEnd
  /-- Raised by a psr write or a trap return that would set a reserved bit (10_state.md R23, 60_exceptions.md R180). Safe. -/
  | psrReserved
  /-- Raised by a trap entry (or the reset sequence) whose IVT entry has a nonzero top byte (60_exceptions.md R173). Safe. -/
  | ivtTopByte
  /-- Raised by a trap return whose saved pc has a nonzero top byte (60_exceptions.md R180). Safe. -/
  | savedPcTopByte
  /-- Raised by J and by a taken B while `REL_BASE` is unset (93_implementation_defined.md U27). Safe. -/
  | relBaseUnset
  /-- Raised by an exception whose `EXC_KIND` is unset (93_implementation_defined.md U26). Safe. -/
  | excKindUnset
  /-- Raised by an exception whose `EXC_PRIORITY` is unset (93_implementation_defined.md U26). Safe. -/
  | excPriorityUnset
  /-- Raised by a fault while a fault is being handled and `FAULT_SCOPE` is unset (60_exceptions.md R183). Safe. -/
  | faultScopeUnset
  /-- Raised by J with rd not x0 while its link is unknown (41_j.md R116). Safe. -/
  | linkUnknown
  /-- Raised by an ENCODING IV word whose two destinations are one register (93_implementation_defined.md U15). Safe. -/
  | sameDestination
  /-- Raised on operands for which an entry states no result (93_implementation_defined.md U10). Safe. -/
  | entrySilent
  /-- Raised by `step` when a device acts outside `DEVICE_BUFFERS`: the model has no such run (93_implementation_defined.md U33). Safe. -/
  | deviceOutsideBuffers
deriving DecidableEq, Repr

/-- The machine. -/
structure State where
  /-- x1 and x3 to x31 (10_state.md R13); x0 holds nothing (R11) and x2 is `ssp` or `usp`. -/
  regs : Vector Word 30
  /-- x2 in supervisor mode (10_state.md R12). -/
  ssp : Word
  /-- x2 in user mode. -/
  usp : Word
  /-- The address of the instruction about to be fetched (10_state.md R14). -/
  pc : Pc
  /-- The processor status register (10_state.md R16); its fields are in Machine/Flags.lean. -/
  psr : Word
  /-- Main memory (10_state.md R26). -/
  main : Memory
  /-- The storage of data memory (10_state.md R27). -/
  data : Memory
  /-- Requests not yet acknowledged, a set in rising order (10_state.md R28). -/
  pending : List Request
  /-- How many faults are being handled (10_state.md R29). -/
  faultDepth : Nat
  /-- The run status (10_state.md R30). -/
  status : RunStatus
  /-- The model's own: what devices will still do, one list for each gap between two instructions (notes/assumptions 15). -/
  schedule : List (List DeviceAction)
  /-- The model's own: the device register accesses so far, newest first (notes/assumptions 14). -/
  deviceLog : List DeviceEvent
  /-- The model's own: how many free values have been drawn (notes/assumptions 14). -/
  freeCount : Nat
  /-- The spec's parameters; no step changes them (notes/assumptions 2). -/
  platform : Platform
deriving DecidableEq, Repr

/-- What a step, a meaning or a trap entry answers. -/
abbrev Result := Host.Outcome State Fault Refusal

/-- Right after reset (10_state.md R32, 70_reset_and_hazards.md R200) with nothing loaded: psr is s 1, irq 0, mmu 0, p 0,
ivt 62, pdt 255; pc is IVT entry 0 of a data memory that reads as 0. The registers' zeros are notes/assumptions 4, the
memories' are 11, the platform is 3. -/
def State.reset : State :=
  { regs := Vector.replicate 30 0
    ssp := 0
    usp := 0
    pc := 0
    psr := 0x83EFF000
    main := []
    data := []
    pending := []
    faultDepth := 0
    status := .running
    schedule := []
    deviceLog := []
    freeCount := 0
    platform := .reset }

end Sys2Proof.Machine
end

