-- ==== Sys2Proof/Machine/Flags.lean ====
section
/-! DEFINITION. The fields of the psr (10_state.md R16). Sirius has no condition codes (R25), so no instruction computes a
flag; the psr's fields are all the status bits there are. -/

namespace Sys2Proof.Machine

/-- Bit 31: supervisor mode (10_state.md R17). -/
def psrS (w : Word) : Bool := w.getLsbD 31

/-- Bit 30: interrupt enable (10_state.md R18). -/
def psrIrq (w : Word) : Bool := w.getLsbD 30

/-- Bit 29: MMU enable (10_state.md R19). -/
def psrMmu (w : Word) : Bool := w.getLsbD 29

/-- Bits 28:26: the current priority (10_state.md R20). -/
def psrP (w : Word) : BitVec 3 := w.extractLsb' 26 3

/-- Bits 25:20: the position of the interrupt vector table (10_state.md R21). -/
def psrIvt (w : Word) : BitVec 6 := w.extractLsb' 20 6

/-- Bits 19:12: the position of the page directory table (10_state.md R22). -/
def psrPdt (w : Word) : BitVec 8 := w.extractLsb' 12 8

/-- Bits 11:0: reserved (10_state.md R23). -/
def psrRes (w : Word) : BitVec 12 := w.extractLsb' 0 12

/-- The psr with `s` replaced. -/
def psrWithS (w : Word) (b : Bool) : Word := (BitVec.ofBool b ++ w.extractLsb' 0 31).cast rfl

/-- The psr with `p` replaced. -/
def psrWithP (w : Word) (q : BitVec 3) : Word := (w.extractLsb' 29 3 ++ q ++ w.extractLsb' 0 26).cast rfl

/-- The psr with these fields, in the order of the figure of 10_state.md R16. -/
def psrOf (s irq mmu : Bool) (p : BitVec 3) (ivt : BitVec 6) (pdt : BitVec 8) (res : BitVec 12) : Word :=
  (BitVec.ofBool s ++ BitVec.ofBool irq ++ BitVec.ofBool mmu ++ p ++ ivt ++ pdt ++ res).cast rfl

/-- Where the vector table starts in data memory: `psr.ivt * 1024` (10_state.md R21). -/
def ivtBase (w : Word) : Nat := (psrIvt w).toNat * 1024

/-- The data address of the vector's entry (60_exceptions.md R164). -/
def ivtEntryAddr (w : Word) (v : Byte) : Nat := ivtBase w + v.toNat * 4

/-- Where the page directory table starts in data memory: `psr.pdt * 256` (10_state.md R22). -/
def pdtBase (w : Word) : Nat := (psrPdt w).toNat * 256

end Sys2Proof.Machine
end

