-- ==== Sys2Proof/Machine/Operands.lean ====
section
/-! DEFINITION. Operands: immediates (30_encoding.md R90 to R93), the roles of register fields (R89), the value of an entry's
expression, and which entry a slot has. -/

namespace Sys2Proof.Machine

/-! ## Immediates -/

/-- imm15 as a byte quantity: `sext_32(imm15)` (30_encoding.md R90). -/
def byteImm (imm : BitVec 15) : Word := imm.signExtend 32

/-- imm15 scaled, as the aligned-offset instruction's operand word: `sext_32(imm15) << 2` (30_encoding.md R91). -/
def scaledImm15 (imm : BitVec 15) : Word := imm.signExtend 32 <<< 2

/-- The signed byte offset of a branch (30_encoding.md R91). -/
def branchOffset (imm : BitVec 15) : Int := (scaledImm15 imm).toInt

/-- `sext_32(imm20) << 2` (30_encoding.md R92). -/
def scaledImm20 (imm : BitVec 20) : Word := imm.signExtend 32 <<< 2

/-- The signed byte offset of J (30_encoding.md R92). -/
def jumpOffset (imm : BitVec 20) : Int := (scaledImm20 imm).toInt

/-! ## Register fields -/

/-- The register fields of a word; a field the encoding lacks is 0. -/
structure Fields where
  r1 : RegIx
  r2 : RegIx
  r3 : RegIx
  r4 : RegIx
deriving DecidableEq, Repr

def Fields.get (f : Fields) (k : Field) : RegIx := pickField k f.r1 f.r2 f.r3 f.r4

/-- The register fields of an R word in role order: rd, rs1, rs2, the fourth register. -/
def Fields.inRoles (f : Fields) (r : RegRoles) : Fields := ⟨f.get r.rd, f.get r.rs1, f.get r.rs2, f.get r.fourth⟩

/-- The first and second role of an ENCODING II word. -/
def pairRoles (o : PairOrder) (r1 r2 : RegIx) : RegIx × RegIx :=
  match o with
  | .inOrder => (r1, r2)
  | .swapped => (r2, r1)

def Fields.sel (f : Fields) : RegSel → RegIx
  | .field k => f.get k
  | .fixed i => i

/-! ## Expressions of entries -/

/-- The exact operation narrowed to 32 bits. Addition and subtraction are 45_r.md R142's; the rest is vocabulary of
entries: a quotient or remainder is of the rounding toward zero (a remainder has the dividend's sign) and a shift amount is
taken whole (notes/assumptions 38). An entry that means something else on such operands says so with `defined`. A division
by 0 raises (`dividesByZero`), so the free value that stands here for its result is never used. -/
def evalBin (o : BinOp) (a b : Word) : Word :=
  match o with
  | .add => a + b
  | .sub => a - b
  | .and => a &&& b
  | .or => a ||| b
  | .xor => a ^^^ b
  | .mul => a * b
  | .mulHighU => BitVec.ofNat 32 (a.toNat * b.toNat / 2 ^ 32)
  | .mulHighS => BitVec.ofInt 32 (a.toInt * b.toInt / 2 ^ 32)
  | .divU => if b = 0 then Config.quotientByZero o a else BitVec.ofNat 32 (a.toNat / b.toNat)
  | .divS => if b = 0 then Config.quotientByZero o a else BitVec.ofInt 32 (a.toInt.tdiv b.toInt)
  | .remU => if b = 0 then Config.quotientByZero o a else BitVec.ofNat 32 (a.toNat % b.toNat)
  | .remS => if b = 0 then Config.quotientByZero o a else BitVec.ofInt 32 (a.toInt.tmod b.toInt)
  | .shl => if b.toNat < 32 then a <<< b.toNat else 0
  | .shrU => if b.toNat < 32 then a >>> b.toNat else 0
  | .shrS => a.sshiftRight (min b.toNat 31)
  | .eq => if a = b then 1 else 0
  | .ltU => if a.toNat < b.toNat then 1 else 0
  | .ltS => if a.toInt < b.toInt then 1 else 0

/-- The word of an expression; an operand that is not there is 0. Arithmetic is on words, modulo 2^32, of a pc that a program
has read too (00_scope.md R3 has exact arithmetic for the pc; the model's choice, notes/assumptions 46). -/
def evalExpr (env : List Word) : Expr → Word
  | .lit w => w
  | .opnd i => env.getD i 0
  | .bin o a b => evalBin o (evalExpr env a) (evalExpr env b)
  | .ite c a b => if evalExpr env c ≠ 0 then evalExpr env a else evalExpr env b
  | .free k a b => Config.freeOp k (evalExpr env a) (evalExpr env b)

/-- An expression as a condition: nonzero holds (42_b.md R120, "a total function of two 32-bit values to a boolean"). -/
def exprHolds (env : List Word) (e : Expr) : Bool := evalExpr env e != 0

/-- Does the expression divide by 0: "raised by a division or remainder whose divisor is 0" (43_i.md R131). It is asked of the
whole expression, of both arms of an `ite` too (notes/assumptions 38). -/
def dividesByZero (env : List Word) : Expr → Bool
  | .lit _ | .opnd _ => false
  | .bin o a b => dividesByZero env a || dividesByZero env b || (o.divides && evalExpr env b == 0)
  | .ite c a b => dividesByZero env c || dividesByZero env a || dividesByZero env b
  | .free _ a b => dividesByZero env a || dividesByZero env b

/-- Does `op_k` raise Division by Zero on these operands (43_i.md R131, 45_r.md R143): its mark and its divisions. -/
def aluDividesByZero (f : AluOp) (env : List Word) : Bool :=
  (f.divides && env.getD 1 0 == 0) || dividesByZero env f.defined || dividesByZero env f.value

/-- What an arithmetic entry answers: a word, Division by Zero, or nothing because it states no result. -/
inductive AluResult where
  | value (w : Word)
  | divisionByZero
  | silent
deriving DecidableEq, Repr

/-- `op_k` on its operands (43_i.md R130, R131; 45_r.md R140, R142, R143). A divisor of 0 raises even where the entry is silent
(the model's choice, notes/assumptions 22). -/
def runAlu (f : AluOp) (env : List Word) : AluResult :=
  if aluDividesByZero f env then .divisionByZero
  else if exprHolds env f.defined then .value (evalExpr env f.value)
  else .silent

/-- A loaded value in a register: `ext_32` (43_i.md R129); the identity for a word. -/
def extend (x : Ext) (w : Width) (v : Word) : Word :=
  match w, x with
  | .byte, .zero => (v.extractLsb' 0 8).zeroExtend 32
  | .byte, .sign => (v.extractLsb' 0 8).signExtend 32
  | .half, .zero => (v.extractLsb' 0 16).zeroExtend 32
  | .half, .sign => (v.extractLsb' 0 16).signExtend 32
  | .word, _ => v

/-! ## The entry of a slot -/

/-- What `OPMAP` says of a slot (30_encoding.md R95). -/
inductive Found (α : Type) where
  | entry (e : α)
  | illegal
  | unknown
deriving DecidableEq, Repr

/-- An entry that keeps its family's contract; one that does not is none (30_encoding.md R99). -/
def keepEntry {α : Type} (keeps : α → Bool) (e : α) : Found α := if keeps e then .entry e else .unknown

/-- The listed entry; else as the rest of the map says: partial or complete (92_eei_decisions.md D20), or, the model's choice
(notes/assumptions 16), a third kind, in which the chip's own map stands behind the listed entries. What the two give together is
held to no count: a listed entry may take a chip's slot, or one that the chip leaves empty. The chip's own map is complete, so a
slot it leaves empty is no instruction. -/
def lookupSlot {α : Type} (rows : List (Opcode × α)) (rest : MapRest) (chip : List (Opcode × α)) (keeps : α → Bool)
    (op : Opcode) : Found α :=
  match rows.lookup op with
  | some e => keepEntry keeps e
  | none =>
    match rest with
    | .declaredPartial => .unknown
    | .declaredComplete => .illegal
    | .hardware =>
      match chip.lookup op with
      | some e => keepEntry keeps e
      | none => .illegal

/-! ## Lookups in the platform -/

def relBaseBytes : RelBase → Int
  | .zero => 0
  | .four => 4

/-- `EXC_KIND` (92_eei_decisions.md D15): Page Fault is a fault on every platform. -/
def excKindOf (p : Platform) (v : Byte) : Option ExcKind :=
  if v = 0x07 then some .fault
  else
    match p.excKind with
    | .table rows => rows.lookup v
    | .hardware => some (if Config.excIsFault v then .fault else .trap)

/-- `EXC_PRIORITY(vector, psr.p)` (92_eei_decisions.md D14). -/
def excPriorityOf (p : Platform) (v : Byte) (cur : BitVec 3) : Option (BitVec 3) :=
  match p.excPriority with
  | .unset => none
  | .keep => some cur
  | .fixed q => some q
  | .table rows => rows.lookup (v, cur)
  | .hardware => some (Config.excPriority v cur)

/-- `IRQ_PRIORITY(vector)`, 1 to 7 (60_exceptions.md R168). -/
def irqPriorityOf (p : Platform) (v : Byte) : BitVec 3 :=
  match p.irqPriority.lookup v with
  | some q => q
  | none => BitVec.ofNat 3 ((Config.irqPriority v).val + 1)

/-- The priority of a requested trap (47_t.md R153), the operand list and psr.p given. -/
def trapPrioValue (t : TrapPrio) (env : List Word) (cur : BitVec 3) : BitVec 3 :=
  match t with
  | .keep => cur
  | .fixed q => q
  | .computed e => (evalExpr env e).extractLsb' 0 3

/-- The vector of a requested trap (47_t.md R153), the operand list and the word's byte given. -/
def trapVectorValue (t : TrapVector) (env : List Word) (field : Byte) : Byte :=
  match t with
  | .field => field
  | .fixed v => v
  | .computed e => (evalExpr env e).extractLsb' 0 8

def regionHas (r : Region) (a : Nat) : Bool := decide (r.base ≤ a) && decide (a < r.base + r.size)

def addrSetHas (s : AddrSet) (a : Nat) : Bool :=
  match s with
  | .all => true
  | .regions rs => rs.any (fun r => regionHas r a)

/-- Is the data address a device register: `DEVICE_REGION` and the device map (20_memory.md R50). -/
def isDevice (p : Platform) (a : Nat) : Bool :=
  p.deviceRegion.any (fun r => regionHas r a) || regionHas ⟨0x0100, p.devmapSize⟩ a

/-- May a device write this storage: `DEVICE_BUFFERS` (20_memory.md R50). -/
def inBuffers (p : Platform) (sp : Space) (a : Nat) : Bool :=
  p.deviceBuffers.any (fun b => decide (b.space = sp) && regionHas b.region a)

end Sys2Proof.Machine
end

