-- ==== Sys2Proof/Machine/Ops.lean ====
section
/-! DEFINITION. The named operations: memories, registers, the MMU, the access primitives of 00_scope.md R4, taking an
exception, returning from one, acknowledging an interrupt. -/

namespace Sys2Proof.Machine

/-! ## One memory -/

/-- What an address reads as that no entry lists: memory contents at reset are a parameter of the spec with no default
(93_implementation_defined.md U23); the model takes 0 (notes/assumptions 11, unsafe). -/
def Memory.unlisted : Byte := 0

/-- The byte at an address. -/
def Memory.read : Memory → Nat → Byte
  | [], _ => Memory.unlisted
  | (k, b) :: rest, a => if k = a then b else Memory.read rest a

/-- The memory with one byte replaced, in canonical form. -/
def Memory.write : Memory → Nat → Byte → Memory
  | [], a, v => if v = Memory.unlisted then [] else [(a, v)]
  | (k, b) :: rest, a, v =>
    if a < k then (if v = Memory.unlisted then (k, b) :: rest else (a, v) :: (k, b) :: rest)
    else if a = k then (if v = Memory.unlisted then rest else (a, v) :: rest)
    else (k, b) :: Memory.write rest a v

/-- The canonical form: addresses strictly rising from `lo` and below `size`, no entry equal to the unlisted value. -/
def Memory.wfFrom (size : Nat) : Nat → Memory → Bool
  | _, [] => true
  | lo, (k, b) :: rest => decide (lo ≤ k) && decide (k < size) && b != Memory.unlisted && Memory.wfFrom size (k + 1) rest

def Memory.wf (size : Nat) (m : Memory) : Bool := Memory.wfFrom size 0 m

/-- Main memory has 2^24 bytes, data memory 2^16 (20_memory.md R40). -/
def mainSize : Nat := 2 ^ 24
def dataSize : Nat := 2 ^ 16

/-! ## Byte order (20_memory.md R53) -/

def widthBytes : Width → Nat
  | .byte => 1
  | .half => 2
  | .word => 4

/-- The low 8n bits of a value as n bytes, most significant first. -/
def bigBytes (w : Width) (v : Word) : List Byte :=
  match w with
  | .byte => [v.extractLsb' 0 8]
  | .half => [v.extractLsb' 8 8, v.extractLsb' 0 8]
  | .word => [v.extractLsb' 24 8, v.extractLsb' 16 8, v.extractLsb' 8 8, v.extractLsb' 0 8]

/-- The value of bytes given most significant first. -/
def ofBigBytes (bs : List Byte) : Word := bs.foldl (fun acc b => (acc <<< 8) ||| b.zeroExtend 32) 0

/-- The bytes of a value in address order. -/
def toBytes (e : Endian) (w : Width) (v : Word) : List Byte :=
  match e with
  | .big => bigBytes w v
  | .little => (bigBytes w v).reverse

/-- The value of bytes in address order. -/
def ofBytes (e : Endian) (bs : List Byte) : Word :=
  match e with
  | .big => ofBigBytes bs
  | .little => ofBigBytes bs.reverse

/-- n bytes from an address on. -/
def Memory.readList (m : Memory) : Nat → Nat → List Byte
  | _, 0 => []
  | a, n + 1 => Memory.read m a :: Memory.readList m (a + 1) n

/-- Bytes stored from an address on. -/
def Memory.writeList : Memory → Nat → List Byte → Memory
  | m, _, [] => m
  | m, a, b :: bs => Memory.writeList (Memory.write m a b) (a + 1) bs

def Memory.readVal (m : Memory) (e : Endian) (w : Width) (a : Nat) : Word :=
  ofBytes e (Memory.readList m a (widthBytes w))

def Memory.writeVal (m : Memory) (e : Endian) (w : Width) (a : Nat) (v : Word) : Memory :=
  Memory.writeList m a (toBytes e w v)

/-- Do the n bytes at an address all lie in the set (20_memory.md R44). -/
def allInstalled (s : AddrSet) : Nat → Nat → Bool
  | _, 0 => true
  | a, n + 1 => addrSetHas s a && allInstalled s (a + 1) n

/-! ## Registers (10_state.md R10 to R13) -/

/-- Where x1 and x3 to x31 stand in `regs`. -/
def regSlot (i : RegIx) : Option (Fin 30) :=
  if i.toNat = 0 ∨ i.toNat = 2 then none
  else if i.toNat = 1 then some 0
  else some ⟨i.toNat - 2, by have := i.isLt; omega⟩

/-- `x[i]`: x0 reads 0; x2 is the copy of the current mode. -/
def State.readReg (s : State) (i : RegIx) : Word :=
  match regSlot i with
  | some k => s.regs[k]
  | none => if i = 0 then 0 else if psrS s.psr then s.ssp else s.usp

/-- `x[i] <- v`: a write of x0 does nothing; x2 is the copy of the current mode. -/
def State.writeReg (s : State) (i : RegIx) (v : Word) : State :=
  match regSlot i with
  | some k => { s with regs := s.regs.set k v }
  | none => if i = 0 then s else if psrS s.psr then { s with ssp := v } else { s with usp := v }

/-- The index of the stack pointer (10_state.md R12). -/
def spIx : RegIx := 2

/-- Supervisor mode (10_state.md R17). -/
def State.supervisor (s : State) : Bool := psrS s.psr

/-! ## An instruction at work

`cur` is the state so far. `base` is what an exception goes back to: the state before the instruction, with the dirty bits
its translations have set and the device reads it has made (60_exceptions.md R170, notes/assumptions 17). -/

structure Work where
  cur : State
  base : State
deriving DecidableEq, Repr

def Work.start (s : State) : Work := { cur := s, base := s }

/-- What a primitive answers: a value, `raise E`, `refuse`. -/
inductive Access (α : Type) where
  | ok (v : α) (w : Work)
  | raised (e : Exc) (w : Work)
  | refused (r : Refusal)

/-- Go on with a primitive's value. -/
def Access.andThen {α β : Type} (x : Access α) (f : α → Work → Access β) : Access β :=
  match x with
  | .ok v w => f v w
  | .raised e w => .raised e w
  | .refused r => .refused r

/-! ## Physical accesses of main memory (20_memory.md R45) -/

/-- Why `PhysRead` or `PhysWrite` is refused, if it is. -/
def physCheck (p : Platform) (w : Width) (pa : Nat) : Option Refusal :=
  if pa % widthBytes w ≠ 0 then some .misaligned
  else if allInstalled p.mainInstalled pa (widthBytes w) then none
  else some .notInstalled

/-- `PhysRead(pa, n)` in a given byte order. -/
def physRead (e : Endian) (width : Width) (pa : Nat) (w : Work) : Access Word :=
  match physCheck w.cur.platform width pa with
  | some r => .refused r
  | none => .ok (w.cur.main.readVal e width pa) w

/-- `PhysWrite(pa, n, v)`. -/
def physWrite (width : Width) (pa : Nat) (v : Word) (w : Work) : Access Unit :=
  match physCheck w.cur.platform width pa with
  | some r => .refused r
  | none =>
    .ok () { w with cur := { w.cur with main := w.cur.main.writeVal w.cur.platform.endian width pa v } }

/-! ## Data memory (20_memory.md R49 to R51) -/

/-- Why `DataRead` or `DataWrite` is refused, if it is. -/
def dataCheck (p : Platform) (w : Width) (a : Word) : Option Refusal :=
  if a.extractLsb' 16 16 ≠ (0 : BitVec 16) then some .addressTooWide
  else if a.toNat % widthBytes w ≠ 0 then some .misaligned
  else if allInstalled p.dataInstalled a.toNat (widthBytes w) then none
  else some .notInstalled

/-- A device has answered a read: the event is logged and one free value drawn. -/
def State.logRead (s : State) (a : Nat) (b : Byte) (n : Nat) : State :=
  { s with deviceLog := .read a b :: s.deviceLog, freeCount := n }

/-- One byte of data memory: storage, or any byte a device answers (20_memory.md R50). A device read has happened even if
the instruction is abandoned, so it is in `base` too. -/
def dataReadByte (a : Nat) (w : Work) : Byte × Work :=
  if isDevice w.cur.platform a then
    (Config.deviceByte w.cur.freeCount a,
      { cur := w.cur.logRead a (Config.deviceByte w.cur.freeCount a) (w.cur.freeCount + 1)
        base := w.base.logRead a (Config.deviceByte w.cur.freeCount a) (w.cur.freeCount + 1) })
  else (w.cur.data.read a, w)

/-- n bytes of data memory, in address order. -/
def dataReadList : Nat → Nat → Work → List Byte × Work
  | _, 0, w => ([], w)
  | a, n + 1, w =>
    ((dataReadByte a w).1 :: (dataReadList (a + 1) n (dataReadByte a w).2).1,
      (dataReadList (a + 1) n (dataReadByte a w).2).2)

/-- `DataRead(a, n)`. The privilege check is the instruction's (20_memory.md R51). -/
def dataRead (width : Width) (a : Word) (w : Work) : Access Word :=
  match dataCheck w.cur.platform width a with
  | some r => .refused r
  | none =>
    .ok (ofBytes w.cur.platform.endian (dataReadList a.toNat (widthBytes width) w).1)
      (dataReadList a.toNat (widthBytes width) w).2

/-- One byte to data memory: storage, or a write event for the device (20_memory.md R50). -/
def State.dataWriteByte (s : State) (a : Nat) (b : Byte) : State :=
  if isDevice s.platform a then { s with deviceLog := .write a b :: s.deviceLog }
  else { s with data := s.data.write a b }

def State.dataWriteList : State → Nat → List Byte → State
  | s, _, [] => s
  | s, a, b :: bs => State.dataWriteList (s.dataWriteByte a b) (a + 1) bs

/-- `DataWrite(a, n, v)`. -/
def dataWrite (width : Width) (a : Word) (v : Word) (w : Work) : Access Unit :=
  match dataCheck w.cur.platform width a with
  | some r => .refused r
  | none => .ok () { w with cur := w.cur.dataWriteList a.toNat (toBytes w.cur.platform.endian width v) }

/-! ## The MMU (20_memory.md R60 to R69) -/

/-- What a main memory access is for. -/
inductive AccessKind where
  | read | write | fetch
deriving DecidableEq, Repr

/-- Pages have 4096 bytes (20_memory.md R67). -/
def pageOffsetBits : Nat := 12

/-- The offset, the page table index and the directory index of a virtual address (20_memory.md R61). -/
def vaOffset (va : Pc) : Nat := va.toNat % 2 ^ pageOffsetBits
def vaTableIndex (p : Platform) (va : Pc) : Nat := va.toNat / 2 ^ pageOffsetBits % 2 ^ p.ptIndexBits.val
def vaDirIndex (p : Platform) (va : Pc) : Nat := va.toNat / 2 ^ (pageOffsetBits + p.ptIndexBits.val)

/-- The data address of the directory entry (20_memory.md R62). -/
def pdeAddr (s : State) (va : Pc) : Nat := pdtBase s.psr + vaDirIndex s.platform va * 2

/-- Bits 15:4 of a table entry as an address: `e[15:4] << 12` (20_memory.md R63, R67). -/
def entryAddr (e : Word) : Nat := (e.extractLsb' 4 12).toNat * 4096

/-- The main address of the page table entry (20_memory.md R64). -/
def pteAddr (s : State) (va : Pc) (pde : Word) : Nat := entryAddr pde + vaTableIndex s.platform va * 2

/-- The status bits of a page table entry (20_memory.md R65). -/
def ptePresent (e : Word) : Bool := e.getLsbD 0
def pteDirty (e : Word) : Bool := e.getLsbD 1
def pteExec (e : Word) : Bool := e.getLsbD 2
def pteWritable (e : Word) : Bool := e.getLsbD 3

/-- `Check(pte, kind)`: the exception, if any (20_memory.md R66). -/
def pteCheck (supervisor : Bool) (kind : AccessKind) (pte : Word) : Option Exc :=
  if ptePresent pte = false then some .pageFault
  else if supervisor then none
  else
    match kind with
    | .read => none
    | .write => if pteWritable pte then none else some .accessViolation
    | .fetch => if pteExec pte then none else some .accessViolation

/-- The state with the dirty bit of the entry at `a` set. -/
def State.setDirty (s : State) (a : Nat) : State :=
  { s with main := s.main.writeVal s.platform.endian .half a (s.main.readVal s.platform.endian .half a ||| 0x0002) }

/-- `SetDirty` (20_memory.md R68). A dirty bit stays set when the instruction is abandoned (60_exceptions.md R170). -/
def setDirtyIfNeeded (kind : AccessKind) (a : Nat) (pte : Word) (w : Work) : Work :=
  if kind = .write ∧ w.cur.platform.mmuSetsDirty = true ∧ pteDirty pte = false then
    { cur := w.cur.setDirty a, base := w.base.setDirty a }
  else w

/-- `ReadPDE` (20_memory.md R62, R63). -/
def readPde (va : Pc) (w : Work) : Access Word :=
  if pdeAddr w.cur va > 0xFFFF then .refused .pdtPastEnd
  else
    (dataRead .half (BitVec.ofNat 32 (pdeAddr w.cur va)) w).andThen fun pde w1 =>
      if pde.extractLsb' 0 4 ≠ (0 : BitVec 4) then .refused .pdeReserved else .ok pde w1

/-- `PhysRead(ptb + pti*2, 2)` (20_memory.md R64). -/
def readPte (va : Pc) (pde : Word) (w : Work) : Access Word :=
  if pteAddr w.cur va pde > 0xFFFFFF then .refused .pageTablePastEnd
  else physRead w.cur.platform.endian .half (pteAddr w.cur va pde) w

/-- `Translate(va, kind)` (20_memory.md R61): the physical address. -/
def mmuTranslate (kind : AccessKind) (va : Pc) (w : Work) : Access Nat :=
  (readPde va w).andThen fun pde w1 =>
    (readPte va pde w1).andThen fun pte w2 =>
      match pteCheck w2.cur.supervisor kind pte with
      | some e => .raised e w2
      | none => .ok (entryAddr pte + vaOffset va) (setDirtyIfNeeded kind (pteAddr w2.cur va pde) pte w2)

/-- The physical address of a main memory access: translated while psr.mmu = 1 (20_memory.md R60). -/
def mainAddr (kind : AccessKind) (va : Pc) (w : Work) : Access Nat :=
  if psrMmu w.cur.psr then mmuTranslate kind va w else .ok va.toNat w

/-! ## The access primitives -/

/-- A computed address as one of main memory: wider ones are refused (20_memory.md R56). -/
def inMain {α : Type} (a : Word) (f : Pc → Access α) : Access α :=
  if a.extractLsb' 24 8 ≠ (0 : BitVec 8) then .refused .addressTooWide else f (a.extractLsb' 0 24)

/-- A computed address for an access of the width: "The model refuses every such access" that is misaligned (20_memory.md R55),
before it translates it (notes/assumptions 47). -/
def inMainAligned {α : Type} (width : Width) (a : Word) (f : Pc → Access α) : Access α :=
  inMain a fun va => if va.toNat % widthBytes width ≠ 0 then .refused .misaligned else f va

/-- `MemRead(va, n)` (20_memory.md R46, R55). -/
def memRead (width : Width) (va : Word) (w : Work) : Access Word :=
  inMainAligned width va fun a => (mainAddr .read a w).andThen fun pa w1 => physRead w1.cur.platform.endian width pa w1

/-- `MemWrite(va, n, v)` (20_memory.md R47, R55). -/
def memWrite (width : Width) (va v : Word) (w : Work) : Access Unit :=
  inMainAligned width va fun a => (mainAddr .write a w).andThen fun pa w1 => physWrite width pa v w1

/-- `Fetch(a)` (20_memory.md R48): an instruction word is big-endian whatever `DATA_ENDIAN` is (R52). -/
def fetchAt (a : Pc) (w : Work) : Access Word :=
  if a.toNat % 4 ≠ 0 then .refused .pcMisaligned
  else (mainAddr .fetch a w).andThen fun pa w1 => physRead .big .word pa w1

/-- The fetch of the instruction at the pc. -/
def fetch (w : Work) : Access Word := fetchAt w.cur.pc w

/-- A load's read in the space of its entry. -/
def loadFrom (sp : Space) (width : Width) (a : Word) (w : Work) : Access Word :=
  match sp with
  | .main => memRead width a w
  | .data => dataRead width a w

/-- A store's write in the space of its entry. -/
def storeTo (sp : Space) (width : Width) (a v : Word) (w : Work) : Access Unit :=
  match sp with
  | .main => memWrite width a v w
  | .data => dataWrite width a v w

/-! ## The pc -/

/-- The last address of main memory. -/
def pcMax : Nat := 0xFFFFFF

/-- The address after the instruction's, if there is one (10_state.md R15). -/
def State.nextPc (s : State) : Option Pc :=
  if s.pc.toNat + 4 ≤ pcMax then some (BitVec.ofNat 24 (s.pc.toNat + 4)) else none

/-- `pc <- pc + 4` (10_state.md R15). -/
def advance (s : State) : Result :=
  match s.nextPc with
  | some t => .next { s with pc := t }
  | none => .refused .pcOutOfRange

/-- A computed target, refused outside 0 to 2^24-1 (20_memory.md R56). -/
def targetPc (t : Int) : Option Pc :=
  if 0 ≤ t ∧ t ≤ (pcMax : Int) then some (BitVec.ofInt 24 t) else none

/-- `pc <- target`. -/
def jumpTo (t : Int) (s : State) : Result :=
  match targetPc t with
  | some p => .next { s with pc := p }
  | none => .refused .pcOutOfRange

/-- `pc + REL_BASE + offset`, exact (41_j.md R115, 42_b.md R120). -/
def relTarget (s : State) (b : RelBase) (offset : Int) : Int := (s.pc.toNat : Int) + relBaseBytes b + offset

/-! ## The trap frame (60_exceptions.md R172) -/

/-- The stack pointer after a push, before a pop's undoing. -/
def spAfterPush (f : TrapFrame) (sp : Word) : Word :=
  match f.growth with
  | .down => sp - 4
  | .up => sp + 4

def spAfterPop (f : TrapFrame) (sp : Word) : Word :=
  match f.growth with
  | .down => sp + 4
  | .up => sp - 4

/-- Where a push writes, the pointer being `sp` before it. -/
def pushAddr (f : TrapFrame) (sp : Word) : Word :=
  match f.move with
  | .before => spAfterPush f sp
  | .after => sp

/-- Where a pop reads, the pointer being `sp` before it. -/
def popAddr (f : TrapFrame) (sp : Word) : Word :=
  match f.move with
  | .before => sp
  | .after => spAfterPop f sp

/-- The stack pointer moved as a push moves it. -/
def Work.movePointer (w : Work) : Work :=
  { w with cur := w.cur.writeReg spIx (spAfterPush w.cur.platform.frame (w.cur.readReg spIx)) }

/-- `Push32(v)`. -/
def push32 (v : Word) (w : Work) : Access Unit :=
  memWrite .word (pushAddr w.cur.platform.frame (w.cur.readReg spIx)) v w.movePointer

/-- The two words of the frame, in the order they are pushed. -/
def frameWords (o : FrameOrder) (psr pc : Word) : Word × Word :=
  match o with
  | .psrFirst => (psr, pc)
  | .pcFirst => (pc, psr)

/-! ## Trap entry (60_exceptions.md R171 to R173) -/

/-- What `TrapEnter` answers: the handler's first state, a halted machine, or a refusal. -/
inductive TrapResult where
  | entered (s : State)
  | halted (s : State)
  | refused (r : Refusal)

/-- The same inside an instruction at work. -/
inductive TrapWork where
  | entered (w : Work)
  | halted (s : State)
  | refused (r : Refusal)

/-- `halt(reason)` (00_scope.md R4). -/
def State.haltWith (s : State) (r : HaltReason) : State := { s with status := .halted r }

/-- The double fault: the machine halts (60_exceptions.md R183). -/
def State.halt (s : State) : State := s.haltWith .doubleFault

/-- The end of `TrapEnter`, the priority set: the IVT entry, the pc. -/
def loadHandler (v : Byte) (w : Work) : TrapWork :=
  match dataRead .word (BitVec.ofNat 32 (ivtEntryAddr w.cur.psr v)) w with
  | .ok e w1 =>
    if e.extractLsb' 24 8 ≠ (0 : BitVec 8) then .refused .ivtTopByte
    else .entered { w1 with cur := { w1.cur with pc := e.extractLsb' 0 24 } }
  | .raised _ w1 => .halted w1.base.halt
  | .refused r => .refused r

/-- `psr.p <- q`. -/
def State.setPriority (s : State) (q : BitVec 3) : State := { s with psr := psrWithP s.psr q }

/-- `psr.s <- 1`. -/
def State.raiseMode (s : State) : State := { s with psr := psrWithS s.psr true }

/-- The two pushes of `TrapEnter`, after s is raised. -/
def pushFrame (saved : Pc) (w : Work) : Access Unit :=
  (push32 (frameWords w.cur.platform.frame.order w.cur.psr (saved.zeroExtend 32)).1
    { w with cur := w.cur.raiseMode }).andThen
    fun _ w1 => push32 (frameWords w.cur.platform.frame.order w.cur.psr (saved.zeroExtend 32)).2 w1

/-- `TrapEnter(v, q, saved_pc)` inside an instruction. An exception raised by a push halts the machine, with nothing of the
frame written (60_exceptions.md R172, R183), and of the instruction what an exception leaves. -/
def trapEnterIn (v : Byte) (q : BitVec 3) (saved : Pc) (w : Work) : TrapWork :=
  match pushFrame saved w with
  | .ok _ w1 => loadHandler v { w1 with cur := w1.cur.setPriority q }
  | .raised _ w1 => .halted w1.base.halt
  | .refused r => .refused r

/-- `TrapEnter(v, q, saved_pc)` from a state. -/
def trapEnter (v : Byte) (q : BitVec 3) (saved : Pc) (s : State) : TrapResult :=
  match trapEnterIn v q saved (Work.start s) with
  | .entered w => .entered w.cur
  | .halted t => .halted t
  | .refused r => .refused r

/-- The vectors of the hardware exceptions (60_exceptions.md R160). -/
def excVector : Exc → Byte
  | .illegalInstruction => 0x04
  | .divisionByZero => 0x05
  | .privilegeViolation => 0x06
  | .pageFault => 0x07
  | .accessViolation => 0x08

/-- The pc that `raise E` inside an instruction saves: the instruction for a fault, the one after it for a trap
(60_exceptions.md R170). -/
def savedPc (k : ExcKind) (s : State) : Option Pc :=
  match k with
  | .fault => some s.pc
  | .trap => s.nextPc

/-- What `DoubleFaultCheck` says (60_exceptions.md R183). -/
inductive DoubleFault where
  | goOn | halts | unset
deriving DecidableEq, Repr

def doubleFaultCheck (k : ExcKind) (s : State) : DoubleFault :=
  match k with
  | .trap => .goOn
  | .fault =>
    if s.faultDepth = 0 then .goOn
    else
      match s.platform.faultScope with
      | some .entryOnly => .goOn
      | some .untilReturn => .halts
      | none => .unset

/-- `fault_depth + 1` when a fault-kind entry has completed (60_exceptions.md R170). -/
def State.countFault (k : ExcKind) (s : State) : State :=
  match k with
  | .fault => { s with faultDepth := s.faultDepth + 1 }
  | .trap => s

/-- An exception taken from `s`, with the pc to save for each kind (60_exceptions.md R170). -/
def enterException (saved : ExcKind → Option Pc) (e : Exc) (s : State) : Result :=
  match excKindOf s.platform (excVector e) with
  | none => .refused .excKindUnset
  | some k =>
    match saved k with
    | none => .refused .pcOutOfRange
    | some pc =>
      match doubleFaultCheck k s with
      | .halts => .next s.halt
      | .unset => .refused .faultScopeUnset
      | .goOn =>
        match excPriorityOf s.platform (excVector e) (psrP s.psr) with
        | none => .refused .excPriorityUnset
        | some q =>
          match trapEnter (excVector e) q pc s with
          | .entered t => .next (t.countFault k)
          | .halted t => .next t
          | .refused r => .refused r

/-- `raise E` by an instruction that started in (and goes back to) `s` (60_exceptions.md R170). -/
def takeException (e : Exc) (s : State) : Result := enterException (fun k => savedPc k s) e s

/-- An exception of the instruction fetch at the pc of `s`: of either kind it saves "the address that could not be fetched"
(60_exceptions.md R178; R170's pseudocode is of an instruction that has been fetched, notes/assumptions 25). -/
def takeFetchException (e : Exc) (s : State) : Result := enterException (fun _ => some s.pc) e s

/-- `TrapEnter` of an interrupt or a requested trap: no fault to count. -/
def enterTrap (v : Byte) (q : BitVec 3) (saved : Pc) (s : State) : Result :=
  match trapEnter v q saved s with
  | .entered t => .next t
  | .halted t => .next t
  | .refused r => .refused r

/-- A trap an instruction requests: `TrapEnter(v, prio, pc + 4)`, of trap kind (47_t.md R153). -/
def requestTrap (v : Byte) (q : BitVec 3) (s : State) : Result :=
  match s.nextPc with
  | none => .refused .pcOutOfRange
  | some saved => enterTrap v q saved s

/-- Go on with a primitive's value to the instruction's end: `raise` takes the exception from `base`. -/
def Access.finish {α : Type} (x : Access α) (f : α → Work → Result) : Result :=
  match x with
  | .ok v w => f v w
  | .raised e w => takeException e w.base
  | .refused r => .refused r

/-! ## Writing the psr, returning from a trap -/

/-- The psr write of 47_t.md R152, the privilege check aside: refused if a reserved bit would be set (10_state.md R23). -/
def writePsr (v : Word) (s : State) : Except Refusal State :=
  if psrRes v ≠ 0 then .error .psrReserved else .ok { s with psr := v }

/-- One pop: the word, and the pointer after it. -/
def pop32 (sp : Word) (w : Work) : Access (Word × Word) :=
  (memRead .word (popAddr w.cur.platform.frame sp) w).andThen fun v w1 =>
    .ok (v, spAfterPop w.cur.platform.frame sp) w1

/-- The end of `TrapReturn`: saved pc c, saved psr r, pointer sp after both pops. -/
def restore (c r sp : Word) (w : Work) : Access Unit :=
  if c.extractLsb' 24 8 ≠ (0 : BitVec 8) then .refused .savedPcTopByte
  else if psrRes r ≠ 0 then .refused .psrReserved
  else
    .ok () { w with
      cur := { w.cur.writeReg spIx sp with
        psr := r
        pc := c.extractLsb' 0 24
        faultDepth := w.cur.faultDepth - 1 } }

/-- `TrapReturn()` inside an instruction (60_exceptions.md R180), the privilege check included. The words come back in the
reverse order of the pushes. -/
def trapReturnIn (w : Work) : Access Unit :=
  if w.cur.supervisor = false then .raised .privilegeViolation w
  else
    (pop32 (w.cur.readReg spIx) w).andThen fun a w1 =>
      (pop32 a.2 w1).andThen fun b w2 =>
        match w2.cur.platform.frame.order with
        | .psrFirst => restore a.1 b.1 b.2 w2
        | .pcFirst => restore b.1 a.1 b.2 w2

/-- `TrapReturn()` as an instruction's whole effect. -/
def trapReturn (w : Work) : Result := (trapReturnIn w).finish fun _ w1 => .next w1.cur

/-! ## Devices and interrupts -/

/-- The order of `pending`. -/
def Request.key (r : Request) : Nat := r.vector.toNat * 8 + r.prio.toNat

/-- A request added to the set (10_state.md R28). -/
def addRequest (r : Request) : List Request → List Request
  | [] => [r]
  | h :: rest =>
    if r.key < h.key then r :: h :: rest
    else if r.key = h.key then h :: rest
    else h :: addRequest r rest

/-- A request taken out of the set. -/
def dropRequest (r : Request) (rs : List Request) : List Request := rs.filter (fun h => h != r)

/-- The set's canonical form: keys strictly rising. -/
def pendingWf : List Request → Bool
  | [] => true
  | [_] => true
  | a :: b :: rest => decide (a.key < b.key) && pendingWf (b :: rest)

def spaceSize : Space → Nat
  | .main => mainSize
  | .data => dataSize

/-- One action of a device (20_memory.md R50). -/
def State.deviceAct (s : State) (a : DeviceAction) : Except Refusal State :=
  match a with
  | .request v => .ok { s with pending := addRequest ⟨v, irqPriorityOf s.platform v⟩ s.pending }
  | .withdraw r => .ok { s with pending := dropRequest r s.pending }
  | .bufferWrite sp addr b =>
    if inBuffers s.platform sp addr = true ∧ addr < spaceSize sp then
      match sp with
      | .main => .ok { s with main := s.main.write addr b }
      | .data => .ok { s with data := s.data.write addr b }
    else .error .deviceOutsideBuffers

def State.deviceActs : State → List DeviceAction → Except Refusal State
  | s, [] => .ok s
  | s, a :: as =>
    match s.deviceAct a with
    | .ok t => t.deviceActs as
    | .error r => .error r

/-- What the devices do in the gap before the next instruction. -/
def State.deviceTurn (s : State) : Except Refusal State :=
  match s.schedule with
  | [] => .ok s
  | as :: rest => { s with schedule := rest }.deviceActs as

/-- The requests that qualify: priority strictly higher than psr.p, while psr.irq = 1 (60_exceptions.md R165). -/
def State.candidates (s : State) : List Request :=
  if psrIrq s.psr then s.pending.filter (fun r => decide ((psrP s.psr).toNat < r.prio.toNat)) else []

/-- The greatest priority in a list. -/
def maxPrio : List Request → Nat
  | [] => 0
  | r :: rest => max r.prio.toNat (maxPrio rest)

/-- The candidates of the greatest priority. -/
def State.topCandidates (s : State) : List Request :=
  s.candidates.filter (fun r => r.prio.toNat == maxPrio s.candidates)

/-- The request to acknowledge, if any, with the free draws made: among equals any one (60_exceptions.md R167). -/
def State.chooseRequest (s : State) : Option (Request × Nat) :=
  match s.topCandidates with
  | [] => none
  | [r] => some (r, s.freeCount)
  | r :: r' :: rest =>
    some ((r :: r' :: rest).getD (Config.pickRequest s.freeCount % (rest.length + 2)) r, s.freeCount + 1)

/-- Acknowledge a request (60_exceptions.md R165): the saved pc is the instruction not yet executed. -/
def acknowledge (r : Request) (s : State) : Result :=
  enterTrap r.vector r.prio s.pc { s with pending := dropRequest r s.pending }

/-! ## What every meaning shares -/

/-- Look at the slot's entry, check its zero bits, then the privilege, then run it (the order of 60_exceptions.md R182). -/
def withEntry {β : Type} (f : Found (Entry β)) (zeroOk : β → Bool) (needsSup : β → Bool) (s : State)
    (run : β → Result) : Result :=
  match f with
  | .unknown => .refused .noOpmapEntry
  | .illegal => takeException .illegalInstruction s
  | .entry e =>
    if zeroOk e.body = false then .refused .zeroFieldNonzero
    else if s.supervisor = false ∧ (e.supervisorOnly = true ∨ needsSup e.body = true) then
      takeException .privilegeViolation s
    else run e.body

/-- Write an arithmetic result and go on (43_i.md R130, 45_r.md R140). -/
def finishAlu (r : AluResult) (s : State) (f : Word → State) : Result :=
  match r with
  | .value v => advance (f v)
  | .divisionByZero => takeException .divisionByZero s
  | .silent => .refused .entrySilent

/-! ## Running an entry's program (30_encoding.md R99) -/

/-- A program at work: the instruction's work, its register fields, the operand list, and whether it has set the pc. -/
structure Ctx where
  work : Work
  fields : Fields
  env : List Word
  jumped : Bool

/-- A program's first context. -/
def Ctx.start (s : State) (f : Fields) (env : List Word) : Ctx :=
  { work := Work.start s, fields := f, env := env, jumped := false }

/-- A program goes on, or the instruction has ended. -/
inductive Run where
  | go (c : Ctx)
  | stop (o : Result)

def Ctx.push (c : Ctx) (v : Word) : Ctx := { c with env := c.env ++ [v] }

/-- The context with the state so far replaced. -/
def Ctx.withCur (c : Ctx) (s : State) : Ctx := { c with work := { c.work with cur := s } }

/-- What has been done so far stays whatever comes, where the platform lets an M entry keep it (46_m.md R145); else nothing is
done, since an instruction that raises leaves no more than dirty bits (60_exceptions.md R170, notes/assumptions 39). -/
def Ctx.commit (c : Ctx) : Ctx :=
  if c.work.cur.platform.bulkKeeps then { c with work := Work.start c.work.cur } else c

/-- Go on from a primitive that has set the pc. -/
def Ctx.landed (c : Ctx) (w : Work) : Ctx := { c with work := w, jumped := true }

/-- Go on after `TrapEnter` inside a program. -/
def Ctx.afterEntry (c : Ctx) (x : TrapWork) : Run :=
  match x with
  | .entered w => .go (c.landed w)
  | .halted t => .stop (.next t)
  | .refused r => .stop (.refused r)

/-- Go on with a primitive's value inside a program. -/
def Access.inProg {α : Type} (x : Access α) (f : α → Work → Ctx) : Run :=
  match x with
  | .ok v w => .go (f v w)
  | .raised e w => .stop (takeException e w.base)
  | .refused r => .stop (.refused r)

/-- One primitive. The program goes on after `TrapEnter` and `TrapReturn` as after any other. The spec does not say what the
pc is in a program that has set it, by `pc <- t`, `TrapEnter` or `TrapReturn`; here a read gives the new value, and
`requestTrap` still saves the address after the instruction's own (the model's choice, notes/assumptions 45). An entry's
expressions over a pc it has read are of words; only what becomes the pc or a saved pc is held to its range (the model's
choice, notes/assumptions 46). What `fetchWord` raises is the instruction's exception (60_exceptions.md R170), not one of the
instruction fetch (R178; the model's choice, notes/assumptions 25). -/
def runOp (o : MicroOp) (c : Ctx) : Run :=
  match o with
  | .compute e => .go (c.push (evalExpr c.env e))
  | .fieldNumber f => .go (c.push ((c.fields.get f).zeroExtend 32))
  | .readReg r => .go (c.push (c.work.cur.readReg (c.fields.sel r)))
  | .writeReg r e => .go (c.withCur (c.work.cur.writeReg (c.fields.sel r) (evalExpr c.env e)))
  | .readPc => .go (c.push (c.work.cur.pc.zeroExtend 32))
  | .readPsr => .go (c.push c.work.cur.psr)
  | .writePsr e =>
    match writePsr (evalExpr c.env e) c.work.cur with
    | .ok s => .go (c.withCur s)
    | .error r => .stop (.refused r)
  | .jump e =>
    match targetPc (evalExpr c.env e).toNat with
    | some p => .go (c.landed { c.work with cur := { c.work.cur with pc := p } })
    | none => .stop (.refused .pcOutOfRange)
  | .load sp w x addr =>
    (loadFrom sp w (evalExpr c.env addr) c.work).inProg fun v w1 => { c with work := w1 }.push (extend x w v)
  | .store sp w addr val =>
    (storeTo sp w (evalExpr c.env addr) (evalExpr c.env val) c.work).inProg fun _ w1 => { c with work := w1 }
  | .physLoad w x addr =>
    (inMain (evalExpr c.env addr) fun pa => physRead c.work.cur.platform.endian w pa.toNat c.work).inProg fun v w1 =>
      { c with work := w1 }.push (extend x w v)
  | .physStore w addr val =>
    (inMain (evalExpr c.env addr) fun pa => physWrite w pa.toNat (evalExpr c.env val) c.work).inProg fun _ w1 =>
      { c with work := w1 }
  | .fetchWord addr =>
    (inMain (evalExpr c.env addr) fun a => fetchAt a c.work).inProg fun v w1 => { c with work := w1 }.push v
  | .require e => if exprHolds c.env e then .go c else .stop (.refused .entrySilent)
  | .checkDivisor e =>
    if exprHolds c.env e then .go c else .stop (takeException .divisionByZero c.work.base)
  | .raise e => .stop (takeException e c.work.base)
  | .requestTrap v q =>
    match c.work.base.nextPc with
    | some p =>
      c.afterEntry
        (trapEnterIn ((evalExpr c.env v).extractLsb' 0 8) (trapPrioValue q c.env (psrP c.work.cur.psr)) p c.work)
    | none => .stop (.refused .pcOutOfRange)
  | .trapEnter v q saved =>
    match targetPc (evalExpr c.env saved).toNat with
    | some p =>
      c.afterEntry
        (trapEnterIn ((evalExpr c.env v).extractLsb' 0 8) (trapPrioValue q c.env (psrP c.work.cur.psr)) p c.work)
    | none => .stop (.refused .pcOutOfRange)
  | .trapReturn => (trapReturnIn c.work).inProg fun _ w1 => c.landed w1
  | .commit => .go c.commit
  | .halt => .stop (.next (c.work.cur.haltWith .byEntry))

/-- f 0, f 1, to f (n - 1), until one ends the instruction. -/
def iterate (f : Nat → Ctx → Run) : Nat → Ctx → Run
  | 0, c => .go c
  | n + 1, c =>
    match iterate f n c with
    | .go c1 => f n c1
    | .stop o => .stop o

/-- Privilege Violation if a supervisor-only primitive is reached in user mode, which is so only after the program itself has
left supervisor mode (20_memory.md R51, 60_exceptions.md R177; `withEntry` has looked at the whole program before); then
Division by Zero if one of the expressions divides by 0 (43_i.md R131); else go on. -/
def Ctx.checked (c : Ctx) (needsSup : Bool) (es : List Expr) (r : Run) : Run :=
  if needsSup = true ∧ c.work.cur.supervisor = false then .stop (takeException .privilegeViolation c.work.base)
  else if es.any (dividesByZero c.env) then .stop (takeException .divisionByZero c.work.base)
  else r

/-- The whole program. -/
def runProg : Prog → Ctx → Run
  | .done, c => .go c
  | .op o rest, c =>
    c.checked o.needsSupervisor o.exprs <|
    match runOp o c with
    | .go c1 => runProg rest c1
    | .stop r => .stop r
  | .loop n body rest, c =>
    c.checked false [n] <|
    match iterate (fun k c1 => runProg body { c1 with env := c.env ++ [BitVec.ofNat 32 k] })
        (evalExpr c.env n).toNat c with
    | .go c1 => runProg rest { c1 with env := c.env }
    | .stop r => .stop r
  | .branch e yes no rest, c =>
    c.checked false [e] <|
    match (if exprHolds c.env e then runProg yes c else runProg no c) with
    | .go c1 => runProg rest { c1 with env := c.env }
    | .stop r => .stop r

/-- A program's end is the instruction's: pc + 4 unless the program has set the pc (10_state.md R15). -/
def endProg (r : Run) : Result :=
  match r with
  | .stop o => o
  | .go c => if c.jumped then .next c.work.cur else advance c.work.cur

/-- An entry that is a program, from a state, on these fields and operands. -/
def execProg (p : Prog) (f : Fields) (env : List Word) (s : State) : Result :=
  endProg (runProg p (Ctx.start s f env))

/-! ## Reset (70_reset_and_hazards.md R200) -/

/-- `RESET`: the priority, the loaded memories; and what the model needs beside it. -/
structure ResetParams where
  p : BitVec 3
  main : Memory
  data : Memory
  platform : Platform
  schedule : List (List DeviceAction)
deriving DecidableEq, Repr

/-- The registers right after reset, the pc not yet loaded. -/
def resetBase (r : ResetParams) : State :=
  { State.reset with
    psr := psrOf true false false r.p 62 255 0
    main := r.main
    data := r.data
    platform := r.platform
    schedule := r.schedule }

/-- The reset sequence: no frame is pushed, the pc is IVT entry 0 at data 0xf800. -/
def resetSequence (r : ResetParams) : Except Refusal State :=
  match dataRead .word (BitVec.ofNat 32 0xF800) (Work.start (resetBase r)) with
  | .ok e w =>
    if e.extractLsb' 24 8 ≠ (0 : BitVec 8) then .error .ivtTopByte else .ok { w.cur with pc := e.extractLsb' 0 24 }
  | .raised _ _ => .error .ivtTopByte
  | .refused e => .error e

end Sys2Proof.Machine
end

