-- ==== Sys2Proof/Machine/Bodies.lean ====
section
/-! DEFINITION. What the entries of T, U, J and group 0b100 do, once the slot's entry is known and may run: the bodies that can
do more than compute, branch and store. `Chip.lean` says in their terms what some instruction of the chip does. -/

namespace Sys2Proof.Machine

/-! ## T (47_t.md R150 to R154) -/

/-- A psr write and the trap return are supervisor-only whatever the entry is marked (47_t.md R154). -/
def sysNeedsSupervisor : SysBody → Bool
  | .writePsr => true
  | .readPsr => false
  | .trapReturn => true
  | .requestTrap _ _ => false
  | .prog p => p.needsSupervisor

/-- `psr <- x[r1]`: the new value holds from the next fetch on (47_t.md R152). -/
def sysWritePsr (r1 : RegIx) (s : State) : Result :=
  match writePsr (s.readReg r1) s with
  | .ok t => advance t
  | .error r => .refused r

def execSysBody (b : SysBody) (r1 : RegIx) (vector : Byte) (s : State) : Result :=
  match b with
  | .writePsr => sysWritePsr r1 s
  | .readPsr => advance (s.writeReg r1 s.psr)
  | .trapReturn => trapReturn (Work.start s)
  | .requestTrap v q =>
    requestTrap (trapVectorValue v [vector.zeroExtend 32, s.readReg r1] vector)
      (trapPrioValue q [vector.zeroExtend 32, s.readReg r1] (psrP s.psr)) s
  | .prog p => execProg p ⟨r1, 0, 0, 0⟩ [vector.zeroExtend 32] s

/-! ## U and J (40_u.md R110, 41_j.md R115, R116) -/

def ujNeedsSupervisor : UJBody → Bool
  | .u p => p.needsSupervisor
  | .j _ => false

/-- `LINK(rd)` (41_j.md R116): while the link is unknown a word with rd not x0 is refused. A link of pc + 4 is a word, so at
the last instruction it is 0x01000000 and nothing is refused (the model's choice, notes/assumptions 46). -/
def runLink (link : Option Prog) (rd : RegIx) (imm20 : BitVec 20) (s : State) : Run :=
  let c := Ctx.start s ⟨rd, 0, 0, 0⟩ [s.pc.zeroExtend 32, scaledImm20 imm20]
  match link with
  | some p => runProg p c
  | none => if rd = 0 then .go c else .stop (.refused .linkUnknown)

/-- J: `pc <- pc + REL_BASE + offset` (41_j.md R115). -/
def execJump (link : Option Prog) (rd : RegIx) (imm20 : BitVec 20) (s : State) : Result :=
  match s.platform.relBase with
  | none => .refused .relBaseUnset
  | some b =>
    match runLink link rd imm20 s with
    | .stop o => o
    | .go c => jumpTo (relTarget s b (jumpOffset imm20)) c.work.cur

def execUJBody (b : UJBody) (r1 : RegIx) (imm20 : BitVec 20) (s : State) : Result :=
  match b with
  | .u p => execProg p ⟨r1, 0, 0, 0⟩ [imm20.zeroExtend 32] s
  | .j link => execJump link r1 imm20 s

/-! ## Group 0b100 (43_i.md R126 to R128) -/

/-- A load from data memory is supervisor-only (43_i.md R128). -/
def loadNeedsSupervisor : LoadBody → Bool
  | .load sp _ _ => sp == .data
  | .alignedOffset p => p.needsSupervisor

/-- The address of a load or store: base register plus `sext_32(imm15)`, modulo 2^32 (43_i.md R127, 44_s.md R135). -/
def offsetAddr (base : RegIx) (imm15 : BitVec 15) (s : State) : Word := s.readReg base + byteImm imm15

/-- A load of either space (43_i.md R127, R128). -/
def execLoadFrom (sp : Space) (w : Width) (x : Ext) (rd rs1 : RegIx) (imm15 : BitVec 15) (s : State) : Result :=
  (loadFrom sp w (offsetAddr rs1 imm15 s) (Work.start s)).finish fun v w1 =>
    advance (w1.cur.writeReg rd (extend x w v))

def execLoadBody (b : LoadBody) (r1 r2 : RegIx) (imm15 : BitVec 15) (s : State) : Result :=
  match b with
  | .load sp w x =>
    execLoadFrom sp w x (pairRoles s.platform.roles.i r1 r2).1 (pairRoles s.platform.roles.i r1 r2).2 imm15 s
  | .alignedOffset p =>
    execProg p ⟨(pairRoles s.platform.roles.i r1 r2).1, (pairRoles s.platform.roles.i r1 r2).2, 0, 0⟩ [scaledImm15 imm15] s

end Sys2Proof.Machine
end

