-- ==== Sys2Proof/Machine/Capable.lean ====
section
/-! DEFINITION. What the source requires some instruction of the chip to do (47_t.md R151), as effects: what running an entry's
body makes of every state, whatever its text. The entries that can do it are T, U and the aligned-offset instruction. How much
of the state the effects hold fixed is the model's reading (notes/assumptions 16). -/

namespace Sys2Proof

open Sys2Proof.Machine

/-- Some entry of the map has a word of which `C` holds, a word being what its body does to states. The all-zero word does not
count: the spec does not say whether it is an instruction, and on the chip's map it is refused (47_t.md R150), so a capability
that no other word had would be one no program has. That the chip has another word is the model's choice (notes/assumptions 16). -/
def OpMap.Does (m : OpMap) (C : (State → Result) → Prop) : Prop :=
  (∃ r ∈ m.sys, ∃ r1 vector, ¬(r.1 = 0 ∧ r1 = 0 ∧ vector = 0) ∧ C (execSysBody r.2.body r1 vector)) ∨
  (∃ r ∈ m.uj, ∃ r1 imm20, C (execUJBody r.2.body r1 imm20)) ∨
  (∃ r ∈ m.load, ∃ r1 r2 imm15, C (execLoadBody r.2.body r1 r2 imm15))

/-- "write the psr, or its fields": for every psr `p` of a supervisor and every `q` that differs from it in the bits of `mask`
only there is a word that makes `q` of `p` whatever the rest of the state is, its argument `x` in a register `i`. The next
instruction runs after it, and no more than registers and the pc have changed beside the psr. -/
def OpMap.WritesPsr (m : OpMap) (mask : Word) : Prop :=
  ∀ p q : Word, psrS p = true → psrRes q = 0 → q &&& ~~~mask = p &&& ~~~mask →
    m.Does fun run => ∃ i x, ∀ s : State, s.psr = p → s.nextPc ≠ none → ∃ t, run (s.writeReg i x) = .next t
      ∧ t = { s with regs := t.regs, ssp := t.ssp, usp := t.usp, pc := t.pc, psr := q }

/-- "return from an interrupt or exception", so that the state is "as it was": one word does what `TrapReturn()` does and
nothing else, wherever that completes (47_t.md R153, 60_exceptions.md R180). -/
def OpMap.Returns (m : OpMap) : Prop :=
  m.Does fun run => ∀ (s : State) (w : Work), trapReturnIn (Work.start s) = .ok () w → run s = .next w.cur

/-- "request a trap from a program": one word does `TrapEnter(v, prio, pc + 4)` and nothing else, with trap kind, in every
state of a supervisor that has an instruction after this one, its argument `x` in a register `i`; the vector and the priority
are open (47_t.md R153, 60_exceptions.md R171). -/
def OpMap.RequestsTrap (m : OpMap) : Prop :=
  m.Does fun run => ∃ i x, ∀ (s : State) (next : Pc), s.supervisor = true → s.nextPc = some next →
    ∃ v q, run (s.writeReg i x) = enterTrap v q next (s.writeReg i x)

/-- The capabilities of 47_t.md R151: each field of the psr can be written (s to 0, which is how user mode is entered, since a
supervisor writes it), an instruction returns, and one requests a trap. Nothing demands a psr read. -/
structure OpMap.Capable (m : OpMap) : Prop where
  s : m.WritesPsr 0x80000000
  irq : m.WritesPsr 0x40000000
  mmu : m.WritesPsr 0x20000000
  p : m.WritesPsr 0x1C000000
  ivt : m.WritesPsr 0x03F00000
  pdt : m.WritesPsr 0x000FF000
  returns : m.Returns
  requests : m.RequestsTrap

end Sys2Proof
end

