-- ==== Sys2Proof/Laws/Capable.lean ====
section
/-! SUPPORT. Some map has the capabilities of 47_t.md R151, so asking them of the chip's map is no contradiction. -/

namespace Sys2Proof.Machine

theorem someSeventy_writesPsr (mask : Word) : OpMap.someSeventy.WritesPsr mask := by
  intro p q _ hq _
  refine .inl ⟨(0, ⟨"", false, .writePsr⟩), by simp [OpMap.someSeventy], 1, 0, by decide, 1, q, fun s _ hn => ?_⟩
  obtain ⟨next, hn⟩ := Option.ne_none_iff_exists'.1 hn
  have hr : (s.writeReg 1 q).readReg 1 = q := Vector.getElem_set_self (i := 0) (by decide)
  have hw : writePsr q (s.writeReg 1 q) = .ok { s.writeReg 1 q with psr := q } := if_neg (not_not.2 hq)
  refine ⟨{ s.writeReg 1 q with psr := q, pc := next }, ?_, rfl⟩
  show sysWritePsr 1 _ = _
  unfold sysWritePsr
  rw [hr, hw]
  dsimp only
  unfold advance
  rw [show State.nextPc { s.writeReg 1 q with psr := q } = some next from hn]

theorem someSeventy_returns : OpMap.someSeventy.Returns := by
  refine .inl ⟨(1, ⟨"", false, .trapReturn⟩), by simp [OpMap.someSeventy], 0, 0, by decide, fun s w h => ?_⟩
  show trapReturn (Work.start s) = _
  unfold trapReturn
  rw [h]
  rfl

theorem someSeventy_requests : OpMap.someSeventy.RequestsTrap := by
  refine .inl ⟨(2, ⟨"", false, .requestTrap .field .keep⟩), by simp [OpMap.someSeventy], 0, 0, by decide, 0, 0, fun s next _ hn => ?_⟩
  refine ⟨0, psrP s.psr, ?_⟩
  show requestTrap 0 (psrP s.psr) s = _
  unfold requestTrap
  rw [hn]
  rfl

theorem someSeventy_capable : OpMap.someSeventy.Capable where
  s := someSeventy_writesPsr _
  irq := someSeventy_writesPsr _
  mmu := someSeventy_writesPsr _
  p := someSeventy_writesPsr _
  ivt := someSeventy_writesPsr _
  pdt := someSeventy_writesPsr _
  returns := someSeventy_returns
  requests := someSeventy_requests

end Sys2Proof.Machine
end

