-- ==== Sys2Proof/Machine/Chip.lean ====
section
/-! DEFINITION. The chip's own map, of which the source keeps counts, kinds and capabilities, and which entry a slot has. -/

namespace Sys2Proof

open Sys2Proof.Machine

/-! ## The chip's own map -/

/-- A map of 70 entries with one J, whose link is there (notes/assumptions 36), at least two U, one aligned-offset instruction,
the kinds of instructions that the source names and every contract kept (30_encoding.md R87, R88, R99; 40_u.md R111; 41_j.md
R115, R116; 43_i.md R126 to R128; 44_s.md R135, R136), and with the effects that some instruction has (47_t.md R151). -/
structure ChipMap where
  map : OpMap := .someSeventy
  chips : map.isChips = true := by decide
  capable : map.Capable := by exact someSeventy_capable
deriving Inhabited

/-- The chip's `OPMAP`: of it no more is known than that it is one (notes/assumptions 16). -/
opaque Config.chipMap : ChipMap

end Sys2Proof

namespace Sys2Proof.Machine

/-! ## The entry of a slot -/

/-- The all-zero word without a listed entry: "a T instruction or an unassigned opcode, and the source does not say which",
so on the chip's own map too it is refused (47_t.md R150, 93_implementation_defined.md U32). On a listed map that is declared
complete and has no entry at T opcode 0 the spec's words differ: U32 and R150 refuse, 30_encoding.md R95, 60_exceptions.md
R175, U14 and D20 say Illegal Instruction. There the model raises Illegal Instruction: who declares the map complete says
that the word is an unassigned opcode (the model's choice, notes/assumptions 16). -/
def zeroWordOpen (m : OpMap) (op : Opcode) (r1 : RegIx) (vector : Byte) : Bool :=
  decide (op = 0) && decide (r1 = 0) && decide (vector = 0) && m.rest == .hardware && (m.sys.lookup op).isNone

def findSys (m : OpMap) (op : Opcode) (r1 : RegIx) (vector : Byte) : Found (Entry SysBody) :=
  if zeroWordOpen m op r1 vector then .unknown
  else lookupSlot m.sys m.rest Config.chipMap.map.sys sysContract op
def findBulk (m : OpMap) (op : Opcode) : Found (Entry BulkBody) :=
  lookupSlot m.bulk m.rest Config.chipMap.map.bulk bulkContract op
def findUJ (m : OpMap) (op : Opcode) : Found (Entry UJBody) :=
  lookupSlot m.uj m.rest Config.chipMap.map.uj ujContract op
def findBranch (m : OpMap) (op : Opcode) : Found (Entry Expr) :=
  lookupSlot m.branch m.rest Config.chipMap.map.branch branchContract op
def findLoad (m : OpMap) (op : Opcode) : Found (Entry LoadBody) :=
  lookupSlot m.load m.rest Config.chipMap.map.load loadContract op
def findArithImm (m : OpMap) (op : Opcode) : Found (Entry AluOp) :=
  lookupSlot m.arithImm m.rest Config.chipMap.map.arithImm (fun _ => true) op
def findArithReg (m : OpMap) (op : Opcode) : Found (Entry RegBody) :=
  lookupSlot m.arithReg m.rest Config.chipMap.map.arithReg regContract op
def findStore (m : OpMap) (op : Opcode) : Found (Entry StoreBody) :=
  lookupSlot m.store m.rest Config.chipMap.map.store (fun _ => true) op

end Sys2Proof.Machine
end

