-- ==== Sys2Proof/Machine/FamilyB.lean ====
section
/-! DEFINITION. B, group 0b011: conditional branches (42_b.md R120 to R122). -/

namespace Sys2Proof.Machine

/-- A branch whose condition holds (42_b.md R120). -/
def takeBranch (imm15 : BitVec 15) (s : State) : Result :=
  match s.platform.relBase with
  | none => .refused .relBaseUnset
  | some b => jumpTo (relTarget s b (branchOffset imm15)) s

/-- A branch on the two registers of the roles (42_b.md R120, R121). -/
def execBranchOn (cond : Expr) (rs1 rs2 : RegIx) (imm15 : BitVec 15) (s : State) : Result :=
  if exprHolds [s.readReg rs1, s.readReg rs2] cond then takeBranch imm15 s else advance s

/-- A B instruction. -/
def execBranch (op : Opcode) (r1 r2 : RegIx) (imm15 : BitVec 15) (s : State) : Result :=
  withEntry (findBranch s.platform.opmap op) (fun _ => true) (fun _ => false) s fun cond =>
    execBranchOn cond (pairRoles s.platform.roles.b r1 r2).1 (pairRoles s.platform.roles.b r1 r2).2 imm15 s

end Sys2Proof.Machine
end

