-- ==== Sys2Proof/Machine/FamilyI.lean ====
section
/-! DEFINITION. I, groups 0b100 and 0b101: loads, the aligned-offset instruction, arithmetic with an immediate (43_i.md R125 to
R131). -/

namespace Sys2Proof.Machine

/-- A word of group 0b100. The aligned-offset entry's program has `sext_32(imm15) << 2` as operand 0, rd as its field r1
and rs1 as its field r2 (43_i.md R125, R126). -/
def execLoad (op : Opcode) (r1 r2 : RegIx) (imm15 : BitVec 15) (s : State) : Result :=
  withEntry (findLoad s.platform.opmap op) (fun _ => true) loadNeedsSupervisor s fun b => execLoadBody b r1 r2 imm15 s

/-- `x[rd] <- op_k(x[rs1], sext_32(imm15))` (43_i.md R130). -/
def execImmOp (f : AluOp) (rd rs1 : RegIx) (imm15 : BitVec 15) (s : State) : Result :=
  finishAlu (runAlu f [s.readReg rs1, byteImm imm15]) s fun v => s.writeReg rd v

/-- A word of group 0b101. -/
def execArithImm (op : Opcode) (r1 r2 : RegIx) (imm15 : BitVec 15) (s : State) : Result :=
  withEntry (findArithImm s.platform.opmap op) (fun _ => true) (fun _ => false) s fun f =>
    execImmOp f (pairRoles s.platform.roles.i r1 r2).1 (pairRoles s.platform.roles.i r1 r2).2 imm15 s

end Sys2Proof.Machine
end

