-- ==== Sys2Proof/Machine/FamilyM.lean ====
section
/-! DEFINITION. M, group 0b001: bulk data, stacks, buffers (46_m.md R145). -/

namespace Sys2Proof.Machine

/-- Under ENCODING III the ten low bits are zero (30_encoding.md R84, R94). -/
def bulkZeroOk (low : BitVec 15) (b : BulkBody) : Bool := b.enc == .two || lowZeroBits low

/-- The register fields of an M word. -/
def bulkFields (e : BulkEncoding) (r1 r2 : RegIx) (low : BitVec 15) : Fields :=
  match e with
  | .two => ⟨r1, r2, 0, 0⟩
  | .three => ⟨r1, r2, low.extractLsb' 10 5, 0⟩

/-- The operands of an M entry's program: the raw imm15 under ENCODING II, none under III. -/
def bulkOperands (e : BulkEncoding) (low : BitVec 15) : List Word :=
  match e with
  | .two => [low.zeroExtend 32]
  | .three => []

/-- An M instruction (46_m.md R145). -/
def execBulk (op : Opcode) (r1 r2 : RegIx) (low : BitVec 15) (s : State) : Result :=
  withEntry (findBulk s.platform.opmap op) (bulkZeroOk low) (fun b => b.prog.needsSupervisor) s fun b =>
    execProg b.prog (bulkFields b.enc r1 r2 low) (bulkOperands b.enc low) s

end Sys2Proof.Machine
end

