-- ==== Sys2Proof/Machine/FamilyR.lean ====
section
/-! DEFINITION. R, group 0b110: arithmetic over registers, ENCODING III and IV (45_r.md R140 to R143). -/

namespace Sys2Proof.Machine

/-- Under ENCODING III bits 9:5 are zero too (45_r.md R140). -/
def regZeroOk (r4 : RegIx) : RegBody → Bool
  | .three _ => r4 == 0
  | .fourSource _ => true
  | .fourDest _ _ => true
  | .fourProg _ => true

/-- Two results into two registers; the fourth register is written second (45_r.md R141; equal registers are refused
before). The first destination's result is looked at first: where it is silent the word is refused even if the second
divides by 0, and where it divides by 0 the word raises even if the second is silent. The spec gives no order (the model's
choice, notes/assumptions 37). -/
def finishTwo (r r' : AluResult) (s : State) (rd r4 : RegIx) : Result :=
  match r with
  | .value v => finishAlu r' s fun v' => (s.writeReg rd v).writeReg r4 v'
  | .divisionByZero => takeException .divisionByZero s
  | .silent => .refused .entrySilent

/-- `x[rs1]` and `x[rs2]`, the fields in role order. -/
def regSources (f : Fields) (s : State) : List Word := [s.readReg f.r2, s.readReg f.r3]

/-- The registers a program writes through its fields are distinct (93_implementation_defined.md U15). -/
def distinctDestinations (p : Prog) (f : Fields) : Bool := decide (p.writtenFields.map f.get).Nodup

/-- ENCODING III, the fields in role order (45_r.md R140). -/
def execThree (op : AluOp) (f : Fields) (s : State) : Result :=
  finishAlu (runAlu op (regSources f s)) s fun v => s.writeReg f.r1 v

/-- ENCODING IV with a third source (45_r.md R141). -/
def execFourSource (op : AluOp) (f : Fields) (s : State) : Result :=
  finishAlu (runAlu op (regSources f s ++ [s.readReg f.r4])) s fun v => s.writeReg f.r1 v

/-- ENCODING IV with a second destination (45_r.md R141). -/
def execFourDest (op op' : AluOp) (f : Fields) (s : State) : Result :=
  if f.r1 = f.r4 then .refused .sameDestination
  else finishTwo (runAlu op (regSources f s)) (runAlu op' (regSources f s)) s f.r1 f.r4

/-- ENCODING IV with the fourth register in another role (45_r.md R141). R141 says nothing of the order of source reads and
result writes: `execFourSource` and `execFourDest` read every source first, and a program does what it does in its own order,
so that it may write a field's register before it reads another field that names the same register (the model's choice,
notes/assumptions 37). -/
def execFourProg (p : Prog) (f : Fields) (s : State) : Result :=
  if distinctDestinations p f then execProg p f [] s else .refused .sameDestination

def execRegBody (b : RegBody) (f : Fields) (s : State) : Result :=
  match b with
  | .three op => execThree op (f.inRoles s.platform.roles.three) s
  | .fourSource op => execFourSource op (f.inRoles s.platform.roles.four) s
  | .fourDest op op' => execFourDest op op' (f.inRoles s.platform.roles.four) s
  | .fourProg p => execFourProg p (f.inRoles s.platform.roles.four) s

/-- A word of group 0b110. -/
def execArithReg (op : Opcode) (r1 r2 r3 r4 : RegIx) (s : State) : Result :=
  withEntry (findArithReg s.platform.opmap op) (regZeroOk r4) (fun _ => false) s fun b =>
    execRegBody b ⟨r1, r2, r3, r4⟩ s

end Sys2Proof.Machine
end

