-- ==== Sys2Proof/Machine/FamilyS.lean ====
section
/-! DEFINITION. S, group 0b111: stores (44_s.md R135 to R137). -/

namespace Sys2Proof.Machine

/-- A store to data memory is supervisor-only (44_s.md R136). -/
def storeNeedsSupervisor (b : StoreBody) : Bool := b.space == .data

/-- A store to either space: the low n bytes of the value register at base plus offset (44_s.md R135, R136). -/
def execStoreTo (sp : Space) (w : Width) (value base : RegIx) (imm15 : BitVec 15) (s : State) : Result :=
  (storeTo sp w (offsetAddr base imm15 s) (s.readReg value) (Work.start s)).finish fun _ w1 => advance w1.cur

/-- An S instruction. -/
def execStore (op : Opcode) (r1 r2 : RegIx) (imm15 : BitVec 15) (s : State) : Result :=
  withEntry (findStore s.platform.opmap op) (fun _ => true) storeNeedsSupervisor s fun b =>
    execStoreTo b.space b.width (pairRoles s.platform.roles.s r1 r2).1 (pairRoles s.platform.roles.s r1 r2).2 imm15 s

end Sys2Proof.Machine
end

