-- ==== Sys2Proof/Machine/FamilyT.lean ====
section
/-! DEFINITION. T, group 0b000: system management (47_t.md R150 to R154). -/

namespace Sys2Proof.Machine

/-- A T instruction (47_t.md R150). An entry's program has the vector byte as operand 0. -/
def execSys (op : Opcode) (r1 : RegIx) (vector : Byte) (s : State) : Result :=
  withEntry (findSys s.platform.opmap op r1 vector) (fun _ => true) sysNeedsSupervisor s fun b => execSysBody b r1 vector s

end Sys2Proof.Machine
end

