-- ==== Sys2Proof/Machine/FamilyU.lean ====
section
/-! DEFINITION. Group 0b010: U (40_u.md R110 to R112) and the J instruction (41_j.md R115, R116). -/

namespace Sys2Proof.Machine

/-- A word of group 0b010 (40_u.md R112). A U entry's program has the raw 20 bits as operand 0 (30_encoding.md R92). -/
def execUJ (op : Opcode) (r1 : RegIx) (imm20 : BitVec 20) (s : State) : Result :=
  withEntry (findUJ s.platform.opmap op) (fun _ => true) ujNeedsSupervisor s fun b => execUJBody b r1 imm20 s

end Sys2Proof.Machine
end

