-- ==== Sys2Proof/Machine/Dispatch.lean ====
section
/-! DEFINITION. One arm for each constructor of Instr: the meaning of its group. -/

namespace Sys2Proof.Machine

def exec (i : Instr) (s : State) : Host.Outcome State Fault Refusal :=
  match i with
  | .sys op r1 vector => Sys2Proof.Machine.execSys op r1 vector s
  | .bulk op r1 r2 low => Sys2Proof.Machine.execBulk op r1 r2 low s
  | .uj op r1 imm20 => Sys2Proof.Machine.execUJ op r1 imm20 s
  | .branch op r1 r2 imm15 => Sys2Proof.Machine.execBranch op r1 r2 imm15 s
  | .load op r1 r2 imm15 => Sys2Proof.Machine.execLoad op r1 r2 imm15 s
  | .arithImm op r1 r2 imm15 => Sys2Proof.Machine.execArithImm op r1 r2 imm15 s
  | .arithReg op r1 r2 r3 r4 => Sys2Proof.Machine.execArithReg op r1 r2 r3 r4 s
  | .store op r1 r2 imm15 => Sys2Proof.Machine.execStore op r1 r2 imm15 s

end Sys2Proof.Machine
end

