-- ==== Sys2Proof/Machine/Program.lean ====
section
/-! DEFINITION. Placing one instruction for the host (notes/assumptions 12): its bytes where the next fetch reads, and an entry
for its slot where the platform lists none. -/

namespace Sys2Proof.Machine

/-- The physical address the next fetch reads, if the fetch completes. -/
def fetchAddr (s : State) : Nat :=
  match mainAddr .fetch s.pc (Work.start s) with
  | .ok pa _ => pa
  | .raised _ _ => s.pc.toNat
  | .refused _ => s.pc.toNat

/-- The row to add for a slot that has no listed row. -/
def withRow {α : Type} (rows : List (Opcode × α)) (op : Opcode) (e : α) : List (Opcode × α) :=
  match rows.lookup op with
  | some _ => rows
  | none => (op, e) :: rows

/-- The sample entry of an R word. -/
def sampleReg (r4 : RegIx) : Entry RegBody :=
  if r4 = 0 then ⟨"T0_ADD", false, .three .add⟩ else ⟨"SAMPLE_R_FOUR", false, .fourSource .add⟩

/-- The map with an entry for the instruction's slot. Where T0 has an entry for the family and encoding it is T0's; for T it
is the psr write, the one effect the spec demands of some instruction (47_t.md R151); for M and U, of which the spec gives no
effect, it is the program that only advances the pc; for an R word with a fourth register, which T0 does not instantiate and
whose role is open (45_r.md R141), it is an addition that takes the fourth register as a third source and does not use it
(the model's choice, notes/assumptions 12). No claim about Sirius rests on these. -/
def OpMap.withSample (m : OpMap) (i : Instr) : OpMap :=
  match i with
  | .sys op _ _ => { m with sys := withRow m.sys op ⟨"SAMPLE_WRITE_PSR", true, .writePsr⟩ }
  | .bulk op _ _ _ => { m with bulk := withRow m.bulk op ⟨"SAMPLE_M", false, ⟨.two, .done⟩⟩ }
  | .uj op _ _ => { m with uj := withRow m.uj op ⟨"SAMPLE_U", false, .u .done⟩ }
  | .branch op _ _ _ => { m with branch := withRow m.branch op ⟨"T0_BNE", false, .differ⟩ }
  | .load op _ _ _ => { m with load := withRow m.load op ⟨"T0_LW", false, .load .main .word .zero⟩ }
  | .arithImm op _ _ _ => { m with arithImm := withRow m.arithImm op ⟨"T0_ADDI", false, .add⟩ }
  | .arithReg op _ _ _ r4 =>
    { m with arithReg := withRow m.arithReg op (sampleReg r4) }
  | .store op _ _ _ => { m with store := withRow m.store op ⟨"T0_SW", false, ⟨.main, .word⟩⟩ }

/-- A platform with an entry for the slot of the word, if the word decodes. -/
def Platform.withSampleFor (p : Platform) (w : Word) : Platform :=
  match decodeWord w with
  | .ok i => { p with opmap := OpMap.withSample p.opmap i }
  | .error _ => p

/-- The state with the word where the next fetch reads. -/
def State.placeWord (s : State) (w : Word) : State :=
  { s with
    main := s.main.writeVal .big .word (fetchAddr s) w
    platform := Platform.withSampleFor s.platform w }

end Sys2Proof.Machine
end

