-- ==== Sys2Proof/Machine/Step.lean ====
section
/-! DEFINITION. One step (00_scope.md R5, 60_exceptions.md R182): the devices act, an interrupt is acknowledged or the
instruction at the pc is fetched, decoded and run. -/

namespace Sys2Proof.Machine

/-- Run a fetched word. -/
def runWord (w : Word) (s : State) : Result :=
  match decodeWord w with
  | .ok i => exec i s
  | .error _ => .refused .zeroFieldNonzero

/-- Fetch and run the instruction at the pc. -/
def fetchAndRun (s : State) : Result :=
  match fetch (Work.start s) with
  | .ok w k => runWord w k.cur
  | .raised e k => takeFetchException e k.base
  | .refused r => .refused r

/-- After the devices: the interrupt that qualifies, else the instruction. -/
def interruptOrRun (s : State) : Result :=
  match s.chooseRequest with
  | some (r, n) => acknowledge r { s with freeCount := n }
  | none => fetchAndRun s

/-- One step. A halted machine has none (60_exceptions.md R183). -/
def step (s : State) : Host.Outcome State Fault Refusal :=
  match s.status with
  | .halted r => .fault (.halted r)
  | .running =>
    match s.deviceTurn with
    | .error r => .refused r
    | .ok t => interruptOrRun t

/-- The host's word, placed where the next step fetches and with an entry for its slot (notes/assumptions 12). -/
def State.withFetchWord (s : State) (nbits w : Nat) : State := s.placeWord (BitVec.ofNat 32 (w % 2 ^ nbits))

end Sys2Proof.Machine
end

