-- ==== Sys2Proof/Machine/Map.lean ====
section
/-! DEFINITION. The fixed numbers of the platform: exception and interrupt vectors (60_exceptions.md R160, R161) and the default
map of data memory (20_memory.md R41 to R43). -/

namespace Sys2Proof.Machine

/-- The hardware exception indexes, which "cannot be rearranged" (60_exceptions.md R160). -/
inductive HardwareVector where
  | reset | busError | addressError | illegalInstruction | divisionByZero | privilegeViolation | pageFault
  | accessViolation
deriving DecidableEq, Repr

def hardwareVector : HardwareVector → Byte
  | .reset => 0x00
  | .busError => 0x02
  | .addressError => 0x03
  | .illegalInstruction => 0x04
  | .divisionByZero => 0x05
  | .privilegeViolation => 0x06
  | .pageFault => 0x07
  | .accessViolation => 0x08

/-- The exceptions an instruction can raise, among the hardware's (60_exceptions.md R174, R179). -/
def excHardwareVector : Exc → HardwareVector
  | .illegalInstruction => .illegalInstruction
  | .divisionByZero => .divisionByZero
  | .privilegeViolation => .privilegeViolation
  | .pageFault => .pageFault
  | .accessViolation => .accessViolation

/-- The peripheral interrupts (60_exceptions.md R161). -/
inductive Peripheral where
  | ttyTransmit | kbdCharacter | kbdScancode | tpsLoadFinished | diskLoadFinished | timerTimeout | timerInterval
  | videoRefresh
deriving DecidableEq, Repr

/-- Their default indexes; a request may carry any vector (93_implementation_defined.md U20). -/
def defaultPeripheralVector : Peripheral → Byte
  | .ttyTransmit => 0x0A
  | .kbdCharacter => 0x0B
  | .kbdScancode => 0x0C
  | .tpsLoadFinished => 0x0D
  | .diskLoadFinished => 0x0E
  | .timerTimeout => 0x0F
  | .timerInterval => 0x10
  | .videoRefresh => 0x11

/-- The units of the default map (20_memory.md R41). -/
inductive DeviceUnit where
  | teletype | timer | keyboard | video | tps | disk | system | deviceMap
deriving DecidableEq, Repr

/-- The device number that holds the unit. -/
def deviceNumber : DeviceUnit → Nat
  | .teletype | .timer | .keyboard => 0x0
  | .video => 0x1
  | .tps | .disk => 0x2
  | .system => 0xF
  | .deviceMap => 0x10

/-- The first data address of the unit. -/
def unitAddr : DeviceUnit → Nat
  | .teletype => 0x0000
  | .timer => 0x0006
  | .keyboard => 0x000C
  | .video => 0x0010
  | .tps => 0x0020
  | .disk => 0x0026
  | .system => 0x00F0
  | .deviceMap => 0x0100

/-- The bytes of the unit, where the source gives a size. -/
def unitSize : DeviceUnit → Option Nat
  | .teletype => some 6
  | .timer => some 6
  | .keyboard => some 4
  | .video => some 16
  | .tps => some 6
  | .disk => some 8
  | .system => none
  | .deviceMap => none

/-- Which unit sends a peripheral interrupt (60_exceptions.md R161). -/
def peripheralUnit : Peripheral → DeviceUnit
  | .ttyTransmit => .teletype
  | .kbdCharacter | .kbdScancode => .keyboard
  | .tpsLoadFinished => .tps
  | .diskLoadFinished => .disk
  | .timerTimeout | .timerInterval => .timer
  | .videoRefresh => .video

/-- Device number n has the 16 bytes from n * 16 (20_memory.md R41). -/
def deviceBase (n : Nat) : Nat := n * 16

end Sys2Proof.Machine
end

