-- ==== Sys2Proof/Safety.lean ====
section
/-! DEFINITION. What a good state and a good run are (70_reset_and_hazards.md R207). -/

namespace Sys2Proof.Machine

/-- What every step keeps: both memories in canonical form and inside their spaces, the psr's reserved bits 0
(10_state.md R23), the pending requests a set in rising order. -/
structure State.Inv (s : State) : Prop where
  main : Memory.wf mainSize s.main = true
  data : Memory.wf dataSize s.data = true
  psr : psrRes s.psr = 0
  pending : pendingWf s.pending = true

/-- A main memory access that needs no translation and that nothing refuses (20_memory.md R44, R46, R55, R56). -/
def mainPlain (s : State) (w : Width) (a : Word) : Bool :=
  !psrMmu s.psr && decide (a.toNat < mainSize) && decide (a.toNat % widthBytes w = 0)
    && allInstalled s.platform.mainInstalled a.toNat (widthBytes w)

/-- A data memory access that nothing refuses (20_memory.md R49). -/
def dataPlain (s : State) (w : Width) (a : Word) : Bool :=
  decide (a.toNat < dataSize) && decide (a.toNat % widthBytes w = 0)
    && allInstalled s.platform.dataInstalled a.toNat (widthBytes w)

/-- None of the n bytes at an address is a device register (20_memory.md R50). -/
def noDevice (p : Platform) : Nat → Nat → Bool
  | _, 0 => true
  | a, n + 1 => !isDevice p a && noDevice p (a + 1) n

/-- The walk's two entries, for a walk whose directory entry is storage (20_memory.md R62, R64). -/
def walkPde (s : State) (va : Pc) : Word :=
  s.data.readVal s.platform.endian .half (pdeAddr s va)

def walkPte (s : State) (va : Pc) : Word :=
  s.main.readVal s.platform.endian .half (pteAddr s va (walkPde s va))

/-- Nothing refuses the walk (20_memory.md R44, R62 to R64). -/
def walkPlain (s : State) (va : Pc) : Bool :=
  decide (pdeAddr s va ≤ 0xFFFF) && allInstalled s.platform.dataInstalled (pdeAddr s va) 2
    && noDevice s.platform (pdeAddr s va) 2 && decide ((walkPde s va).extractLsb' 0 4 = 0#4)
    && decide (pteAddr s va (walkPde s va) ≤ 0xFFFFFF)
    && allInstalled s.platform.mainInstalled (pteAddr s va (walkPde s va)) 2

/-- `u` walks the same tables as `s` (20_memory.md R60 to R64). -/
structure State.SameTables (s u : State) : Prop where
  platform : u.platform = s.platform
  mmu : psrMmu u.psr = psrMmu s.psr
  pdt : psrPdt u.psr = psrPdt s.psr
  data : u.data = s.data

/-- `t` is `s` with dirty bits set and device reads made, and nothing else: what an abandoned instruction leaves
(60_exceptions.md R170, notes/assumptions 17). Each dirty bit is of the page table entry that a walk finds, of an address and
from a state that `R` holds of. -/
inductive State.Noted (R : Pc → State → Prop) (s : State) : State → Prop where
  | refl : State.Noted R s s
  | dirty {t : State} (h : State.Noted R s t) (va : Pc) (pde : Word) (w w' : Work) (hw : R va w.cur)
      (hp : readPde va w = .ok pde w') (hd : t.platform.mmuSetsDirty = true) (hin : pteAddr t va pde + 2 ≤ mainSize) :
      State.Noted R s (t.setDirty (pteAddr t va pde))
  | device {t : State} (h : State.Noted R s t) (a : Nat) (hd : isDevice t.platform a = true) :
      State.Noted R s (t.logRead a (Config.deviceByte t.freeCount a) (t.freeCount + 1))

/-- The walks of a main memory access at `va` from `s`. -/
def State.walkAt (s : State) (va : Pc) (v : Pc) (u : State) : Prop := v = va ∧ psrMmu s.psr = true ∧ s.SameTables u

/-- Does a write through the MMU at `va` touch the byte at `b` by setting a dirty bit (20_memory.md R68). -/
def dirtyTouches (va : Pc) (w : Work) (b : Nat) : Bool :=
  psrMmu w.cur.psr && w.cur.platform.mmuSetsDirty &&
    match readPde va w with
    | .ok pde _ => decide (pteAddr w.cur va pde ≤ b) && decide (b < pteAddr w.cur va pde + 2)
    | .raised _ _ => false
    | .refused _ => false

/-- Does a main memory write of the width at `va` touch the byte at `b`: one of the bytes it stores, or of the page table
entry whose dirty bit it sets (20_memory.md R47, R68). -/
def writeTouches (width : Width) (va : Word) (w : Work) (b : Nat) : Bool :=
  match inMain va fun a => mainAddr .write a w with
  | .ok pa _ => (decide (pa ≤ b) && decide (b < pa + widthBytes width)) || dirtyTouches (va.extractLsb' 0 24) w b
  | .raised _ _ => false
  | .refused _ => false

/-- Do the two pushes of a trap entry touch the byte at `b`: the second from the work that the first leaves
(60_exceptions.md R171, R172). -/
def pushTouches (w : Work) (b : Nat) : Bool :=
  writeTouches .word (pushAddr w.cur.platform.frame (w.cur.readReg spIx)) w.movePointer b

def frameTouches (saved : Pc) (s : State) (b : Nat) : Bool :=
  pushTouches { Work.start s with cur := s.raiseMode } b ||
    match push32 (frameWords s.platform.frame.order s.psr (saved.zeroExtend 32)).1
        { Work.start s with cur := s.raiseMode } with
    | .ok _ w => pushTouches w b
    | .raised _ _ => false
    | .refused _ => false

/-- All of the n bytes at an address are device registers. -/
def allDevice (p : Platform) : Nat → Nat → Bool
  | _, 0 => true
  | a, n + 1 => isDevice p a && allDevice p (a + 1) n

/-- The device log after bytes read, or written, at an address and up (newest first). -/
def logReads : Nat → List Byte → List DeviceEvent → List DeviceEvent
  | _, [], log => log
  | a, b :: bs, log => logReads (a + 1) bs (.read a b :: log)

def logWrites : Nat → List Byte → List DeviceEvent → List DeviceEvent
  | _, [], log => log
  | a, b :: bs, log => logWrites (a + 1) bs (.write a b :: log)

/-- Does the program write the register `i` on these fields. -/
def progWrites (f : Fields) (p : Prog) (i : RegIx) : Bool := p.any fun o => o.writtenReg.map f.sel == some i

/-- `t` is the next instruction's state after one that writes no more than the registers of which `w` holds. -/
structure State.OnlyRegisters (w : RegIx → Bool) (s t : State) : Prop where
  rest : t = { s with regs := t.regs, ssp := t.ssp, usp := t.usp, pc := s.pc + 4 }
  others : ∀ i, w i = false → t.readReg i = s.readReg i
  otherCopy : if s.supervisor then t.usp = s.usp else t.ssp = s.ssp

/-- Nothing of the instruction comes after a trap entry of its own: only a T, U or aligned-offset entry that is a program can
have something there. -/
def entersLast (m : OpMap) (i : Instr) : Bool :=
  match i with
  | .sys op r1 v =>
    match findSys m op r1 v with
    | .entry ⟨_, _, .prog p⟩ => p.entersLast
    | _ => true
  | .uj op _ _ =>
    match findUJ m op with
    | .entry ⟨_, _, .u p⟩ => p.entersLast
    | _ => true
  | .load op _ _ _ =>
    match findLoad m op with
    | .entry ⟨_, _, .alignedOffset p⟩ => p.entersLast
    | _ => true
  | .bulk _ _ _ _ | .branch _ _ _ _ | .arithImm _ _ _ _ | .arithReg _ _ _ _ _ | .store _ _ _ _ => true

/-- Where the two words of a trap frame go, and that both writes go through untranslated (60_exceptions.md R172). -/
def frameAddr1 (s : State) : Word := pushAddr s.platform.frame s.ssp
def frameAddr2 (s : State) : Word := pushAddr s.platform.frame (spAfterPush s.platform.frame s.ssp)
def frameFits (s : State) : Bool := mainPlain s .word (frameAddr1 s) && mainPlain s .word (frameAddr2 s)

/-- The vector's IVT entry is storage and names the handler `h` (60_exceptions.md R164, R173). -/
def handlerAt (s : State) (v : Byte) (h : Pc) : Bool :=
  allInstalled s.platform.dataInstalled (ivtEntryAddr s.psr v) 4 && noDevice s.platform (ivtEntryAddr s.psr v) 4
    && s.data.readVal s.platform.endian .word (ivtEntryAddr s.psr v) == h.zeroExtend 32

/-- What the pseudocode of 60_exceptions.md R171 and R172 makes of `s`, the layout being R172's and the handler at `h`: s
raised, psr and pc below the supervisor stack pointer, p the request's, the pc at the handler. -/
def entryState (q : BitVec 3) (saved h : Pc) (s : State) : State :=
  { s with
    psr := psrWithP (psrWithS s.psr true) q
    ssp := s.ssp - 8
    main := (s.main.writeVal s.platform.endian .word (s.ssp - 4).toNat s.psr).writeVal s.platform.endian .word
      (s.ssp - 8).toNat (saved.zeroExtend 32)
    pc := h }

/-- May the entry run in the state's mode as far as its mark goes (47_t.md R154). -/
def mayRun (s : State) (supervisorOnly : Bool) : Bool := s.supervisor || !supervisorOnly

/-- There is an instruction after this one (10_state.md R15). -/
def hasNext (s : State) : Bool := decide (s.pc.toNat + 4 ≤ pcMax)

/-- How a run of at most k steps ends: at `END_PC`, halted or refused (never a good end), or out of steps. -/
inductive RunEnd where
  | reached (s : State)
  | wentWrong
  | outOfSteps
deriving DecidableEq, Repr

/-- A run to the address a claim names as its end; a halted state is never at an end. -/
def runTo (endPc : Pc) : Nat → State → RunEnd
  | 0, s => if s.status = .running ∧ s.pc = endPc then .reached s else .outOfSteps
  | k + 1, s =>
    if s.status = .running ∧ s.pc = endPc then .reached s
    else
      match step s with
      | .next t => runTo endPc k t
      | .fault _ => .wentWrong
      | .refused _ => .wentWrong

/-- A step that goes on and does not halt. -/
def Result.good (o : Result) : Bool :=
  match o with
  | .next t => t.status == .running
  | .fault _ => false
  | .refused _ => false

end Sys2Proof.Machine
end

