-- ==== Sys2Proof/Certificates/Slice0/Obligations.lean ====
section
/-! DEFINITION. The statements for the provers. Each docstring names the rule it formalises. A statement holds for every
state, so for every value of the spec's parameters (State.platform) and of the free values. -/

open Sys2Proof Sys2Proof.Machine

/-! ## Encoding -/

/-- 30_encoding.md R82 to R86: the five encodings give back every field of every instruction, in front of any bytes.
The bit positions are the spec's own decision D1 (log 1). -/
def Obligations.DecodeEncodeRoundTrip : Prop :=
  ∀ (i : Instr) (rest : List Byte), decodeBytes (encodeBytes i ++ rest) = .ok (i, rest)

/-- 30_encoding.md R81 to R87: a word that decodes has one meaning, and its fields are all of its bits. The bit
positions are the spec's own decision D1 (log 1). -/
def Obligations.EncodeDecodeRoundTrip : Prop :=
  ∀ (w : Word) (i : Instr), decodeWord w = .ok i → encode i = w

/-- 30_encoding.md R94, as far as the word alone tells: ENCODING V's twelve zero bits, and the five that ENCODING III
and IV share. That such a word is refused is the spec's own decision D8 (log 21). -/
def Obligations.DecodeRefusesExactlyTheZeroBits : Prop :=
  ∀ w : Word, decodeWord w = .error .zeroFieldNonzero ↔
    (w.extractLsb' 29 3 = 0b000#3 ∧ w.extractLsb' 8 12 ≠ 0#12) ∨ (w.extractLsb' 29 3 = 0b110#3 ∧ w.extractLsb' 0 5 ≠ 0#5)

/-- 95_test_vectors.md section 3.1: words written out from the figures, every group among them. The bit positions are
the spec's own decision D1 (log 1). -/
def Obligations.WordsOfTheFieldTableDecode : Prop :=
  decodeBytes [0x1E, 0x50, 0x00, 0xFF] = .ok (.sys 15 5 0xFF, [])
  ∧ decodeBytes [0x35, 0x56, 0x40, 0x01] = .ok (.bulk 10 21 12 0x4001, [])
  ∧ decodeBytes [0x4A, 0xBF, 0xFF, 0xFE] = .ok (.uj 5 11 0xFFFFE, [])
  ∧ decodeBytes [0x7F, 0x2A, 0x40, 0x01] = .ok (.branch 15 18 20 0x4001, [])
  ∧ decodeBytes [0x80, 0x20, 0x80, 0x08] = .ok (.load 0 2 1 8, [])
  ∧ decodeBytes [0xA0, 0x10, 0x7F, 0xFF] = .ok (.arithImm 0 1 0 0x7FFF, [])
  ∧ decodeBytes [0xDE, 0xAD, 0xBC, 0x00] = .ok (.arithReg 15 10 27 15 0, [])
  ∧ decodeBytes [0xC7, 0xFF, 0xFF, 0xE0] = .ok (.arithReg 3 31 31 31 31, [])
  ∧ decodeBytes [0xFF, 0xFF, 0xFF, 0xFF] = .ok (.store 15 31 31 0x7FFF, [])

/-- 30_encoding.md R91: the offset is the field times 4; every multiple of 4 from -65536 to +65532 has one field, and no
other number has. -/
def Obligations.BranchOffsetsAreTheMultiplesOfFour : Prop :=
  (∀ imm : BitVec 15, branchOffset imm = 4 * imm.toInt ∧ imm15OfScaledOffset (branchOffset imm) = some imm
    ∧ -65536 ≤ branchOffset imm ∧ branchOffset imm ≤ 65532) ∧
  (∀ n : Int, n % 4 = 0 → -65536 ≤ n → n ≤ 65532 → ∃ imm, imm15OfScaledOffset n = some imm ∧ branchOffset imm = n) ∧
  (∀ n : Int, (n % 4 ≠ 0 ∨ n < -65536 ∨ 65532 < n) → imm15OfScaledOffset n = none)

/-- 30_encoding.md R92, the J instruction's offset: the field times 4, every multiple of 4 from -2097152 to +2097148.
The scaling of J is the spec's own decision D32 (log 36). -/
def Obligations.JumpOffsetsAreTheMultiplesOfFour : Prop :=
  (∀ imm : BitVec 20, jumpOffset imm = 4 * imm.toInt ∧ imm20OfScaledOffset (jumpOffset imm) = some imm
    ∧ -2097152 ≤ jumpOffset imm ∧ jumpOffset imm ≤ 2097148) ∧
  (∀ n : Int, n % 4 = 0 → -2097152 ≤ n → n ≤ 2097148 → ∃ imm, imm20OfScaledOffset n = some imm ∧ jumpOffset imm = n) ∧
  (∀ n : Int, (n % 4 ≠ 0 ∨ n < -2097152 ∨ 2097148 < n) → imm20OfScaledOffset n = none)

/-- 30_encoding.md R90: the operand is `sext_32(imm15)`, -16384 to +16383. The sign of load and store offsets is the
spec's inference, marked derived in R90. -/
def Obligations.ByteImmediatesAreSignExtended : Prop :=
  (∀ imm : BitVec 15, byteImm imm = imm.signExtend 32 ∧ (byteImm imm).toInt = imm.toInt
    ∧ -16384 ≤ (byteImm imm).toInt ∧ (byteImm imm).toInt ≤ 16383) ∧
  (∀ n : Int, -16384 ≤ n → n ≤ 16383 → ∃ imm, imm15OfByteOffset n = some imm ∧ (byteImm imm).toInt = n)

/-! ## Registers and the psr -/

/-- 10_state.md R11: x0 reads 0 in every state and a write of it changes nothing. -/
def Obligations.RegisterZeroIsConstant : Prop :=
  ∀ (s : State) (v : Word), s.readReg 0 = 0 ∧ s.writeReg 0 v = s

/-- 10_state.md R12: x2 is the copy of the mode, a write reaches that copy only, and the other mode sees its own. -/
def Obligations.StackPointerFollowsTheMode : Prop :=
  ∀ (s : State) (v : Word),
    (s.supervisor = true → s.readReg 2 = s.ssp ∧ s.writeReg 2 v = { s with ssp := v }) ∧
    (s.supervisor = false → s.readReg 2 = s.usp ∧ s.writeReg 2 v = { s with usp := v }) ∧
    (∀ p : Word, psrS p ≠ psrS s.psr → ({ s.writeReg 2 v with psr := p } : State).readReg 2
      = ({ s with psr := p } : State).readReg 2)

/-- 10_state.md R10 to R13: a register written reads back, every other register keeps its value. -/
def Obligations.RegisterWriteThenRead : Prop :=
  ∀ (s : State) (i j : RegIx) (v : Word),
    (s.writeReg i v).readReg j = if j = i ∧ i ≠ 0 then v else s.readReg j

/-- 10_state.md R16: each field is at the bits of the table, and the seven fields in the figure's order are the whole
word. The bit positions are the spec's own decision D1 (log 1). -/
def Obligations.PsrFieldsTileTheWord : Prop :=
  (∀ w : Word, psrS w = w.getLsbD 31 ∧ psrIrq w = w.getLsbD 30 ∧ psrMmu w = w.getLsbD 29
    ∧ (psrP w).toNat = w.toNat / 2 ^ 26 % 8 ∧ (psrIvt w).toNat = w.toNat / 2 ^ 20 % 64
    ∧ (psrPdt w).toNat = w.toNat / 2 ^ 12 % 256 ∧ (psrRes w).toNat = w.toNat % 4096) ∧
  (∀ w : Word, psrOf (psrS w) (psrIrq w) (psrMmu w) (psrP w) (psrIvt w) (psrPdt w) (psrRes w) = w) ∧
  (∀ (s irq mmu : Bool) (p : BitVec 3) (ivt : BitVec 6) (pdt : BitVec 8) (res : BitVec 12),
    let w := psrOf s irq mmu p ivt pdt res
    psrS w = s ∧ psrIrq w = irq ∧ psrMmu w = mmu ∧ psrP w = p ∧ psrIvt w = ivt ∧ psrPdt w = pdt ∧ psrRes w = res)

/-- 10_state.md R21, 60_exceptions.md R164: the table is at `psr.ivt * 1024`, entry v at that plus `v * 4`; the default 0xf800
is psr.ivt = 62; the 64 positions tile data memory: entries of two positions or two vectors never meet and every address
is in one. -/
def Obligations.VectorTablePositions : Prop :=
  (∀ (a : Word) (v : Byte), ivtBase a = (psrIvt a).toNat * 1024 ∧ ivtEntryAddr a v = (psrIvt a).toNat * 1024 + v.toNat * 4
    ∧ ivtEntryAddr a v + 4 ≤ dataSize ∧ (psrIvt a = 62 → ivtBase a = 0xF800)) ∧
  (∀ (a b : Word) (u v : Byte), (psrIvt a ≠ psrIvt b ∨ u ≠ v) →
    ivtEntryAddr a u + 4 ≤ ivtEntryAddr b v ∨ ivtEntryAddr b v + 4 ≤ ivtEntryAddr a u) ∧
  (∀ x : Nat, x < dataSize → ∃ (a : Word) (v : Byte), ivtEntryAddr a v ≤ x ∧ x < ivtEntryAddr a v + 4)

/-! ## Memory -/

/-- 20_memory.md R53: with `DATA_ENDIAN` big an n-byte value has its byte k from the top at address a + k. Big-endian
data is the spec's own decision D2 (log 18). -/
def Obligations.BigEndianByteOrder : Prop :=
  ∀ (m : Memory) (w : Width) (a k : Nat) (v : Word), Memory.wf mainSize m = true → a + widthBytes w ≤ mainSize →
    k < widthBytes w →
    (m.writeVal .big w a v).read (a + k) = v.extractLsb' (8 * (widthBytes w - 1 - k)) 8

/-- 20_memory.md R45, R53: a stored value reads back at its width, in either byte order, and every byte outside it reads
as before. That the memory stays canonical is about the model's own form of a memory (log 11). -/
def Obligations.StoredValueReadsBack : Prop :=
  ∀ (m : Memory) (e : Endian) (w : Width) (a : Nat) (v : Word), Memory.wf mainSize m = true →
    a + widthBytes w ≤ mainSize →
    (m.writeVal e w a v).readVal e w a = v &&& BitVec.ofNat 32 (2 ^ (8 * widthBytes w) - 1)
    ∧ (∀ b : Nat, (b < a ∨ a + widthBytes w ≤ b) → (m.writeVal e w a v).read b = m.read b)
    ∧ Memory.wf mainSize (m.writeVal e w a v) = true

/-- 20_memory.md R46, R47, R60 with psr.mmu = 0: virtual and physical addresses are equal, a read changes nothing, a write
stores the value. -/
def Obligations.UntranslatedAccesses : Prop :=
  ∀ (s : State) (w : Width) (a v : Word), mainPlain s w a = true →
    memRead w a (Work.start s) = .ok (s.main.readVal s.platform.endian w a.toNat) (Work.start s)
    ∧ memWrite w a v (Work.start s)
      = .ok () { cur := { s with main := s.main.writeVal s.platform.endian w a.toNat v }, base := s }

/-- 20_memory.md R55, R56: an address wider than its space is refused; inside the space one that is no multiple of the
access's size is refused, in main memory, the MMU on or off, and in data memory. 20_memory.md R54: the fetch of an instruction
at an address that is no multiple of 4 is refused, the MMU on or off. The refusals are the spec's own decisions D6 and D7 (log
20). -/
def Obligations.AddressesThatAreRefused : Prop :=
  ∀ (k : Work) (w : Width) (a v : Word),
    (mainSize ≤ a.toNat → memRead w a k = .refused .addressTooWide ∧ memWrite w a v k = .refused .addressTooWide) ∧
    (dataSize ≤ a.toNat → dataRead w a k = .refused .addressTooWide ∧ dataWrite w a v k = .refused .addressTooWide) ∧
    (a.toNat % widthBytes w ≠ 0 → a.toNat < mainSize →
      memRead w a k = .refused .misaligned ∧ memWrite w a v k = .refused .misaligned) ∧
    (a.toNat % widthBytes w ≠ 0 → a.toNat < dataSize →
      dataRead w a k = .refused .misaligned ∧ dataWrite w a v k = .refused .misaligned) ∧
    (∀ pc : Pc, pc.toNat % 4 ≠ 0 → fetchAt pc k = .refused .pcMisaligned) ∧
    (k.cur.pc.toNat % 4 ≠ 0 → fetch k = .refused .pcMisaligned)

/-! ## The MMU -/

/-- 20_memory.md R61 to R64, R67, R68: the entries' addresses, the physical address, and the dirty bit a write sets.
The entry layout, the page size and the dirty bit are the spec's own decisions D1, D18, D19 (logs 1, 29, 30). -/
def Obligations.WalkGivesThePhysicalAddress : Prop :=
  ∀ (s : State) (kind : AccessKind) (va : Pc), walkPlain s va = true →
    pteCheck s.supervisor kind (walkPte s va) = none →
    let off := va.toNat % 4096
    let pti := va.toNat / 4096 % 2 ^ s.platform.ptIndexBits.val
    let pdi := va.toNat / 4096 / 2 ^ s.platform.ptIndexBits.val
    let pteAt := ((walkPde s va).extractLsb' 4 12).toNat * 4096 + pti * 2
    let dirty : Bool := decide (kind = .write) && s.platform.mmuSetsDirty && !(walkPte s va).getLsbD 1
    let t : State := if dirty then
      { s with main := s.main.writeVal s.platform.endian .half pteAt (walkPte s va ||| 2) } else s
    pdeAddr s va = (psrPdt s.psr).toNat * 256 + pdi * 2 ∧ pteAddr s va (walkPde s va) = pteAt
    ∧ mmuTranslate kind va (Work.start s)
      = .ok (((walkPte s va).extractLsb' 4 12).toNat * 4096 + off) { cur := t, base := t }

/-- 20_memory.md R66, and R135's "neither data nor dirty bit": a walk whose check fails raises, with nothing changed.
That the check always raises is the spec's own decision D17 (log 27). -/
def Obligations.WalkRaisesWithNothingChanged : Prop :=
  ∀ (s : State) (kind : AccessKind) (va : Pc) (e : Exc), walkPlain s va = true →
    pteCheck s.supervisor kind (walkPte s va) = some e →
    mmuTranslate kind va (Work.start s) = .raised e (Work.start s)

/-- 20_memory.md R66: present is tested first, in both modes; w and x only in user mode; a read of a present page
passes. That the check always raises, and which exception, is the spec's own decision D17 (log 27). -/
def Obligations.PageChecks : Prop :=
  ∀ (sup : Bool) (kind : AccessKind) (pte : Word),
    (pte.getLsbD 0 = false → pteCheck sup kind pte = some .pageFault) ∧
    (pte.getLsbD 0 = true → sup = true → pteCheck sup kind pte = none) ∧
    (pte.getLsbD 0 = true → kind = .read → pteCheck sup kind pte = none) ∧
    (pte.getLsbD 0 = true → sup = false → kind = .write →
      pteCheck sup kind pte = if pte.getLsbD 3 then none else some .accessViolation) ∧
    (pte.getLsbD 0 = true → sup = false → kind = .fetch →
      pteCheck sup kind pte = if pte.getLsbD 2 then none else some .accessViolation)

/-- 20_memory.md R60, R61, R68, R50, whatever the tables hold: a translation ends inside main memory; of the state it
changes main memory, by the dirty bit that a write sets in the entry the walk reads, and the device log with its free draws, by the bytes of
a directory entry that are device registers; nothing else. One that raises has set no dirty bit. The dirty bit is the
spec's own decision D19, the device reads are the model's (logs 14, 17, 30, 33). -/
def Obligations.TranslationChangesDirtyBitsAndDeviceReadsOnly : Prop :=
  ∀ (s : State) (kind : AccessKind) (va : Pc),
    (∀ pa w, mmuTranslate kind va (Work.start s) = .ok pa w →
      pa < mainSize ∧ w.base = w.cur ∧ s.Noted (fun v u => v = va ∧ u = s) w.cur
      ∧ w.cur = { s with main := w.cur.main, deviceLog := w.cur.deviceLog, freeCount := w.cur.freeCount }
      ∧ (noDevice s.platform (pdeAddr s va) 2 = true → w.cur.deviceLog = s.deviceLog ∧ w.cur.freeCount = s.freeCount)
      ∧ (w.cur.main = s.main ∨ kind = .write ∧ s.platform.mmuSetsDirty = true
          ∧ ∃ pde k, readPde va (Work.start s) = .ok pde k ∧ pteAddr s va pde + 2 ≤ mainSize
            ∧ w.cur.main = (s.setDirty (pteAddr s va pde)).main)) ∧
    (∀ e w, mmuTranslate kind va (Work.start s) = .raised e w →
      w.base = w.cur ∧ w.cur = { s with deviceLog := w.cur.deviceLog, freeCount := w.cur.freeCount }
      ∧ (noDevice s.platform (pdeAddr s va) 2 = true → w.cur = s))

/-! ## Trap entry, exceptions, return -/

/-- 60_exceptions.md R160: the vectors of the table, and the one each exception enters. -/
def Obligations.ExceptionVectorsAreTheTable : Prop :=
  hardwareVector .reset = 0x00 ∧ hardwareVector .busError = 0x02 ∧ hardwareVector .addressError = 0x03
  ∧ hardwareVector .illegalInstruction = 0x04 ∧ hardwareVector .divisionByZero = 0x05
  ∧ hardwareVector .privilegeViolation = 0x06 ∧ hardwareVector .pageFault = 0x07
  ∧ hardwareVector .accessViolation = 0x08 ∧ ∀ e : Exc, excVector e = hardwareVector (excHardwareVector e)

/-- 60_exceptions.md R171, R172, R173: with the layout of R172 and both pushes inside plain main memory, a trap entry
makes exactly the state of the pseudocode. The layout and the psr pushed are the spec's own decisions D11, D12 (log
24). -/
def Obligations.TrapEntryMakesTheStateOfThePseudocode : Prop :=
  ∀ (s : State) (v : Byte) (q : BitVec 3) (saved h : Pc), s.platform.frame = .default → frameFits s = true →
    handlerAt s v h = true → trapEnter v q saved s = .entered (entryState q saved h s)

/-- 60_exceptions.md R171 to R173 for every layout, translated or not: what an entry changes and what it leaves. Of main
memory it leaves every byte outside the two words pushed and the dirty bits of their pages. The list of what changes is
the spec's own decision D10, D12 (logs 23, 24). -/
def Obligations.TrapEntryFrame : Prop :=
  ∀ (s t : State) (v : Byte) (q : BitVec 3) (saved : Pc), trapEnter v q saved s = .entered t →
    t.psr = psrWithP (psrWithS s.psr true) q ∧ t.supervisor = true ∧ psrP t.psr = q ∧ psrIrq t.psr = psrIrq s.psr
    ∧ psrMmu t.psr = psrMmu s.psr ∧ psrIvt t.psr = psrIvt s.psr ∧ psrPdt t.psr = psrPdt s.psr
    ∧ t.ssp = spAfterPush s.platform.frame (spAfterPush s.platform.frame s.ssp)
    ∧ (noDevice s.platform (ivtEntryAddr s.psr v) 4 = true →
        t.pc.zeroExtend 32 = s.data.readVal s.platform.endian .word (ivtEntryAddr s.psr v))
    ∧ t.regs = s.regs ∧ t.usp = s.usp ∧ t.data = s.data ∧ t.pending = s.pending ∧ t.faultDepth = s.faultDepth
    ∧ t.status = s.status ∧ t.schedule = s.schedule ∧ t.platform = s.platform
    ∧ ∀ b : Nat, frameTouches saved s b = false → t.main.read b = s.main.read b

/-- 60_exceptions.md R183, R172: an exception raised by a push halts the machine, and nothing of the frame is there: of
the state before the entry only the dirty bit of the first push's page, device reads of the walks and the run status differ;
with the MMU off, or no dirty bits set by it, main memory is as before. The spec's own decision D26 (log 26); that the dirty
bit stays is log 17. -/
def Obligations.FailedPushHaltsWithoutAFrame : Prop :=
  ∀ (s : State) (v : Byte) (q : BitVec 3) (saved : Pc) (e : Exc) (w : Work), pushFrame saved (Work.start s) = .raised e w →
    ∃ b, trapEnter v q saved s = .halted { b with status := .halted .doubleFault }
      ∧ s.Noted (s.walkAt ((frameAddr1 s).extractLsb' 0 24)) b
      ∧ b = { s with main := b.main, deviceLog := b.deviceLog, freeCount := b.freeCount }
      ∧ ((s.platform.mmuSetsDirty = false ∨ psrMmu s.psr = false) → b.main = s.main)
      ∧ ∀ x : Nat, dirtyTouches ((frameAddr1 s).extractLsb' 0 24) (Work.movePointer { Work.start s with cur := s.raiseMode }) x
          = false → b.main.read x = s.main.read x

/-- 60_exceptions.md R170: the saved pc is the instruction for a fault and the one after it for a trap, the priority
is `EXC_PRIORITY`, and a fault is counted. Of an exception of the instruction fetch it is the address that could not be fetched,
for either kind (R178; log 25). Page Fault, 0x07, is of fault kind on every platform. The parameters, the kind of Page Fault and
the count are the spec's own decisions D14 to D16 (logs 25, 26). -/
def Obligations.ExceptionEntersItsHandler : Prop :=
  (∀ p : Platform, excKindOf p 0x07 = some .fault ∧ excKindOf p (excVector .pageFault) = some .fault) ∧
  ∀ (s : State) (e : Exc) (q : BitVec 3) (h : Pc), s.platform.frame = .default → frameFits s = true →
    handlerAt s (excVector e) h = true → excPriorityOf s.platform (excVector e) (psrP s.psr) = some q →
    (excKindOf s.platform (excVector e) = some .fault →
      (s.faultDepth = 0 ∨ s.platform.faultScope = some .entryOnly) →
      takeException e s = .next { entryState q s.pc h s with faultDepth := s.faultDepth + 1 }
      ∧ takeFetchException e s = .next { entryState q s.pc h s with faultDepth := s.faultDepth + 1 }) ∧
    (excKindOf s.platform (excVector e) = some .trap →
      takeFetchException e s = .next (entryState q s.pc h s)
      ∧ (hasNext s = true → takeException e s = .next (entryState q (s.pc + 4) h s)))

/-- 60_exceptions.md R183: a fault while a fault is handled goes by `FAULT_SCOPE`. The spec's own decision D16 (log
26). -/
def Obligations.SecondFaultGoesByTheScope : Prop :=
  ∀ (s : State) (e : Exc), excKindOf s.platform (excVector e) = some .fault → s.faultDepth ≠ 0 →
    (s.platform.faultScope = some .untilReturn →
      takeException e s = .next { s with status := .halted .doubleFault }
      ∧ takeFetchException e s = .next { s with status := .halted .doubleFault }) ∧
    (s.platform.faultScope = none →
      takeException e s = .refused .faultScopeUnset ∧ takeFetchException e s = .refused .faultScopeUnset)

/-- 60_exceptions.md R183, 10_state.md R30: a halted machine has no step, whatever halted it, and it is the only one a
step says so of. The spec's own decision D16 (log 26). -/
def Obligations.HaltedMachineHasNoStep : Prop :=
  ∀ s : State, ((∃ f, step s = .fault f) ↔ s.status ≠ .running) ∧
    ∀ r, s.status = .halted r → step s = .fault (.halted r)

/-- 60_exceptions.md R180, 47_t.md R153, with the layout of R172 and both words in plain main memory: the return
instruction performs `TrapReturn()`, which restores psr and pc and drops the frame. The layout and the refusals are
the spec's own decisions D9, D11, D13 (logs 20, 21, 24). -/
def Obligations.TrapReturnRestores : Prop :=
  ∀ (s : State) (op : Opcode) (r1 : RegIx) (v : Byte) (e : Entry SysBody),
    findSys s.platform.opmap op r1 v = .entry e → e.body = .trapReturn → s.supervisor = true →
    s.platform.frame = .default → mainPlain s .word s.ssp = true → mainPlain s .word (s.ssp + 4) = true →
    let c := s.main.readVal s.platform.endian .word s.ssp.toNat
    let r := s.main.readVal s.platform.endian .word (s.ssp + 4).toNat
    exec (.sys op r1 v) s = trapReturn (Work.start s) ∧
    (c.toNat < 2 ^ 24 → psrRes r = 0 →
      exec (.sys op r1 v) s = .next { s with
        ssp := s.ssp + 8, psr := r, pc := BitVec.ofNat 24 c.toNat, faultDepth := s.faultDepth - 1 }) ∧
    (2 ^ 24 ≤ c.toNat → exec (.sys op r1 v) s = .refused .savedPcTopByte) ∧
    (c.toNat < 2 ^ 24 → psrRes r ≠ 0 → exec (.sys op r1 v) s = .refused .psrReserved)

/-- "After an interrupt, Sirius shall restore the state of the machine as it was": a return right after an entry gives
back the psr, the saved pc, every register and both stack pointers, whatever the layout of the frame; memory keeps
every byte outside the frame. The reserved bits of the psr are 0 and main memory is canonical in every state the
machine reaches (StepKeepsInvariant). That the psr from before the entry is saved is the spec's own decision D12 (log
24). -/
def Obligations.ReturnUndoesEntry : Prop :=
  ∀ (s : State) (v : Byte) (q : BitVec 3) (saved h : Pc), frameFits s = true → handlerAt s v h = true →
    psrRes s.psr = 0 → Memory.wf mainSize s.main = true →
    ∃ t u, trapEnter v q saved s = .entered t ∧ t.pc = h ∧ trapReturn (Work.start t) = .next u
      ∧ u.psr = s.psr ∧ u.pc = saved ∧ u.regs = s.regs ∧ u.ssp = s.ssp ∧ u.usp = s.usp ∧ u.data = s.data
      ∧ u.pending = s.pending ∧ u.status = s.status ∧ u.faultDepth = s.faultDepth - 1
      ∧ (∀ b : Nat, (b < (frameAddr1 s).toNat ∨ (frameAddr1 s).toNat + 4 ≤ b) →
          (b < (frameAddr2 s).toNat ∨ (frameAddr2 s).toNat + 4 ≤ b) → u.main.read b = s.main.read b)

/-! ## Interrupts -/

/-- 60_exceptions.md R165, R167: the request taken is pending, psr.irq is 1, its priority is strictly higher than
psr.p and no qualifying request has a higher one; if any request qualifies one is taken. The choice and the enable bit
are the spec's own decisions D10, D30 (logs 23, 34). -/
def Obligations.InterruptChoice : Prop :=
  ∀ s : State,
    (∀ r n, s.chooseRequest = some (r, n) → psrIrq s.psr = true ∧ r ∈ s.pending ∧ (psrP s.psr).toNat < r.prio.toNat
      ∧ ∀ r' ∈ s.pending, r'.prio.toNat ≤ r.prio.toNat) ∧
    (psrIrq s.psr = true → (∃ r ∈ s.pending, (psrP s.psr).toNat < r.prio.toNat) → s.chooseRequest ≠ none)

/-- 60_exceptions.md R165: "A request of priority 0 can never be acknowledged; with psr.p = 7 no interrupt can"; and
none while psr.irq = 0. That psr.irq = 0 holds interrupts back is the spec's own decision D10 (log 23). -/
def Obligations.InterruptsHeldBack : Prop :=
  ∀ s : State, (psrIrq s.psr = false ∨ psrP s.psr = 7 ∨ (∀ r ∈ s.pending, r.prio = 0)) →
    interruptOrRun s = fetchAndRun s

/-- 60_exceptions.md R165, R166: acknowledging takes the request out of the set and enters its handler with the pc of
the instruction not yet executed. The layout and the pending set are the spec's own decisions D11, D24 (logs 24, 32). -/
def Obligations.AcknowledgeEntersTheHandler : Prop :=
  ∀ (s : State) (r : Request) (h : Pc), s.platform.frame = .default → frameFits s = true →
    handlerAt s r.vector h = true →
    acknowledge r s
      = .next (entryState r.prio s.pc h { s with pending := s.pending.filter (fun p => decide (p ≠ r)) })

/-! ## Reset and the step -/

/-- 70_reset_and_hazards.md R200: psr, pc, pending, fault_depth and status after reset, for every loaded memory and
priority; and an entry with a nonzero top byte is refused. The registers' zeros (log entry 4) are not stated. The
reset values are the spec's own decision D23 (log 42). -/
def Obligations.ResetSequence : Prop :=
  ∀ r : ResetParams, allInstalled r.platform.dataInstalled 0xF800 4 = true → noDevice r.platform 0xF800 4 = true →
    let e := r.data.readVal r.platform.endian .word 0xF800
    (e.toNat < 2 ^ 24 → ∃ s, resetSequence r = .ok s ∧ psrS s.psr = true ∧ psrIrq s.psr = false ∧ psrMmu s.psr = false
      ∧ psrP s.psr = r.p ∧ psrIvt s.psr = 62 ∧ psrPdt s.psr = 255 ∧ psrRes s.psr = 0 ∧ s.pc.toNat = e.toNat
      ∧ s.pending = [] ∧ s.faultDepth = 0 ∧ s.status = .running ∧ s.main = r.main ∧ s.data = r.data) ∧
    (2 ^ 24 ≤ e.toNat → resetSequence r = .error .ivtTopByte)

/-- State.reset meets the invariant, and is what the reset sequence gives with nothing loaded. The model's choice of
empty memories, registers, platform and model fields: logs 3, 4, 11, 13, 14, 15, 42. -/
def Obligations.ResetMeetsTheInvariant : Prop :=
  State.reset.Inv ∧ State.reset.psr = 0x83EFF000
  ∧ resetSequence { p := 0, main := [], data := [], platform := .reset, schedule := [] } = .ok State.reset

/-- From every state that meets the invariant a step gives a state that meets it: both memories canonical and inside
their spaces, the psr's reserved bits 0 (10_state.md R23), the pending requests a set. That the reserved bits stay 0
is the spec's own decision D9 (log 21), the memories' form is the model's (log 11). -/
def Obligations.StepKeepsInvariant : Prop :=
  ∀ s t : State, s.Inv → step s = .next t → t.Inv

/-- No step changes a parameter of the spec, and the schedule of device actions only runs out, one gap a step. Between two
instructions devices change only the pending requests and storage inside `DEVICE_BUFFERS` (20_memory.md R50); a request
they send has its vector's priority; an action outside makes the step refused (93_implementation_defined.md U33). The
spec's own decisions D24, D28 (log 32); that the parameters and the schedule stand in the state is the model's choice
(logs 2, 15). -/
def Obligations.StepKeepsThePlatformAndDevicesStayInTheirBuffers : Prop :=
  ∀ s : State,
    (∀ t, step s = .next t → t.platform = s.platform ∧ t.schedule = s.schedule.tail) ∧
    (∀ t, s.deviceTurn = .ok t →
      t = { s with schedule := s.schedule.tail, pending := t.pending, main := t.main, data := t.data }
      ∧ (∀ b, inBuffers s.platform .main b = false → t.main.read b = s.main.read b)
      ∧ (∀ b, inBuffers s.platform .data b = false → t.data.read b = s.data.read b)
      ∧ (∀ r ∈ t.pending, r ∈ s.pending ∨
          (.request r.vector ∈ s.schedule.headD [] ∧ r.prio = irqPriorityOf s.platform r.vector))) ∧
    (∀ sp b v, .bufferWrite sp b v ∈ s.schedule.headD [] → (inBuffers s.platform sp b = false ∨ spaceSize sp ≤ b) →
      s.deviceTurn = .error .deviceOutsideBuffers ∧ (s.status = .running → step s = .refused .deviceOutsideBuffers))

/-- 00_scope.md R5: after the devices' turn a step acknowledges the interrupt there is to acknowledge; else it
fetches, decodes and runs exec of the instruction at the state after the fetch. With no device action due and the pc
aligned in plain main memory that state is the state itself and the word is the four bytes at the pc. That the devices
act first and an acknowledgement is a step of its own is the model's choice (log 34). -/
def Obligations.StepRunsTheDecodedInstruction : Prop :=
  ∀ (s u : State), s.status = .running → s.deviceTurn = .ok u →
    (∀ r n, u.chooseRequest = some (r, n) → step s = acknowledge r { u with freeCount := n }) ∧
    (u.chooseRequest = none →
      (∀ w k i, fetch (Work.start u) = .ok w k → decodeWord w = .ok i → step s = exec i k.cur) ∧
      (∀ w k e, fetch (Work.start u) = .ok w k → decodeWord w = .error e → step s = .refused .zeroFieldNonzero) ∧
      (∀ e k, fetch (Work.start u) = .raised e k → step s = takeFetchException e k.base) ∧
      (∀ r, fetch (Work.start u) = .refused r → step s = .refused r) ∧
      (∀ i rest, s.schedule = [] → mainPlain s .word (s.pc.zeroExtend 32) = true →
        decodeBytes (s.main.readList s.pc.toNat 4 ++ rest) = .ok (i, rest) → step s = exec i s))

/-! ## The instructions -/

/-- 47_t.md R152: a psr write replaces the psr and goes on, so the next step sees the new value; a value with a
reserved bit is refused; in user mode it raises Privilege Violation. The refusal and the privilege are the spec's own
decisions D9, D17 (logs 21, 27). -/
def Obligations.PsrWrite : Prop :=
  ∀ (s : State) (op : Opcode) (r1 : RegIx) (v : Byte) (e : Entry SysBody),
    findSys s.platform.opmap op r1 v = .entry e → e.body = .writePsr →
    (s.supervisor = true → psrRes (s.readReg r1) = 0 → hasNext s = true →
      exec (.sys op r1 v) s = .next { s with psr := s.readReg r1, pc := s.pc + 4 }) ∧
    (s.supervisor = true → psrRes (s.readReg r1) ≠ 0 → exec (.sys op r1 v) s = .refused .psrReserved) ∧
    (s.supervisor = false → exec (.sys op r1 v) s = takeException .privilegeViolation s)

/-- A psr read (the capability of 47_t.md R151) writes the psr to the register, in any mode its entry allows. No rule
demands such an instruction. -/
def Obligations.PsrRead : Prop :=
  ∀ (s : State) (op : Opcode) (r1 : RegIx) (v : Byte) (e : Entry SysBody),
    findSys s.platform.opmap op r1 v = .entry e → e.body = .readPsr → mayRun s e.supervisorOnly = true → hasNext s = true →
    exec (.sys op r1 v) s = .next { s.writeReg r1 s.psr with pc := s.pc + 4 }

/-- 47_t.md R153: a requested trap is `TrapEnter(v, prio, pc + 4)`, and fault_depth stays. The vector and the priority
are the entry's, which may compute them from the word's byte and its register (log 40). That a program goes on after it, in
the handler's state, is the model's choice (log 45), read from 47_t.md R150, which builds an entry from primitives and does not
say so; here it goes on with a psr write computed from the handler's psr. A value with a reserved bit is refused (10_state.md R23,
log 21). -/
def Obligations.RequestedTrap : Prop :=
  ∀ (s : State) (op : Opcode) (r1 : RegIx) (v : Byte) (e : Entry SysBody) (h : Pc),
    findSys s.platform.opmap op r1 v = .entry e → mayRun s e.supervisorOnly = true →
    hasNext s = true → s.platform.frame = .default → frameFits s = true →
    (∀ tv tp, e.body = .requestTrap tv tp →
      let env := [v.zeroExtend 32, s.readReg r1]
      handlerAt s (trapVectorValue tv env v) h = true →
      exec (.sys op r1 v) s = .next (entryState (trapPrioValue tp env (psrP s.psr)) (s.pc + 4) h s)) ∧
    (∀ tp f, e.body = .prog (.op (.requestTrap (.opnd 0) tp) (.op .readPsr (.op (.writePsr f) .done))) →
      s.supervisor = true → handlerAt s v h = true → tp.exprs.any (dividesByZero [v.zeroExtend 32]) = false →
      let t := entryState (trapPrioValue tp [v.zeroExtend 32] (psrP s.psr)) (s.pc + 4) h s
      dividesByZero [v.zeroExtend 32, t.psr] f = false →
      (psrRes (evalExpr [v.zeroExtend 32, t.psr] f) = 0 →
        exec (.sys op r1 v) s = .next { t with psr := evalExpr [v.zeroExtend 32, t.psr] f }) ∧
      (psrRes (evalExpr [v.zeroExtend 32, t.psr] f) ≠ 0 → exec (.sys op r1 v) s = .refused .psrReserved))

/-- 60_exceptions.md R177, 47_t.md R154, 20_memory.md R51: in user mode a psr write, a trap return, a data memory load or
store, a program with such a primitive in it and any entry marked supervisor-only raise Privilege Violation before anything
else. In the groups whose zero bits depend on the entry the word's zero bits are zero (60_exceptions.md R182 looks at them
first). J and B entries have no mark, since neither raises anything itself (41_j.md R115, 42_b.md R120). The spec's own
decision D17; the check of programs is the model's (logs 27, 28). -/
def Obligations.UserModePrivilegeViolations : Prop :=
  ∀ (s : State) (op : Opcode) (r1 r2 r3 r4 : RegIx) (v : Byte) (imm : BitVec 15) (imm20 : BitVec 20),
    s.supervisor = false →
    (∀ e, findSys s.platform.opmap op r1 v = .entry e →
      (e.body = .writePsr ∨ e.body = .trapReturn ∨ (∃ p, e.body = .prog p ∧ p.needsSupervisor = true)
        ∨ e.supervisorOnly = true) →
      exec (.sys op r1 v) s = takeException .privilegeViolation s) ∧
    (∀ e, findBulk s.platform.opmap op = .entry e → (e.body.enc = .three → imm.extractLsb' 0 10 = 0#10) →
      (e.body.prog.needsSupervisor = true ∨ e.supervisorOnly = true) →
      exec (.bulk op r1 r2 imm) s = takeException .privilegeViolation s) ∧
    (∀ e, findUJ s.platform.opmap op = .entry e →
      ((∃ p, e.body = .u p ∧ p.needsSupervisor = true) ∨ e.supervisorOnly = true) →
      exec (.uj op r1 imm20) s = takeException .privilegeViolation s) ∧
    (∀ e l, findUJ s.platform.opmap op = .entry e → e.body = .j l → e.supervisorOnly = false) ∧
    (∀ e, findBranch s.platform.opmap op = .entry e → e.supervisorOnly = false) ∧
    (∀ e, findLoad s.platform.opmap op = .entry e →
      ((∃ w x, e.body = .load .data w x) ∨ (∃ p, e.body = .alignedOffset p ∧ p.needsSupervisor = true)
        ∨ e.supervisorOnly = true) →
      exec (.load op r1 r2 imm) s = takeException .privilegeViolation s) ∧
    (∀ e, findArithImm s.platform.opmap op = .entry e → e.supervisorOnly = true →
      exec (.arithImm op r1 r2 imm) s = takeException .privilegeViolation s) ∧
    (∀ e, findArithReg s.platform.opmap op = .entry e → ((∃ f, e.body = .three f) → r4 = 0) → e.supervisorOnly = true →
      exec (.arithReg op r1 r2 r3 r4) s = takeException .privilegeViolation s) ∧
    (∀ e, findStore s.platform.opmap op = .entry e → (e.body.space = .data ∨ e.supervisorOnly = true) →
      exec (.store op r1 r2 imm) s = takeException .privilegeViolation s)

/-- 41_j.md R115 and R116: the target; the link as the entry gives it, a word computed from the instruction's address and the
offset in rd, or what a program of registers makes of the registers and the psr (log 36); while the entry gives none a word with rd = x0
jumps and any other is refused; while `REL_BASE` is unset J is refused (93_implementation_defined.md U27). The spec's
own decisions D4, D20, D32 (log 36); that a link is a word without a range check is the model's choice (log 46). -/
def Obligations.JumpGoesToItsTarget : Prop :=
  (relBaseBytes .zero = 0 ∧ relBaseBytes .four = 4) ∧
  ∀ (s : State) (op : Opcode) (rd : RegIx) (imm : BitVec 20) (e : Entry UJBody) (link : Option Prog),
    findUJ s.platform.opmap op = .entry e → e.body = .j link →
    (s.platform.relBase = none → exec (.uj op rd imm) s = .refused .relBaseUnset) ∧
    (∀ b, s.platform.relBase = some b →
      let target : Int := s.pc.toNat + relBaseBytes b + 4 * imm.toInt
      (∀ f, link = some (.op (.writeReg (.field .r1) f) .done) → 0 ≤ target → target ≤ 0xFFFFFF →
        exec (.uj op rd imm) s = .next { s.writeReg rd (evalExpr [s.pc.zeroExtend 32, scaledImm20 imm] f) with
          pc := BitVec.ofInt 24 target }) ∧
      (∀ l, link = some l → 0 ≤ target → target ≤ 0xFFFFFF →
        ∃ t, exec (.uj op rd imm) s = .next { t with pc := BitVec.ofInt 24 target }
          ∧ s.OnlyRegisters (progWrites ⟨rd, 0, 0, 0⟩ l) t) ∧
      (link = none → rd = 0 → 0 ≤ target → target ≤ 0xFFFFFF →
        exec (.uj op rd imm) s = .next { s with pc := BitVec.ofInt 24 target }) ∧
      (link = none → rd ≠ 0 → exec (.uj op rd imm) s = .refused .linkUnknown) ∧
      ((link ≠ none ∨ rd = 0) → (target < 0 ∨ 0xFFFFFF < target) → exec (.uj op rd imm) s = .refused .pcOutOfRange))

/-- The operands of entries that are programs, for entries that write a function of them: a U entry has the raw 20 bits
(40_u.md R110, 30_encoding.md R92); the aligned-offset entry has `sext_32(imm15) << 2`, and rd and rs1 by the field roles
(43_i.md R126); an M entry has the raw imm15 under ENCODING II and its third register under III (46_m.md R145); a T entry
has the vector byte (47_t.md R150). Each completes, but for a function that divides by 0 anywhere, in an `ite` arm not chosen too: that takes
Division by Zero, which is the model's choice (log 38) on top of the spec's inference for arithmetic, marked derived in 43_i.md
R131; no M entry has such a function. The form of the entries, and that imm15 is raw in M, is the model's (log 41). -/
def Obligations.EntriesWriteFunctionsOfTheirOperands : Prop :=
  ∀ (s : State) (op : Opcode) (r1 r2 : RegIx) (v : Byte) (imm : BitVec 15) (imm20 : BitVec 20) (name : String) (sup : Bool)
    (f : Expr), mayRun s sup = true → hasNext s = true →
    let write : Prog := .op (.writeReg (.field .r1) f) .done
    let goes (i : Instr) (rd : RegIx) (env : List Word) : Prop :=
      (dividesByZero env f = false → exec i s = .next { s.writeReg rd (evalExpr env f) with pc := s.pc + 4 }) ∧
      (dividesByZero env f = true → exec i s = takeException .divisionByZero s)
    (findUJ s.platform.opmap op = .entry ⟨name, sup, .u write⟩ →
      goes (.uj op r1 imm20) r1 [imm20.zeroExtend 32]) ∧
    (findLoad s.platform.opmap op = .entry ⟨name, sup, .alignedOffset (.op (.readReg (.field .r2)) write)⟩ →
      let rs := pairRoles s.platform.roles.i r1 r2
      goes (.load op r1 r2 imm) rs.1 [imm.signExtend 32 <<< 2, s.readReg rs.2]) ∧
    (findBulk s.platform.opmap op = .entry ⟨name, sup, ⟨.two, .op (.readReg (.field .r2)) write⟩⟩ →
      goes (.bulk op r1 r2 imm) r1 [imm.zeroExtend 32, s.readReg r2]) ∧
    (findBulk s.platform.opmap op
        = .entry ⟨name, sup, ⟨.three, .op (.readReg (.field .r2)) (.op (.readReg (.field .r3)) write)⟩⟩ →
      imm.extractLsb' 0 10 = 0#10 →
      goes (.bulk op r1 r2 imm) r1 [s.readReg r2, s.readReg (imm.extractLsb' 10 5)]) ∧
    (findSys s.platform.opmap op r1 v = .entry ⟨name, sup, .prog (.op (.readReg (.field .r1)) write)⟩ →
      goes (.sys op r1 v) r1 [v.zeroExtend 32, s.readReg r1])

/-- Every T, M, U or aligned-offset entry whose program touches registers only completes, at the next instruction, with
everything but the registers it writes as it was (47_t.md R150, 46_m.md R145, 40_u.md R110, 43_i.md R126, 10_state.md R15).
The form of the entries is the model's (logs 7, 41). -/
def Obligations.RegisterProgramsComplete : Prop :=
  ∀ (s : State) (op : Opcode) (r1 r2 : RegIx) (v : Byte) (low : BitVec 15) (imm : BitVec 20), hasNext s = true →
    (∀ e p, findSys s.platform.opmap op r1 v = .entry e → mayRun s e.supervisorOnly = true → e.body = .prog p →
      p.registerOnly = true →
      ∃ t, exec (.sys op r1 v) s = .next t ∧ s.OnlyRegisters (progWrites ⟨r1, 0, 0, 0⟩ p) t) ∧
    (∀ e, findBulk s.platform.opmap op = .entry e → mayRun s e.supervisorOnly = true →
      e.body.prog.registerOnly = true → (e.body.enc = .three → low.extractLsb' 0 10 = 0#10) →
      ∃ t, exec (.bulk op r1 r2 low) s = .next t
        ∧ s.OnlyRegisters (progWrites (bulkFields e.body.enc r1 r2 low) e.body.prog) t) ∧
    (∀ e p, findUJ s.platform.opmap op = .entry e → mayRun s e.supervisorOnly = true → e.body = .u p →
      p.registerOnly = true →
      ∃ t, exec (.uj op r1 imm) s = .next t ∧ s.OnlyRegisters (progWrites ⟨r1, 0, 0, 0⟩ p) t) ∧
    (∀ e p, findLoad s.platform.opmap op = .entry e → mayRun s e.supervisorOnly = true → e.body = .alignedOffset p →
      p.registerOnly = true →
      let rs := pairRoles s.platform.roles.i r1 r2
      ∃ t, exec (.load op r1 r2 low) s = .next t ∧ s.OnlyRegisters (progWrites ⟨rs.1, rs.2, 0, 0⟩ p) t)

/-- 46_m.md R145: an M entry under ENCODING III that stores one register at the address in another completes. The form
of the entry is the model's (logs 7, 41). -/
def Obligations.BulkStoresThroughARegister : Prop :=
  ∀ (s : State) (op : Opcode) (r1 r2 : RegIx) (low : BitVec 15) (e : Entry BulkBody) (w : Width),
    findBulk s.platform.opmap op = .entry e → mayRun s e.supervisorOnly = true → hasNext s = true →
    e.body = ⟨.three, .op (.readReg (.field .r1)) (.op (.readReg (.field .r2)) (.op (.store .main w (.opnd 0) (.opnd 1))
      .done))⟩ →
    low.extractLsb' 0 10 = 0#10 → mainPlain s w (s.readReg r1) = true →
    exec (.bulk op r1 r2 low) s = .next { s with
      main := s.main.writeVal s.platform.endian w (s.readReg r1).toNat (s.readReg r2), pc := s.pc + 4 }

/-- 46_m.md R145: an M entry goes to the next instruction with psr, requests, fault depth and status as they were, or takes
an exception. It takes it from the state before the instruction, with device reads and the dirty bits of page table entries
that walks find, by the directory as it stood unless the entry stores to data memory itself, and nothing else (60_exceptions.md
R170); the addresses that these walks are of are not stated here; unless the platform lets M entries keep what they commit (the model's switch, log 39), where it is
from what the entry has committed, which is registers and memory. What an abandoned entry leaves is log 17. -/
def Obligations.BulkGoesOnOrRaises : Prop :=
  ∀ (s t : State) (op : Opcode) (r1 r2 : RegIx) (low : BitVec 15) (e : Entry BulkBody),
    findBulk s.platform.opmap op = .entry e → exec (.bulk op r1 r2 low) s = .next t →
    (t = { s with
        regs := t.regs, ssp := t.ssp, usp := t.usp, pc := s.pc + 4, main := t.main, data := t.data,
        deviceLog := t.deviceLog, freeCount := t.freeCount }) ∨
    (∃ x b, takeException x b = .next t
      ∧ b = { s with
          regs := b.regs, ssp := b.ssp, usp := b.usp, main := b.main, data := b.data, deviceLog := b.deviceLog,
          freeCount := b.freeCount }
      ∧ ((e.body.prog.commits = false ∨ s.platform.bulkKeeps = false) →
          s.Noted (fun _ u => psrMmu s.psr = true ∧ u.platform = s.platform ∧ psrPdt u.psr = psrPdt s.psr
            ∧ (e.body.prog.storesData = false → u.data = s.data)) b
          ∧ b = { s with main := b.main, deviceLog := b.deviceLog, freeCount := b.freeCount }
          ∧ ((s.platform.mmuSetsDirty = false ∨ psrMmu s.psr = false) → b.main = s.main)))

/-- 42_b.md R120: the pc of both outcomes, and nothing else changes. A branch not taken at the last instruction of the address
space (10_state.md R15), a taken one whose target is out of range (20_memory.md R56), and a taken one with `REL_BASE` unset
(93_implementation_defined.md U27) are refused. That the two register fields are compared is the spec's inference, marked derived
in R121; the refusals and `REL_BASE`, 0 or 4, are the spec's own decisions D4 to D6 (logs 9, 20). -/
def Obligations.BranchGoesByItsCondition : Prop :=
  (relBaseBytes .zero = 0 ∧ relBaseBytes .four = 4) ∧
  ∀ (s : State) (op : Opcode) (r1 r2 : RegIx) (imm : BitVec 15) (e : Entry Expr),
    findBranch s.platform.opmap op = .entry e →
    let rs := pairRoles s.platform.roles.b r1 r2
    let taken := exprHolds [s.readReg rs.1, s.readReg rs.2] e.body
    (taken = false → hasNext s = true → exec (.branch op r1 r2 imm) s = .next { s with pc := s.pc + 4 }) ∧
    (taken = false → 0xFFFFFB < s.pc.toNat → exec (.branch op r1 r2 imm) s = .refused .pcOutOfRange) ∧
    (taken = true → s.platform.relBase = none → exec (.branch op r1 r2 imm) s = .refused .relBaseUnset) ∧
    (∀ b, taken = true → s.platform.relBase = some b →
      let target : Int := s.pc.toNat + relBaseBytes b + 4 * imm.toInt
      (0 ≤ target → target ≤ 0xFFFFFF →
        exec (.branch op r1 r2 imm) s = .next { s with pc := BitVec.ofInt 24 target }) ∧
      (target < 0 ∨ 0xFFFFFF < target → exec (.branch op r1 r2 imm) s = .refused .pcOutOfRange))

/-- 43_i.md R127: a load from main memory, untranslated: the extended value in rd, and nothing else but the pc.
43_i.md R129, what the extended value is: the 8n bits loaded, the other bits of rd filled by zero, so that the number stays, or by
sign, so that the signed number stays; a word is itself. -/
def Obligations.LoadFromMain : Prop :=
  (∀ (w : Width) (v : Word),
    let n := v.toNat % 2 ^ (8 * widthBytes w)
    (extend .zero w v).toNat = n
    ∧ (extend .sign w v).toInt = (if n < 2 ^ (8 * widthBytes w - 1) then (n : Int) else n - 2 ^ (8 * widthBytes w))
    ∧ ∀ x, extend x .word v = v) ∧
  ∀ (s : State) (op : Opcode) (r1 r2 : RegIx) (imm : BitVec 15) (e : Entry LoadBody) (w : Width) (x : Ext),
    findLoad s.platform.opmap op = .entry e → e.body = .load .main w x → mayRun s e.supervisorOnly = true →
    hasNext s = true →
    let rs := pairRoles s.platform.roles.i r1 r2
    let a := s.readReg rs.2 + imm.signExtend 32
    mainPlain s w a = true →
    exec (.load op r1 r2 imm) s = .next { s.writeReg rs.1 (extend x w (s.main.readVal s.platform.endian w a.toNat)) with
      pc := s.pc + 4 }

/-- 20_memory.md R45 to R48, R60, R66 while psr.mmu = 1: a read, a write or an instruction word of main memory is the physical
one, of the bytes at the address that the translation answers, from the state that it leaves; a translation that raises or is
refused makes the access so. A misaligned read or write is refused (R55), and before the walk, so that it raises nothing (log 47). 43_i.md R127, 44_s.md R135 with the MMU on or off: a load or store of main memory is `MemRead` or `MemWrite` at the base
plus the offset: one that raises takes the exception with no register, no data and no dirty bit written, one that is refused
is refused. A load raises Page Fault only, a store Page Fault, or Access Violation in user mode, and only while translated. A
load that completes leaves both memories; a store leaves data memory and every byte of main memory outside the bytes at the
address its access goes to and the dirty bit of its page. -/
def Obligations.MainAccessesGoThroughThePrimitives : Prop :=
  (∀ (k : Work) (w : Width) (a v : Word), psrMmu k.cur.psr = true → a.toNat < mainSize →
    (∀ kind pa k1, mmuTranslate kind (a.extractLsb' 0 24) k = .ok pa k1 →
      (kind = .read → a.toNat % widthBytes w = 0 → memRead w a k = physRead k1.cur.platform.endian w pa k1) ∧
      (kind = .write → a.toNat % widthBytes w = 0 → memWrite w a v k = physWrite w pa v k1) ∧
      (kind = .fetch → a.toNat % 4 = 0 → fetchAt (a.extractLsb' 0 24) k = physRead .big .word pa k1)) ∧
    (∀ kind e k1, mmuTranslate kind (a.extractLsb' 0 24) k = .raised e k1 →
      (kind = .read → a.toNat % widthBytes w = 0 → memRead w a k = .raised e k1) ∧
      (kind = .write → a.toNat % widthBytes w = 0 → memWrite w a v k = .raised e k1) ∧
      (kind = .fetch → a.toNat % 4 = 0 → fetchAt (a.extractLsb' 0 24) k = .raised e k1)) ∧
    (∀ kind r, mmuTranslate kind (a.extractLsb' 0 24) k = .refused r →
      (kind = .read → a.toNat % widthBytes w = 0 → memRead w a k = .refused r) ∧
      (kind = .write → a.toNat % widthBytes w = 0 → memWrite w a v k = .refused r) ∧
      (kind = .fetch → a.toNat % 4 = 0 → fetchAt (a.extractLsb' 0 24) k = .refused r)) ∧
    (a.toNat % widthBytes w ≠ 0 → memRead w a k = .refused .misaligned ∧ memWrite w a v k = .refused .misaligned)) ∧
  (∀ (k : Work) (e : Endian) (w : Width) (pa : Nat) (v : Word),
    (pa % widthBytes w = 0 → allInstalled k.cur.platform.mainInstalled pa (widthBytes w) = true →
      physRead e w pa k = .ok (k.cur.main.readVal e w pa) k
      ∧ physWrite w pa v k
        = .ok () { k with cur := { k.cur with main := k.cur.main.writeVal k.cur.platform.endian w pa v } }) ∧
    (pa % widthBytes w ≠ 0 → physRead e w pa k = .refused .misaligned ∧ physWrite w pa v k = .refused .misaligned) ∧
    (pa % widthBytes w = 0 → allInstalled k.cur.platform.mainInstalled pa (widthBytes w) = false →
      physRead e w pa k = .refused .notInstalled ∧ physWrite w pa v k = .refused .notInstalled)) ∧
  ∀ (s : State) (op : Opcode) (r1 r2 : RegIx) (imm : BitVec 15), hasNext s = true →
    (∀ e w x, findLoad s.platform.opmap op = .entry e → e.body = .load .main w x → mayRun s e.supervisorOnly = true →
      let rs := pairRoles s.platform.roles.i r1 r2
      let a := s.readReg rs.2 + imm.signExtend 32
      (∀ v k, memRead w a (Work.start s) = .ok v k →
        exec (.load op r1 r2 imm) s = .next { k.cur.writeReg rs.1 (extend x w v) with pc := s.pc + 4 }
        ∧ k.cur = { s with deviceLog := k.cur.deviceLog, freeCount := k.cur.freeCount }) ∧
      (∀ exc k, memRead w a (Work.start s) = .raised exc k → exec (.load op r1 r2 imm) s = takeException exc k.base
        ∧ k.base = { s with deviceLog := k.base.deviceLog, freeCount := k.base.freeCount }
        ∧ psrMmu s.psr = true ∧ exc = .pageFault) ∧
      (∀ r, memRead w a (Work.start s) = .refused r → exec (.load op r1 r2 imm) s = .refused r)) ∧
    (∀ e w, findStore s.platform.opmap op = .entry e → e.body = ⟨.main, w⟩ → mayRun s e.supervisorOnly = true →
      let rs := pairRoles s.platform.roles.s r1 r2
      let a := s.readReg rs.2 + imm.signExtend 32
      (∀ k, memWrite w a (s.readReg rs.1) (Work.start s) = .ok () k →
        exec (.store op r1 r2 imm) s = .next { k.cur with pc := s.pc + 4 }
        ∧ k.cur = { s with main := k.cur.main, deviceLog := k.cur.deviceLog, freeCount := k.cur.freeCount }
        ∧ ∀ b : Nat, writeTouches w a (Work.start s) b = false → k.cur.main.read b = s.main.read b) ∧
      (∀ exc k, memWrite w a (s.readReg rs.1) (Work.start s) = .raised exc k →
        exec (.store op r1 r2 imm) s = takeException exc k.base
        ∧ k.base = { s with deviceLog := k.base.deviceLog, freeCount := k.base.freeCount }
        ∧ psrMmu s.psr = true ∧ (exc = .pageFault ∨ (exc = .accessViolation ∧ s.supervisor = false))) ∧
      (∀ r, memWrite w a (s.readReg rs.1) (Work.start s) = .refused r → exec (.store op r1 r2 imm) s = .refused r))

/-- 43_i.md R128: in user mode Privilege Violation; in supervisor mode `DataRead` at the base plus the offset, which never
raises and changes nothing but the record of device reads. From storage that is the value stored; from device registers any
bytes, one read for each, logged, and the storage untouched. The device side is the spec's own decision D28 (log 32), its
bytes and its log are the model's (logs 5, 14). -/
def Obligations.LoadFromData : Prop :=
  ∀ (s : State) (op : Opcode) (r1 r2 : RegIx) (imm : BitVec 15) (e : Entry LoadBody) (w : Width) (x : Ext),
    findLoad s.platform.opmap op = .entry e → e.body = .load .data w x → hasNext s = true →
    let rs := pairRoles s.platform.roles.i r1 r2
    let a := s.readReg rs.2 + imm.signExtend 32
    (s.supervisor = false → exec (.load op r1 r2 imm) s = takeException .privilegeViolation s) ∧
    (s.supervisor = true →
      (∀ v k, dataRead w a (Work.start s) = .ok v k →
        k.cur = { s with deviceLog := k.cur.deviceLog, freeCount := k.cur.freeCount } ∧
        exec (.load op r1 r2 imm) s = .next { k.cur.writeReg rs.1 (extend x w v) with pc := s.pc + 4 }) ∧
      (∀ r, dataRead w a (Work.start s) = .refused r → exec (.load op r1 r2 imm) s = .refused r) ∧
      (dataSize ≤ a.toNat → exec (.load op r1 r2 imm) s = .refused .addressTooWide) ∧
      (∀ exc k, dataRead w a (Work.start s) ≠ .raised exc k) ∧
      (dataPlain s w a = true → noDevice s.platform a.toNat (widthBytes w) = true →
        exec (.load op r1 r2 imm) s = .next { s.writeReg rs.1 (extend x w (s.data.readVal s.platform.endian w a.toNat)) with
          pc := s.pc + 4 }) ∧
      (dataPlain s w a = true → allDevice s.platform a.toNat (widthBytes w) = true →
        ∃ bs : List Byte, bs.length = widthBytes w ∧
          exec (.load op r1 r2 imm) s = .next { s.writeReg rs.1 (extend x w (ofBytes s.platform.endian bs)) with
            pc := s.pc + 4, deviceLog := logReads a.toNat bs s.deviceLog, freeCount := s.freeCount + widthBytes w }))

/-- 43_i.md R130, R131: the result in rd with the sign-extended immediate as second operand; Division by Zero writes
nothing, and every entry raises it that is marked a division, or whose value is a quotient or remainder by the immediate, or
divides by 0 anywhere; an entry that states no result is refused, and so is one at the last instruction of the address space
(10_state.md R15). Division by Zero is the spec's inference, marked derived in R131; the refusals are logs 20 and 22, a division
inside an expression log 38. -/
def Obligations.ArithmeticWithAnImmediate : Prop :=
  ∀ (s : State) (op : Opcode) (r1 r2 : RegIx) (imm : BitVec 15) (e : Entry AluOp),
    findArithImm s.platform.opmap op = .entry e → mayRun s e.supervisorOnly = true →
    let rs := pairRoles s.platform.roles.i r1 r2
    let env := [s.readReg rs.2, imm.signExtend 32]
    (aluDividesByZero e.body env = false → exprHolds env e.body.defined = true → hasNext s = true →
      exec (.arithImm op r1 r2 imm) s = .next { s.writeReg rs.1 (evalExpr env e.body.value) with pc := s.pc + 4 }) ∧
    (aluDividesByZero e.body env = false → exprHolds env e.body.defined = true → 0xFFFFFB < s.pc.toNat →
      exec (.arithImm op r1 r2 imm) s = .refused .pcOutOfRange) ∧
    ((e.body.divides = true ∨ ∃ o x, o.divides = true ∧ e.body.value = .bin o x (.opnd 1)) → imm = 0 →
      exec (.arithImm op r1 r2 imm) s = takeException .divisionByZero s) ∧
    (aluDividesByZero e.body env = true → exec (.arithImm op r1 r2 imm) s = takeException .divisionByZero s) ∧
    (aluDividesByZero e.body env = false → exprHolds env e.body.defined = false →
      exec (.arithImm op r1 r2 imm) s = .refused .entrySilent)

/-- 45_r.md R140, R142, R143, ENCODING III; the zero bits are checked (30_encoding.md R94) and operands without a stated
result are refused (log 22). Division by Zero is raised by every entry that is marked a division, or whose value is a quotient
or remainder by x[rs2], or that divides by 0 anywhere (log 38); it is the spec's inference, marked derived in R143; the zero
bits are D8 (log 21). -/
def Obligations.ThreeRegisterArithmetic : Prop :=
  ∀ (s : State) (op : Opcode) (r1 r2 r3 r4 : RegIx) (e : Entry RegBody) (f : AluOp),
    findArithReg s.platform.opmap op = .entry e → e.body = .three f → mayRun s e.supervisorOnly = true →
    let rd := pickField s.platform.roles.three.rd r1 r2 r3 r4
    let a := s.readReg (pickField s.platform.roles.three.rs1 r1 r2 r3 r4)
    let b := s.readReg (pickField s.platform.roles.three.rs2 r1 r2 r3 r4)
    (r4 ≠ 0 → exec (.arithReg op r1 r2 r3 r4) s = .refused .zeroFieldNonzero) ∧
    (r4 = 0 → aluDividesByZero f [a, b] = false → exprHolds [a, b] f.defined = true → hasNext s = true →
      exec (.arithReg op r1 r2 r3 r4) s = .next { s.writeReg rd (evalExpr [a, b] f.value) with pc := s.pc + 4 }) ∧
    (r4 = 0 → (f.divides = true ∨ ∃ o x, o.divides = true ∧ f.value = .bin o x (.opnd 1)) → b = 0 →
      exec (.arithReg op r1 r2 r3 r4) s = takeException .divisionByZero s) ∧
    (r4 = 0 → aluDividesByZero f [a, b] = true → exec (.arithReg op r1 r2 r3 r4) s = takeException .divisionByZero s) ∧
    (r4 = 0 → aluDividesByZero f [a, b] = false → exprHolds [a, b] f.defined = false →
      exec (.arithReg op r1 r2 r3 r4) s = .refused .entrySilent)

/-- 45_r.md R141, R142, R143, ENCODING IV: the fourth register as a third source, as a second destination, and in a program.
A divisor of 0 raises Division by Zero (as R140; for a division inside an expression log 38), operands without a stated result are refused (log 22), two destinations in
one register are refused. What comes first where one result is silent and the other divides by 0 is not stated here (log 37).
The roles are those 45_r.md R141 calls possible, and a program of the entry's own (log 37, log 41). -/
def Obligations.FourRegisterArithmetic : Prop :=
  ∀ (s : State) (op : Opcode) (r1 r2 r3 r4 : RegIx) (e : Entry RegBody),
    findArithReg s.platform.opmap op = .entry e → mayRun s e.supervisorOnly = true →
    let rd := pickField s.platform.roles.four.rd r1 r2 r3 r4
    let x := pickField s.platform.roles.four.fourth r1 r2 r3 r4
    let a := s.readReg (pickField s.platform.roles.four.rs1 r1 r2 r3 r4)
    let b := s.readReg (pickField s.platform.roles.four.rs2 r1 r2 r3 r4)
    let c := s.readReg x
    (∀ f, e.body = .fourSource f →
      (aluDividesByZero f [a, b, c] = false → exprHolds [a, b, c] f.defined = true → hasNext s = true →
        exec (.arithReg op r1 r2 r3 r4) s = .next { s.writeReg rd (evalExpr [a, b, c] f.value) with pc := s.pc + 4 }) ∧
      ((f.divides = true ∨ ∃ o x, o.divides = true ∧ f.value = .bin o x (.opnd 1)) → b = 0 →
        exec (.arithReg op r1 r2 r3 r4) s = takeException .divisionByZero s) ∧
      (aluDividesByZero f [a, b, c] = true → exec (.arithReg op r1 r2 r3 r4) s = takeException .divisionByZero s) ∧
      (aluDividesByZero f [a, b, c] = false → exprHolds [a, b, c] f.defined = false →
        exec (.arithReg op r1 r2 r3 r4) s = .refused .entrySilent)) ∧
    (∀ f g, e.body = .fourDest f g →
      (rd = x → exec (.arithReg op r1 r2 r3 r4) s = .refused .sameDestination) ∧
      (rd ≠ x → aluDividesByZero f [a, b] = false → aluDividesByZero g [a, b] = false →
        exprHolds [a, b] f.defined = true → exprHolds [a, b] g.defined = true → hasNext s = true →
        exec (.arithReg op r1 r2 r3 r4) s
          = .next { (s.writeReg rd (evalExpr [a, b] f.value)).writeReg x (evalExpr [a, b] g.value) with pc := s.pc + 4 }) ∧
      (rd ≠ x → (aluDividesByZero f [a, b] = true ∨ aluDividesByZero g [a, b] = true) →
        exprHolds [a, b] f.defined = true → exprHolds [a, b] g.defined = true →
        exec (.arithReg op r1 r2 r3 r4) s = takeException .divisionByZero s) ∧
      (rd ≠ x → aluDividesByZero f [a, b] = false → aluDividesByZero g [a, b] = false →
        (exprHolds [a, b] f.defined = false ∨ exprHolds [a, b] g.defined = false) →
        exec (.arithReg op r1 r2 r3 r4) s = .refused .entrySilent)) ∧
    (∀ f, e.body = .fourProg (.op (.readReg (.field .r2)) (.op (.readReg (.field .r3)) (.op (.readReg (.field .r4))
        (.op (.writeReg (.field .r1) f) .done)))) →
      (dividesByZero [a, b, c] f = false → hasNext s = true →
        exec (.arithReg op r1 r2 r3 r4) s = .next { s.writeReg rd (evalExpr [a, b, c] f) with pc := s.pc + 4 }) ∧
      (dividesByZero [a, b, c] f = true → exec (.arithReg op r1 r2 r3 r4) s = takeException .divisionByZero s))

/-- 45_r.md R142: addition and subtraction are modulo 2^32, and nothing reports that a result did not fit. The spec's
inference, marked derived in R142. -/
def Obligations.AdditionAndSubtractionWrap : Prop :=
  ∀ (a b : Word),
    runAlu AluOp.add [a, b] = .value (BitVec.ofNat 32 (a.toNat + b.toNat))
    ∧ runAlu { divides := false, defined := .lit 1, value := .bin .sub (.opnd 0) (.opnd 1) } [a, b]
      = .value (BitVec.ofInt 32 (a.toInt - b.toInt))

/-- 44_s.md R135: a store to main memory, untranslated: the low n bytes at base plus offset, and every other byte of memory
and every register as before. -/
def Obligations.StoreToMain : Prop :=
  ∀ (s : State) (op : Opcode) (r1 r2 : RegIx) (imm : BitVec 15) (e : Entry StoreBody),
    findStore s.platform.opmap op = .entry e → e.body.space = .main → mayRun s e.supervisorOnly = true →
    hasNext s = true → Memory.wf mainSize s.main = true →
    let rs := pairRoles s.platform.roles.s r1 r2
    let a := s.readReg rs.2 + imm.signExtend 32
    mainPlain s e.body.width a = true →
    ∃ m, exec (.store op r1 r2 imm) s = .next { s with main := m, pc := s.pc + 4 }
      ∧ m.readVal s.platform.endian e.body.width a.toNat
        = s.readReg rs.1 &&& BitVec.ofNat 32 (2 ^ (8 * widthBytes e.body.width) - 1)
      ∧ ∀ b : Nat, (b < a.toNat ∨ a.toNat + widthBytes e.body.width ≤ b) → m.read b = s.main.read b

/-- 44_s.md R136: in user mode Privilege Violation; in supervisor mode `DataWrite` of the value at the base plus the offset,
which never raises and changes nothing but data memory and the record of device writes. Into storage that is the low n bytes
and nothing else; bytes for device registers are one event each, in address order, and no storage changes. The spec's
inference, marked derived in R136, and decision D28 (log 32); the log is the model's (log 14). -/
def Obligations.StoreToData : Prop :=
  ∀ (s : State) (op : Opcode) (r1 r2 : RegIx) (imm : BitVec 15) (e : Entry StoreBody),
    findStore s.platform.opmap op = .entry e → e.body.space = .data → hasNext s = true →
    Memory.wf dataSize s.data = true →
    let rs := pairRoles s.platform.roles.s r1 r2
    let a := s.readReg rs.2 + imm.signExtend 32
    let w := e.body.width
    (s.supervisor = false → exec (.store op r1 r2 imm) s = takeException .privilegeViolation s) ∧
    (s.supervisor = true →
      (∀ k, dataWrite w a (s.readReg rs.1) (Work.start s) = .ok () k →
        k.cur = { s with data := k.cur.data, deviceLog := k.cur.deviceLog } ∧
        exec (.store op r1 r2 imm) s = .next { k.cur with pc := s.pc + 4 }) ∧
      (∀ r, dataWrite w a (s.readReg rs.1) (Work.start s) = .refused r → exec (.store op r1 r2 imm) s = .refused r) ∧
      (dataSize ≤ a.toNat → exec (.store op r1 r2 imm) s = .refused .addressTooWide) ∧
      (∀ exc k, dataWrite w a (s.readReg rs.1) (Work.start s) ≠ .raised exc k) ∧
      (dataPlain s w a = true → noDevice s.platform a.toNat (widthBytes w) = true →
        ∃ m, exec (.store op r1 r2 imm) s = .next { s with data := m, pc := s.pc + 4 }
          ∧ m.readVal s.platform.endian w a.toNat = s.readReg rs.1 &&& BitVec.ofNat 32 (2 ^ (8 * widthBytes w) - 1)
          ∧ ∀ b : Nat, (b < a.toNat ∨ a.toNat + widthBytes w ≤ b) → m.read b = s.data.read b) ∧
      (dataPlain s w a = true → allDevice s.platform a.toNat (widthBytes w) = true →
        exec (.store op r1 r2 imm) s = .next { s with
          deviceLog := logWrites a.toNat (toBytes s.platform.endian w (s.readReg rs.1)) s.deviceLog, pc := s.pc + 4 }))

/-- 30_encoding.md R95, for every group: an unlisted pair is refused while the map is partial, and raises Illegal
Instruction once the map is declared complete. The spec's own decisions D17, D20; but for the all-zero word on a complete map,
which 47_t.md R150 and 93_implementation_defined.md U32 refuse: that it raises too is the model's choice (log 16). -/
def Obligations.UnassignedOpcodes : Prop :=
  ∀ (s : State) (i : Instr),
    (match i with
      | .sys op _ _ => s.platform.opmap.sys.lookup op = none
      | .bulk op _ _ _ => s.platform.opmap.bulk.lookup op = none
      | .uj op _ _ => s.platform.opmap.uj.lookup op = none
      | .branch op _ _ _ => s.platform.opmap.branch.lookup op = none
      | .load op _ _ _ => s.platform.opmap.load.lookup op = none
      | .arithImm op _ _ _ => s.platform.opmap.arithImm.lookup op = none
      | .arithReg op _ _ _ _ => s.platform.opmap.arithReg.lookup op = none
      | .store op _ _ _ => s.platform.opmap.store.lookup op = none) →
    (s.platform.opmap.rest = .declaredPartial → exec i s = .refused .noOpmapEntry) ∧
    (s.platform.opmap.rest = .declaredComplete → exec i s = takeException .illegalInstruction s)

/-! ## The whole machine -/

/-- 20_memory.md R51, 60_exceptions.md R187: whatever the platform and the entry, no instruction changes data memory
in user mode. The privilege check of entries that are programs is the model's (log 28). -/
def Obligations.UserModeCannotChangeDataMemory : Prop :=
  ∀ (i : Instr) (s t : State), s.supervisor = false → exec i s = .next t → t.data = s.data

/-- 10_state.md R24, R12, 60_exceptions.md R185, R187: in user mode an instruction leaves the psr and the supervisor's
stack pointer as they are, or it makes a trap entry with the psr, the supervisor's stack pointer and the data memory from
before the instruction. After that entry the psr changes by its priority only; and the next state is the entry's (with the
fault counted or not) but for an entry program that goes on after it. The spec's own decision D17 (logs 27, 28); that a
program may go on is read from 47_t.md R150 (log 45). -/
def Obligations.UserModeChangesThePsrByTrapEntryOnly : Prop :=
  ∀ (i : Instr) (s t : State), s.supervisor = false → exec i s = .next t →
    (t.psr = s.psr ∧ t.ssp = s.ssp) ∨
    (∃ w w' v q saved, w.cur.psr = s.psr ∧ w.cur.ssp = s.ssp ∧ w.cur.data = s.data ∧ w.cur.platform = s.platform
      ∧ trapEnterIn v q saved w = .entered w' ∧ w'.cur.psr = psrWithP (psrWithS s.psr true) q
      ∧ t.psr = psrWithP w'.cur.psr (psrP t.psr) ∧ t.supervisor = true
      ∧ (entersLast s.platform.opmap i = true → ∃ k, t = w'.cur.countFault k))

/-- 60_exceptions.md R185: supervisor mode is left only by writing the psr or returning, so by no branch, jump, load, store,
M or arithmetic instruction, and by no T, U or aligned-offset entry whose program has no supervisor-only primitive; their
exceptions included. -/
def Obligations.PlainInstructionsStayInSupervisorMode : Prop :=
  ∀ (s t : State) (i : Instr), s.supervisor = true → exec i s = .next t →
    (match i with
      | .sys op r1 v => ∀ e, findSys s.platform.opmap op r1 v = .entry e → sysNeedsSupervisor e.body = false
      | .bulk _ _ _ _ => True
      | .uj op _ _ => ∀ e p, findUJ s.platform.opmap op = .entry e → e.body = .u p → p.needsSupervisor = false
      | .branch _ _ _ _ => True
      | .load op _ _ _ => ∀ e p, findLoad s.platform.opmap op = .entry e → e.body = .alignedOffset p →
          p.needsSupervisor = false
      | .arithImm _ _ _ _ => True
      | .arithReg _ _ _ _ _ => True
      | .store _ _ _ _ => True) →
    t.supervisor = true
end

