-- ==== Sys2Proof/Laws/Memory.lean ====
section
/-! SUPPORT. One memory: reading what was written, leaving the rest alone, the canonical form, and that canonical memories
with the same bytes are the same list. -/

namespace Sys2Proof.Machine

theorem Memory.wfFrom_weaken {size lo lo' : Nat} {m : Memory} (h : Memory.wfFrom size lo m = true) (hl : lo' ≤ lo) :
    Memory.wfFrom size lo' m = true := by
  cases m with
  | nil => rfl
  | cons c rest =>
    obtain ⟨k, b⟩ := c
    simp only [Memory.wfFrom, Bool.and_eq_true, decide_eq_true_eq] at h ⊢
    exact ⟨⟨⟨by omega, h.1.1.2⟩, h.1.2⟩, h.2⟩

/-- Below its first address a canonical memory reads as unlisted. -/
theorem Memory.read_below {size lo a : Nat} {m : Memory} (h : Memory.wfFrom size lo m = true) (ha : a < lo) :
    Memory.read m a = Memory.unlisted := by
  induction m generalizing lo with
  | nil => rfl
  | cons c rest ih =>
    obtain ⟨k, b⟩ := c
    simp only [Memory.wfFrom, Bool.and_eq_true, decide_eq_true_eq] at h
    simp only [Memory.read]
    rw [if_neg (by omega)]
    exact ih h.2 (by omega)

/-- A write to an address read afterwards, in canonical memories. -/
theorem Memory.read_write {size lo : Nat} {m : Memory} (h : Memory.wfFrom size lo m = true) (a b : Nat) (v : Byte) :
    Memory.read (Memory.write m a v) b = if b = a then v else Memory.read m b := by
  induction m generalizing lo with
  | nil =>
    simp only [Memory.write]
    split
    · simp only [Memory.read]; split <;> simp_all
    · simp only [Memory.read]; by_cases hb : b = a
      · simp [hb]
      · rw [if_neg (fun h => hb h.symm), if_neg hb]
  | cons c rest ih =>
    obtain ⟨k, x⟩ := c
    have h0 := h
    simp only [Memory.wfFrom, Bool.and_eq_true, decide_eq_true_eq] at h
    simp only [Memory.write]
    by_cases hlt : a < k
    · rw [if_pos hlt]
      by_cases hv : v = Memory.unlisted
      · rw [if_pos hv]
        by_cases hb : b = a
        · subst hb
          rw [if_pos rfl, hv]
          simp only [Memory.read]
          rw [if_neg (by omega)]
          exact Memory.read_below h.2 (by omega)
        · rw [if_neg hb]
      · rw [if_neg hv]
        by_cases hb : b = a
        · simp [Memory.read, hb]
        · rw [if_neg hb, Memory.read, if_neg (fun e => hb e.symm)]
    · rw [if_neg hlt]
      by_cases hk : a = k
      · rw [if_pos hk]
        subst hk
        by_cases hv : v = Memory.unlisted
        · rw [if_pos hv]
          by_cases hb : b = a
          · subst hb
            rw [if_pos rfl, hv]
            exact Memory.read_below h.2 (by omega)
          · rw [if_neg hb, Memory.read, if_neg (fun e => hb e.symm)]
        · rw [if_neg hv]
          by_cases hb : b = a
          · simp [Memory.read, hb]
          · rw [if_neg hb, Memory.read, if_neg (fun e => hb e.symm), Memory.read, if_neg (fun e => hb e.symm)]
      · rw [if_neg hk]
        simp only [Memory.read]
        by_cases hb : k = b
        · rw [if_pos hb, if_pos hb, if_neg (by omega)]
        · rw [if_neg hb, if_neg hb, ih h.2]

/-- A write to another address is not seen, canonical or not. -/
theorem Memory.read_write_of_ne (m : Memory) {a b : Nat} (v : Byte) (hb : b ≠ a) :
    Memory.read (Memory.write m a v) b = Memory.read m b := by
  have hab : ¬ a = b := fun h => hb h.symm
  induction m with
  | nil =>
    unfold Memory.write
    split
    · rfl
    · simp [Memory.read, hab]
  | cons c rest ih =>
    obtain ⟨k, x⟩ := c
    unfold Memory.write
    split
    · split
      · rfl
      · simp [Memory.read, hab]
    · split
      · next hk =>
        subst hk
        split
        · simp [Memory.read, hab]
        · simp [Memory.read, hab]
      · simp [Memory.read, ih]

theorem Memory.read_writeList_of_outside (m : Memory) (a : Nat) (bs : List Byte) {b : Nat}
    (hb : b < a ∨ a + bs.length ≤ b) : Memory.read (Memory.writeList m a bs) b = Memory.read m b := by
  induction bs generalizing m a with
  | nil => rfl
  | cons c bs ih =>
    simp only [List.length_cons] at hb
    rw [Memory.writeList, ih _ _ (by omega), Memory.read_write_of_ne _ _ (by omega)]

/-- A write keeps the canonical form. -/
theorem Memory.wfFrom_write {size lo : Nat} {m : Memory} (h : Memory.wfFrom size lo m = true) {a : Nat} (v : Byte)
    (hlo : lo ≤ a) (ha : a < size) : Memory.wfFrom size lo (Memory.write m a v) = true := by
  induction m generalizing lo with
  | nil =>
    simp only [Memory.write]
    split
    · rfl
    · next hv => simp [Memory.wfFrom, hlo, ha, hv]
  | cons c rest ih =>
    obtain ⟨k, x⟩ := c
    have h0 := h
    simp only [Memory.wfFrom, Bool.and_eq_true, decide_eq_true_eq] at h
    simp only [Memory.write]
    split
    · next hlt =>
      split
      · exact h0
      · next hv =>
        simp only [Memory.wfFrom, Bool.and_eq_true, decide_eq_true_eq, bne_iff_ne]
        exact ⟨⟨⟨hlo, ha⟩, hv⟩, ⟨⟨by omega, h.1.1.2⟩, by simpa using h.1.2⟩, h.2⟩
    · next hlt =>
      split
      · next hk =>
        split
        · exact Memory.wfFrom_weaken h.2 (by omega)
        · next hv =>
          simp only [Memory.wfFrom, Bool.and_eq_true, decide_eq_true_eq, bne_iff_ne]
          exact ⟨⟨⟨hlo, ha⟩, hv⟩, by subst hk; exact h.2⟩
      · next hk =>
        simp only [Memory.wfFrom, Bool.and_eq_true, decide_eq_true_eq]
        exact ⟨h.1, ih h.2 (by omega)⟩

theorem Memory.wf_write {size : Nat} {m : Memory} (h : Memory.wf size m = true) {a : Nat} (v : Byte) (ha : a < size) :
    Memory.wf size (Memory.write m a v) = true :=
  Memory.wfFrom_write h v (Nat.zero_le _) ha

/-- Storing bytes keeps the canonical form. -/
theorem Memory.wf_writeList {size : Nat} {m : Memory} (h : Memory.wf size m = true) (a : Nat) (bs : List Byte)
    (ha : a + bs.length ≤ size) : Memory.wf size (Memory.writeList m a bs) = true := by
  induction bs generalizing m a with
  | nil => exact h
  | cons b bs ih =>
    simp only [List.length_cons] at ha
    exact ih (Memory.wf_write h b (by omega)) (a + 1) (by omega)

/-- Bytes stored and then read one at a time: inside the run the stored byte, outside it what was there. -/
theorem Memory.read_writeList {size : Nat} {m : Memory} (h : Memory.wf size m = true) (a : Nat) (bs : List Byte)
    (ha : a + bs.length ≤ size) (b : Nat) :
    Memory.read (Memory.writeList m a bs) b
      = if a ≤ b ∧ b < a + bs.length then bs.getD (b - a) 0 else Memory.read m b := by
  induction bs generalizing m a with
  | nil => simp [Memory.writeList]
  | cons c bs ih =>
    simp only [List.length_cons] at ha
    simp only [Memory.writeList]
    rw [ih (Memory.wf_write h c (by omega)) (a + 1) (by omega), Memory.read_write h]
    by_cases hb : b = a
    · subst hb
      simp
    · by_cases hin : a + 1 ≤ b ∧ b < a + 1 + bs.length
      · rw [if_pos hin, if_pos (by simp only [List.length_cons]; omega)]
        obtain ⟨d, rfl⟩ : ∃ d, b = a + 1 + d := ⟨b - (a + 1), by omega⟩
        rw [show a + 1 + d - (a + 1) = d by omega, show a + 1 + d - a = d + 1 by omega]
        simp
      · rw [if_neg hin, if_neg hb, if_neg (by simp only [List.length_cons]; omega)]

@[simp] theorem Memory.readList_length (m : Memory) (a n : Nat) : (Memory.readList m a n).length = n := by
  induction n generalizing a with
  | zero => rfl
  | succ n ih => simp [Memory.readList, ih]

@[simp] theorem bigBytes_length (w : Width) (v : Word) : (bigBytes w v).length = widthBytes w := by
  cases w <;> rfl

@[simp] theorem toBytes_length (e : Endian) (w : Width) (v : Word) : (toBytes e w v).length = widthBytes w := by
  cases e <;> simp [toBytes]

theorem Memory.readList_congr {m m' : Memory} {a n : Nat}
    (h : ∀ b, a ≤ b → b < a + n → Memory.read m b = Memory.read m' b) :
    Memory.readList m a n = Memory.readList m' a n := by
  induction n generalizing a with
  | zero => rfl
  | succ n ih =>
    simp only [Memory.readList]
    rw [h a (by omega) (by omega), ih (fun b h1 h2 => h b (by omega) (by omega))]

/-- A run read back whole. -/
theorem Memory.readList_writeList {size : Nat} {m : Memory} (h : Memory.wf size m = true) (a : Nat) (bs : List Byte)
    (ha : a + bs.length ≤ size) : Memory.readList (Memory.writeList m a bs) a bs.length = bs := by
  induction bs generalizing m a with
  | nil => rfl
  | cons b bs ih =>
    simp only [List.length_cons] at ha ⊢
    simp only [Memory.readList, Memory.writeList]
    rw [ih (Memory.wf_write h b (by omega)) (a + 1) (by omega),
      Memory.read_writeList (Memory.wf_write h b (by omega)) (a + 1) bs (by omega), if_neg (by omega),
      Memory.read_write h, if_pos rfl]

/-- A run that the stored run does not meet reads as before. -/
theorem Memory.readList_writeList_of_disjoint {size : Nat} {m : Memory} (h : Memory.wf size m = true) (a : Nat)
    (bs : List Byte) (ha : a + bs.length ≤ size) (b n : Nat) (hd : b + n ≤ a ∨ a + bs.length ≤ b) :
    Memory.readList (Memory.writeList m a bs) b n = Memory.readList m b n :=
  Memory.readList_congr fun c h1 h2 => by
    rw [Memory.read_writeList h a bs ha, if_neg (by omega)]

/-- A canonical memory is determined by its bytes. -/
theorem Memory.ext_of_wfFrom {size lo : Nat} {m m' : Memory} (h : Memory.wfFrom size lo m = true)
    (h' : Memory.wfFrom size lo m' = true) (hr : ∀ a, Memory.read m a = Memory.read m' a) : m = m' := by
  induction m generalizing m' lo with
  | nil =>
    cases m' with
    | nil => rfl
    | cons c rest =>
      obtain ⟨k, b⟩ := c
      simp only [Memory.wfFrom, Bool.and_eq_true, bne_iff_ne] at h'
      have := hr k
      simp only [Memory.read, if_pos] at this
      exact absurd this.symm h'.1.2
  | cons c rest ih =>
    obtain ⟨k, b⟩ := c
    have hh := h
    simp only [Memory.wfFrom, Bool.and_eq_true, bne_iff_ne, decide_eq_true_eq] at h
    cases m' with
    | nil =>
      have := hr k
      simp only [Memory.read, if_pos] at this
      exact absurd this h.1.2
    | cons c' rest' =>
      obtain ⟨k', b'⟩ := c'
      have hh' := h'
      simp only [Memory.wfFrom, Bool.and_eq_true, bne_iff_ne, decide_eq_true_eq] at h'
      have hk : k = k' := by
        rcases Nat.lt_trichotomy k k' with hlt | heq | hgt
        · have := hr k
          simp only [Memory.read, if_pos] at this
          rw [if_neg (by omega), Memory.read_below h'.2 (by omega)] at this
          exact absurd this h.1.2
        · exact heq
        · have := hr k'
          simp only [Memory.read, if_pos] at this
          rw [if_neg (by omega), Memory.read_below h.2 (by omega)] at this
          exact absurd this.symm h'.1.2
      subst hk
      have hb : b = b' := by
        have := hr k
        simpa [Memory.read] using this
      subst hb
      congr 1
      refine ih h.2 h'.2 fun a => ?_
      rcases Nat.lt_or_ge k a with hlt | hge
      · have := hr a
        simp only [Memory.read] at this
        rwa [if_neg (by omega), if_neg (by omega)] at this
      · rw [Memory.read_below h.2 (by omega), Memory.read_below h'.2 (by omega)]

/-! ## Values and bytes -/

/-- The low 8n bits of a value. -/
def lowBits (w : Width) (v : Word) : Word :=
  match w with
  | .byte => (v.extractLsb' 0 8).zeroExtend 32
  | .half => (v.extractLsb' 0 16).zeroExtend 32
  | .word => v

theorem ofBigBytes_bigBytes (w : Width) (v : Word) : ofBigBytes (bigBytes w v) = lowBits w v := by
  cases w <;> simp only [bigBytes, ofBigBytes, List.foldl, lowBits] <;>
    (ext i hi; simp [BitVec.getElem_or, BitVec.getElem_shiftLeft]; try grind)

theorem ofBytes_toBytes (e : Endian) (w : Width) (v : Word) : ofBytes e (toBytes e w v) = lowBits w v := by
  cases e <;> simp [ofBytes, toBytes, ofBigBytes_bigBytes]

/-- A value stored and read at the same width. -/
theorem Memory.readVal_writeVal {size : Nat} {m : Memory} (h : Memory.wf size m = true) (e : Endian) (w : Width) (a : Nat)
    (v : Word) (ha : a + widthBytes w ≤ size) : (Memory.writeVal m e w a v).readVal e w a = lowBits w v := by
  have := Memory.readList_writeList h a (toBytes e w v) (by simpa using ha)
  rw [toBytes_length] at this
  rw [Memory.readVal, Memory.writeVal, this, ofBytes_toBytes]

theorem Memory.wf_writeVal {size : Nat} {m : Memory} (h : Memory.wf size m = true) (e : Endian) (w : Width) (a : Nat)
    (v : Word) (ha : a + widthBytes w ≤ size) : Memory.wf size (Memory.writeVal m e w a v) = true :=
  Memory.wf_writeList h a _ (by simpa using ha)

/-- Every byte outside a stored value reads as before. -/
theorem Memory.read_writeVal_of_outside (m : Memory) (e : Endian) (w : Width) (a : Nat) (v : Word) {b : Nat}
    (hb : b < a ∨ a + widthBytes w ≤ b) : Memory.read (Memory.writeVal m e w a v) b = Memory.read m b :=
  Memory.read_writeList_of_outside m a _ (by rw [toBytes_length]; exact hb)

end Sys2Proof.Machine
end

