-- ==== Sys2Proof/Laws/Psr.lean ====
section
/-! SUPPORT. The psr bit by bit after `s` or `p` is replaced, and so field by field (10_state.md R16). -/

namespace Sys2Proof.Machine

theorem psrWithS_getLsbD (w : Word) (b : Bool) (i : Nat) :
    (psrWithS w b).getLsbD i = if i < 31 then w.getLsbD i else (decide (i = 31) && b) := by
  unfold psrWithS
  rw [BitVec.getLsbD_cast, BitVec.getLsbD_append]
  split
  · simp [*]
  · by_cases h : i = 31
    · subst h; simp
    · have : i - 31 ≠ 0 := by omega
      simp [h, this]

theorem psrWithP_getLsbD (w : Word) (q : BitVec 3) (i : Nat) :
    (psrWithP w q).getLsbD i = if 26 ≤ i ∧ i < 29 then q.getLsbD (i - 26) else w.getLsbD i := by
  unfold psrWithP
  rw [BitVec.getLsbD_cast, BitVec.getLsbD_append, BitVec.getLsbD_append]
  simp only [BitVec.getLsbD_extractLsb']
  by_cases h : i < 26
  · rw [if_pos h, if_neg (by omega)]; simp [h]
  · rw [if_neg h]
    by_cases h2 : i < 29
    · rw [if_pos (by omega), if_pos (by omega)]
    · rw [if_neg (by omega), if_neg (by omega)]
      by_cases h3 : i < 32
      · rw [show 29 + (i - 26 - 3) = i by omega, decide_eq_true (by omega), Bool.true_and]
      · rw [BitVec.getLsbD_of_ge w i (by omega), BitVec.getLsbD_of_ge w _ (by omega), Bool.and_false]

@[simp] theorem psrWithS_s (w : Word) (b : Bool) : psrS (psrWithS w b) = b := by
  simp only [psrS, psrWithS_getLsbD]; rfl

@[simp] theorem psrWithS_irq (w : Word) (b : Bool) : psrIrq (psrWithS w b) = psrIrq w := by
  simp only [psrIrq, psrWithS_getLsbD]; rfl

@[simp] theorem psrWithS_mmu (w : Word) (b : Bool) : psrMmu (psrWithS w b) = psrMmu w := by
  simp only [psrMmu, psrWithS_getLsbD]; rfl

@[simp] theorem psrWithS_p (w : Word) (b : Bool) : psrP (psrWithS w b) = psrP w := by
  unfold psrP
  ext i hi
  simp only [BitVec.getElem_extractLsb', psrWithS_getLsbD]
  rw [if_pos (by omega)]

@[simp] theorem psrWithS_ivt (w : Word) (b : Bool) : psrIvt (psrWithS w b) = psrIvt w := by
  unfold psrIvt
  ext i hi
  simp only [BitVec.getElem_extractLsb', psrWithS_getLsbD]
  rw [if_pos (by omega)]

@[simp] theorem psrWithS_pdt (w : Word) (b : Bool) : psrPdt (psrWithS w b) = psrPdt w := by
  unfold psrPdt
  ext i hi
  simp only [BitVec.getElem_extractLsb', psrWithS_getLsbD]
  rw [if_pos (by omega)]

@[simp] theorem psrWithS_res (w : Word) (b : Bool) : psrRes (psrWithS w b) = psrRes w := by
  unfold psrRes
  ext i hi
  simp only [BitVec.getElem_extractLsb', psrWithS_getLsbD]
  rw [if_pos (by omega)]

@[simp] theorem psrWithP_s (w : Word) (q : BitVec 3) : psrS (psrWithP w q) = psrS w := by
  simp only [psrS, psrWithP_getLsbD]; rfl

@[simp] theorem psrWithP_irq (w : Word) (q : BitVec 3) : psrIrq (psrWithP w q) = psrIrq w := by
  simp only [psrIrq, psrWithP_getLsbD]; rfl

@[simp] theorem psrWithP_mmu (w : Word) (q : BitVec 3) : psrMmu (psrWithP w q) = psrMmu w := by
  simp only [psrMmu, psrWithP_getLsbD]; rfl

@[simp] theorem psrWithP_p (w : Word) (q : BitVec 3) : psrP (psrWithP w q) = q := by
  unfold psrP
  ext i hi
  simp only [BitVec.getElem_extractLsb', psrWithP_getLsbD]
  rw [if_pos (by omega), Nat.add_sub_cancel_left, BitVec.getLsbD_eq_getElem hi]

@[simp] theorem psrWithP_ivt (w : Word) (q : BitVec 3) : psrIvt (psrWithP w q) = psrIvt w := by
  unfold psrIvt
  ext i hi
  simp only [BitVec.getElem_extractLsb', psrWithP_getLsbD]
  rw [if_neg (by omega)]

@[simp] theorem psrWithP_pdt (w : Word) (q : BitVec 3) : psrPdt (psrWithP w q) = psrPdt w := by
  unfold psrPdt
  ext i hi
  simp only [BitVec.getElem_extractLsb', psrWithP_getLsbD]
  rw [if_neg (by omega)]

@[simp] theorem psrWithP_res (w : Word) (q : BitVec 3) : psrRes (psrWithP w q) = psrRes w := by
  unfold psrRes
  ext i hi
  simp only [BitVec.getElem_extractLsb', psrWithP_getLsbD]
  rw [if_neg (by omega)]

/-- Writing the value a field has is no change. -/
theorem psrWithP_self (w : Word) : psrWithP w (psrP w) = w := by
  refine BitVec.eq_of_getLsbD_eq fun i _ => ?_
  rw [psrWithP_getLsbD]
  split
  · next h =>
    unfold psrP
    rw [BitVec.getLsbD_extractLsb', decide_eq_true (by omega), Bool.true_and, show 26 + (i - 26) = i by omega]
  · rfl

theorem psrWithS_self {w : Word} (h : psrS w = true) : psrWithS w true = w := by
  refine BitVec.eq_of_getLsbD_eq fun i hi => ?_
  rw [psrWithS_getLsbD]
  split
  · rfl
  · next hn =>
    have : i = 31 := by omega
    subst this
    exact h.symm

/-- The last write of a field counts. -/
theorem psrWithP_withP (w : Word) (p q : BitVec 3) : psrWithP (psrWithP w p) q = psrWithP w q := by
  refine BitVec.eq_of_getLsbD_eq fun i _ => ?_
  simp only [psrWithP_getLsbD]
  split <;> rfl

/-- Every entry of the vector table lies inside data memory (60_exceptions.md R164). -/
theorem ivtEntryAddr_lt (w : Word) (v : Byte) : ivtEntryAddr w v + 4 ≤ dataSize := by
  have h1 := (psrIvt w).isLt
  have h2 := v.isLt
  unfold ivtEntryAddr ivtBase dataSize
  omega

@[simp] theorem ivtEntryAddr_withP (w : Word) (q : BitVec 3) (v : Byte) :
    ivtEntryAddr (psrWithP w q) v = ivtEntryAddr w v := by
  simp [ivtEntryAddr, ivtBase]

@[simp] theorem ivtEntryAddr_withS (w : Word) (b : Bool) (v : Byte) :
    ivtEntryAddr (psrWithS w b) v = ivtEntryAddr w v := by
  simp [ivtEntryAddr, ivtBase]

end Sys2Proof.Machine
end

