-- ==== Sys2Proof/Laws/State.lean ====
section
/-! SUPPORT. One lemma per field and named update of State: what the update leaves alone, and what it sets. -/

namespace Sys2Proof.Machine

/-! ## Writing a register -/

@[simp] theorem writeReg_pc (s : State) (i : RegIx) (v : Word) : (s.writeReg i v).pc = s.pc := by
  unfold State.writeReg; split <;> (try split) <;> (try split) <;> rfl
@[simp] theorem writeReg_psr (s : State) (i : RegIx) (v : Word) : (s.writeReg i v).psr = s.psr := by
  unfold State.writeReg; split <;> (try split) <;> (try split) <;> rfl
@[simp] theorem writeReg_main (s : State) (i : RegIx) (v : Word) : (s.writeReg i v).main = s.main := by
  unfold State.writeReg; split <;> (try split) <;> (try split) <;> rfl
@[simp] theorem writeReg_data (s : State) (i : RegIx) (v : Word) : (s.writeReg i v).data = s.data := by
  unfold State.writeReg; split <;> (try split) <;> (try split) <;> rfl
@[simp] theorem writeReg_pending (s : State) (i : RegIx) (v : Word) : (s.writeReg i v).pending = s.pending := by
  unfold State.writeReg; split <;> (try split) <;> (try split) <;> rfl
@[simp] theorem writeReg_faultDepth (s : State) (i : RegIx) (v : Word) : (s.writeReg i v).faultDepth = s.faultDepth := by
  unfold State.writeReg; split <;> (try split) <;> (try split) <;> rfl
@[simp] theorem writeReg_status (s : State) (i : RegIx) (v : Word) : (s.writeReg i v).status = s.status := by
  unfold State.writeReg; split <;> (try split) <;> (try split) <;> rfl
@[simp] theorem writeReg_schedule (s : State) (i : RegIx) (v : Word) : (s.writeReg i v).schedule = s.schedule := by
  unfold State.writeReg; split <;> (try split) <;> (try split) <;> rfl
@[simp] theorem writeReg_deviceLog (s : State) (i : RegIx) (v : Word) : (s.writeReg i v).deviceLog = s.deviceLog := by
  unfold State.writeReg; split <;> (try split) <;> (try split) <;> rfl
@[simp] theorem writeReg_freeCount (s : State) (i : RegIx) (v : Word) : (s.writeReg i v).freeCount = s.freeCount := by
  unfold State.writeReg; split <;> (try split) <;> (try split) <;> rfl
@[simp] theorem writeReg_platform (s : State) (i : RegIx) (v : Word) : (s.writeReg i v).platform = s.platform := by
  unfold State.writeReg; split <;> (try split) <;> (try split) <;> rfl

/-! ## The dirty bit -/

@[simp] theorem setDirty_regs (s : State) (a : Nat) : (s.setDirty a).regs = s.regs := rfl
@[simp] theorem setDirty_ssp (s : State) (a : Nat) : (s.setDirty a).ssp = s.ssp := rfl
@[simp] theorem setDirty_usp (s : State) (a : Nat) : (s.setDirty a).usp = s.usp := rfl
@[simp] theorem setDirty_pc (s : State) (a : Nat) : (s.setDirty a).pc = s.pc := rfl
@[simp] theorem setDirty_psr (s : State) (a : Nat) : (s.setDirty a).psr = s.psr := rfl
@[simp] theorem setDirty_data (s : State) (a : Nat) : (s.setDirty a).data = s.data := rfl
@[simp] theorem setDirty_pending (s : State) (a : Nat) : (s.setDirty a).pending = s.pending := rfl
@[simp] theorem setDirty_faultDepth (s : State) (a : Nat) : (s.setDirty a).faultDepth = s.faultDepth := rfl
@[simp] theorem setDirty_status (s : State) (a : Nat) : (s.setDirty a).status = s.status := rfl
@[simp] theorem setDirty_schedule (s : State) (a : Nat) : (s.setDirty a).schedule = s.schedule := rfl
@[simp] theorem setDirty_deviceLog (s : State) (a : Nat) : (s.setDirty a).deviceLog = s.deviceLog := rfl
@[simp] theorem setDirty_freeCount (s : State) (a : Nat) : (s.setDirty a).freeCount = s.freeCount := rfl
@[simp] theorem setDirty_platform (s : State) (a : Nat) : (s.setDirty a).platform = s.platform := rfl

/-! ## A device read -/

@[simp] theorem logRead_regs (s : State) (a : Nat) (b : Byte) (n : Nat) : (s.logRead a b n).regs = s.regs := rfl
@[simp] theorem logRead_ssp (s : State) (a : Nat) (b : Byte) (n : Nat) : (s.logRead a b n).ssp = s.ssp := rfl
@[simp] theorem logRead_usp (s : State) (a : Nat) (b : Byte) (n : Nat) : (s.logRead a b n).usp = s.usp := rfl
@[simp] theorem logRead_pc (s : State) (a : Nat) (b : Byte) (n : Nat) : (s.logRead a b n).pc = s.pc := rfl
@[simp] theorem logRead_psr (s : State) (a : Nat) (b : Byte) (n : Nat) : (s.logRead a b n).psr = s.psr := rfl
@[simp] theorem logRead_main (s : State) (a : Nat) (b : Byte) (n : Nat) : (s.logRead a b n).main = s.main := rfl
@[simp] theorem logRead_data (s : State) (a : Nat) (b : Byte) (n : Nat) : (s.logRead a b n).data = s.data := rfl
@[simp] theorem logRead_pending (s : State) (a : Nat) (b : Byte) (n : Nat) : (s.logRead a b n).pending = s.pending := rfl
@[simp] theorem logRead_faultDepth (s : State) (a : Nat) (b : Byte) (n : Nat) : (s.logRead a b n).faultDepth = s.faultDepth := rfl
@[simp] theorem logRead_status (s : State) (a : Nat) (b : Byte) (n : Nat) : (s.logRead a b n).status = s.status := rfl
@[simp] theorem logRead_schedule (s : State) (a : Nat) (b : Byte) (n : Nat) : (s.logRead a b n).schedule = s.schedule := rfl
@[simp] theorem logRead_platform (s : State) (a : Nat) (b : Byte) (n : Nat) : (s.logRead a b n).platform = s.platform := rfl

@[simp] theorem logRead_deviceLog (s : State) (a : Nat) (b : Byte) (n : Nat) :
    (s.logRead a b n).deviceLog = .read a b :: s.deviceLog := rfl
@[simp] theorem logRead_freeCount (s : State) (a : Nat) (b : Byte) (n : Nat) : (s.logRead a b n).freeCount = n := rfl

/-! ## Halting, counting a fault -/

@[simp] theorem haltWith_regs (s : State) (r : HaltReason) : (s.haltWith r).regs = s.regs := rfl
@[simp] theorem haltWith_ssp (s : State) (r : HaltReason) : (s.haltWith r).ssp = s.ssp := rfl
@[simp] theorem haltWith_usp (s : State) (r : HaltReason) : (s.haltWith r).usp = s.usp := rfl
@[simp] theorem haltWith_pc (s : State) (r : HaltReason) : (s.haltWith r).pc = s.pc := rfl
@[simp] theorem haltWith_psr (s : State) (r : HaltReason) : (s.haltWith r).psr = s.psr := rfl
@[simp] theorem haltWith_main (s : State) (r : HaltReason) : (s.haltWith r).main = s.main := rfl
@[simp] theorem haltWith_data (s : State) (r : HaltReason) : (s.haltWith r).data = s.data := rfl
@[simp] theorem haltWith_pending (s : State) (r : HaltReason) : (s.haltWith r).pending = s.pending := rfl
@[simp] theorem haltWith_faultDepth (s : State) (r : HaltReason) : (s.haltWith r).faultDepth = s.faultDepth := rfl
@[simp] theorem haltWith_schedule (s : State) (r : HaltReason) : (s.haltWith r).schedule = s.schedule := rfl
@[simp] theorem haltWith_deviceLog (s : State) (r : HaltReason) : (s.haltWith r).deviceLog = s.deviceLog := rfl
@[simp] theorem haltWith_freeCount (s : State) (r : HaltReason) : (s.haltWith r).freeCount = s.freeCount := rfl
@[simp] theorem haltWith_platform (s : State) (r : HaltReason) : (s.haltWith r).platform = s.platform := rfl
@[simp] theorem haltWith_status (s : State) (r : HaltReason) : (s.haltWith r).status = .halted r := rfl

@[simp] theorem halt_regs (s : State) : (s.halt).regs = s.regs := rfl
@[simp] theorem halt_ssp (s : State) : (s.halt).ssp = s.ssp := rfl
@[simp] theorem halt_usp (s : State) : (s.halt).usp = s.usp := rfl
@[simp] theorem halt_pc (s : State) : (s.halt).pc = s.pc := rfl
@[simp] theorem halt_psr (s : State) : (s.halt).psr = s.psr := rfl
@[simp] theorem halt_main (s : State) : (s.halt).main = s.main := rfl
@[simp] theorem halt_data (s : State) : (s.halt).data = s.data := rfl
@[simp] theorem halt_pending (s : State) : (s.halt).pending = s.pending := rfl
@[simp] theorem halt_faultDepth (s : State) : (s.halt).faultDepth = s.faultDepth := rfl
@[simp] theorem halt_schedule (s : State) : (s.halt).schedule = s.schedule := rfl
@[simp] theorem halt_deviceLog (s : State) : (s.halt).deviceLog = s.deviceLog := rfl
@[simp] theorem halt_freeCount (s : State) : (s.halt).freeCount = s.freeCount := rfl
@[simp] theorem halt_platform (s : State) : (s.halt).platform = s.platform := rfl

@[simp] theorem halt_status (s : State) : s.halt.status = .halted .doubleFault := rfl

@[simp] theorem countFault_regs (s : State) (k : ExcKind) : (s.countFault k).regs = s.regs := by cases k <;> rfl
@[simp] theorem countFault_ssp (s : State) (k : ExcKind) : (s.countFault k).ssp = s.ssp := by cases k <;> rfl
@[simp] theorem countFault_usp (s : State) (k : ExcKind) : (s.countFault k).usp = s.usp := by cases k <;> rfl
@[simp] theorem countFault_pc (s : State) (k : ExcKind) : (s.countFault k).pc = s.pc := by cases k <;> rfl
@[simp] theorem countFault_psr (s : State) (k : ExcKind) : (s.countFault k).psr = s.psr := by cases k <;> rfl
@[simp] theorem countFault_main (s : State) (k : ExcKind) : (s.countFault k).main = s.main := by cases k <;> rfl
@[simp] theorem countFault_data (s : State) (k : ExcKind) : (s.countFault k).data = s.data := by cases k <;> rfl
@[simp] theorem countFault_pending (s : State) (k : ExcKind) : (s.countFault k).pending = s.pending := by cases k <;> rfl
@[simp] theorem countFault_status (s : State) (k : ExcKind) : (s.countFault k).status = s.status := by cases k <;> rfl
@[simp] theorem countFault_schedule (s : State) (k : ExcKind) : (s.countFault k).schedule = s.schedule := by cases k <;> rfl
@[simp] theorem countFault_deviceLog (s : State) (k : ExcKind) : (s.countFault k).deviceLog = s.deviceLog := by cases k <;> rfl
@[simp] theorem countFault_freeCount (s : State) (k : ExcKind) : (s.countFault k).freeCount = s.freeCount := by cases k <;> rfl
@[simp] theorem countFault_platform (s : State) (k : ExcKind) : (s.countFault k).platform = s.platform := by cases k <;> rfl

@[simp] theorem countFault_fault_faultDepth (s : State) : (s.countFault .fault).faultDepth = s.faultDepth + 1 := rfl
@[simp] theorem countFault_trap (s : State) : s.countFault .trap = s := rfl

/-! ## Storing to data memory -/

@[simp] theorem dataWriteByte_regs (s : State) (a : Nat) (b : Byte) : (s.dataWriteByte a b).regs = s.regs := by
  unfold State.dataWriteByte; split <;> rfl
@[simp] theorem dataWriteByte_ssp (s : State) (a : Nat) (b : Byte) : (s.dataWriteByte a b).ssp = s.ssp := by
  unfold State.dataWriteByte; split <;> rfl
@[simp] theorem dataWriteByte_usp (s : State) (a : Nat) (b : Byte) : (s.dataWriteByte a b).usp = s.usp := by
  unfold State.dataWriteByte; split <;> rfl
@[simp] theorem dataWriteByte_pc (s : State) (a : Nat) (b : Byte) : (s.dataWriteByte a b).pc = s.pc := by
  unfold State.dataWriteByte; split <;> rfl
@[simp] theorem dataWriteByte_psr (s : State) (a : Nat) (b : Byte) : (s.dataWriteByte a b).psr = s.psr := by
  unfold State.dataWriteByte; split <;> rfl
@[simp] theorem dataWriteByte_main (s : State) (a : Nat) (b : Byte) : (s.dataWriteByte a b).main = s.main := by
  unfold State.dataWriteByte; split <;> rfl
@[simp] theorem dataWriteByte_pending (s : State) (a : Nat) (b : Byte) : (s.dataWriteByte a b).pending = s.pending := by
  unfold State.dataWriteByte; split <;> rfl
@[simp] theorem dataWriteByte_faultDepth (s : State) (a : Nat) (b : Byte) : (s.dataWriteByte a b).faultDepth = s.faultDepth := by
  unfold State.dataWriteByte; split <;> rfl
@[simp] theorem dataWriteByte_status (s : State) (a : Nat) (b : Byte) : (s.dataWriteByte a b).status = s.status := by
  unfold State.dataWriteByte; split <;> rfl
@[simp] theorem dataWriteByte_schedule (s : State) (a : Nat) (b : Byte) : (s.dataWriteByte a b).schedule = s.schedule := by
  unfold State.dataWriteByte; split <;> rfl
@[simp] theorem dataWriteByte_freeCount (s : State) (a : Nat) (b : Byte) : (s.dataWriteByte a b).freeCount = s.freeCount := by
  unfold State.dataWriteByte; split <;> rfl
@[simp] theorem dataWriteByte_platform (s : State) (a : Nat) (b : Byte) : (s.dataWriteByte a b).platform = s.platform := by
  unfold State.dataWriteByte; split <;> rfl

@[simp] theorem dataWriteList_regs (s : State) (a : Nat) (bs : List Byte) :
    (s.dataWriteList a bs).regs = s.regs := by
  induction bs generalizing s a with
  | nil => rfl
  | cons b bs ih => simp [State.dataWriteList, ih]
@[simp] theorem dataWriteList_ssp (s : State) (a : Nat) (bs : List Byte) :
    (s.dataWriteList a bs).ssp = s.ssp := by
  induction bs generalizing s a with
  | nil => rfl
  | cons b bs ih => simp [State.dataWriteList, ih]
@[simp] theorem dataWriteList_usp (s : State) (a : Nat) (bs : List Byte) :
    (s.dataWriteList a bs).usp = s.usp := by
  induction bs generalizing s a with
  | nil => rfl
  | cons b bs ih => simp [State.dataWriteList, ih]
@[simp] theorem dataWriteList_pc (s : State) (a : Nat) (bs : List Byte) :
    (s.dataWriteList a bs).pc = s.pc := by
  induction bs generalizing s a with
  | nil => rfl
  | cons b bs ih => simp [State.dataWriteList, ih]
@[simp] theorem dataWriteList_psr (s : State) (a : Nat) (bs : List Byte) :
    (s.dataWriteList a bs).psr = s.psr := by
  induction bs generalizing s a with
  | nil => rfl
  | cons b bs ih => simp [State.dataWriteList, ih]
@[simp] theorem dataWriteList_main (s : State) (a : Nat) (bs : List Byte) :
    (s.dataWriteList a bs).main = s.main := by
  induction bs generalizing s a with
  | nil => rfl
  | cons b bs ih => simp [State.dataWriteList, ih]
@[simp] theorem dataWriteList_pending (s : State) (a : Nat) (bs : List Byte) :
    (s.dataWriteList a bs).pending = s.pending := by
  induction bs generalizing s a with
  | nil => rfl
  | cons b bs ih => simp [State.dataWriteList, ih]
@[simp] theorem dataWriteList_faultDepth (s : State) (a : Nat) (bs : List Byte) :
    (s.dataWriteList a bs).faultDepth = s.faultDepth := by
  induction bs generalizing s a with
  | nil => rfl
  | cons b bs ih => simp [State.dataWriteList, ih]
@[simp] theorem dataWriteList_status (s : State) (a : Nat) (bs : List Byte) :
    (s.dataWriteList a bs).status = s.status := by
  induction bs generalizing s a with
  | nil => rfl
  | cons b bs ih => simp [State.dataWriteList, ih]
@[simp] theorem dataWriteList_schedule (s : State) (a : Nat) (bs : List Byte) :
    (s.dataWriteList a bs).schedule = s.schedule := by
  induction bs generalizing s a with
  | nil => rfl
  | cons b bs ih => simp [State.dataWriteList, ih]
@[simp] theorem dataWriteList_freeCount (s : State) (a : Nat) (bs : List Byte) :
    (s.dataWriteList a bs).freeCount = s.freeCount := by
  induction bs generalizing s a with
  | nil => rfl
  | cons b bs ih => simp [State.dataWriteList, ih]
@[simp] theorem dataWriteList_platform (s : State) (a : Nat) (bs : List Byte) :
    (s.dataWriteList a bs).platform = s.platform := by
  induction bs generalizing s a with
  | nil => rfl
  | cons b bs ih => simp [State.dataWriteList, ih]

end Sys2Proof.Machine
end

