-- ==== Sys2Proof/Laws/Access.lean ====
section
/-! SUPPORT. What the access primitives of Machine/Ops.lean can change: main memory, data memory, the device log and the
count of free draws, with both memories kept in canonical form; nothing else. One lemma for each primitive, each in the
form "whatever it answers, the work after it is related to the work before". -/

namespace Sys2Proof.Machine

/-- `t` differs from `s` in memory, the device log and the free draws at most, and canonical memories stay canonical. -/
structure State.Frame (s t : State) : Prop where
  regs : t.regs = s.regs
  ssp : t.ssp = s.ssp
  usp : t.usp = s.usp
  pc : t.pc = s.pc
  psr : t.psr = s.psr
  pending : t.pending = s.pending
  faultDepth : t.faultDepth = s.faultDepth
  status : t.status = s.status
  schedule : t.schedule = s.schedule
  platform : t.platform = s.platform
  mainWf : Memory.wf mainSize s.main = true → Memory.wf mainSize t.main = true
  dataWf : Memory.wf dataSize s.data = true → Memory.wf dataSize t.data = true

/-- A frame that leaves data memory alone. -/
structure State.MainFrame (s t : State) : Prop extends State.Frame s t where
  data : t.data = s.data

/-- A frame that leaves both memories alone. -/
structure State.ReadFrame (s t : State) : Prop extends State.MainFrame s t where
  main : t.main = s.main

theorem State.ReadFrame.refl (s : State) : s.ReadFrame s := by
  refine ⟨⟨⟨?_, ?_, ?_, ?_, ?_, ?_, ?_, ?_, ?_, ?_, ?_, ?_⟩, ?_⟩, ?_⟩ <;> simp

theorem State.MainFrame.refl (s : State) : s.MainFrame s := (State.ReadFrame.refl s).toMainFrame

theorem State.Frame.refl (s : State) : s.Frame s := (State.ReadFrame.refl s).toFrame

theorem State.Frame.trans {s t u : State} (a : s.Frame t) (b : t.Frame u) : s.Frame u where
  regs := b.regs.trans a.regs
  ssp := b.ssp.trans a.ssp
  usp := b.usp.trans a.usp
  pc := b.pc.trans a.pc
  psr := b.psr.trans a.psr
  pending := b.pending.trans a.pending
  faultDepth := b.faultDepth.trans a.faultDepth
  status := b.status.trans a.status
  schedule := b.schedule.trans a.schedule
  platform := b.platform.trans a.platform
  mainWf := fun h => b.mainWf (a.mainWf h)
  dataWf := fun h => b.dataWf (a.dataWf h)

theorem State.MainFrame.trans {s t u : State} (a : s.MainFrame t) (b : t.MainFrame u) : s.MainFrame u :=
  { a.toFrame.trans b.toFrame with data := b.data.trans a.data }

theorem State.ReadFrame.trans {s t u : State} (a : s.ReadFrame t) (b : t.ReadFrame u) : s.ReadFrame u :=
  { a.toMainFrame.trans b.toMainFrame with main := b.main.trans a.main }

/-- A main frame that keeps main memory while the MMU sets no dirty bits: what an exception goes back to. -/
structure State.BaseFrame (s t : State) : Prop extends State.MainFrame s t where
  clean : s.platform.mmuSetsDirty = false → t.main = s.main

theorem State.BaseFrame.refl (s : State) : s.BaseFrame s := ⟨.refl s, fun _ => rfl⟩

theorem State.BaseFrame.trans {s t u : State} (a : s.BaseFrame t) (b : t.BaseFrame u) : s.BaseFrame u :=
  ⟨a.toMainFrame.trans b.toMainFrame, fun h => (b.clean (by rw [a.platform]; exact h)).trans (a.clean h)⟩

theorem State.ReadFrame.baseFrame {s t : State} (h : s.ReadFrame t) : s.BaseFrame t := ⟨h.toMainFrame, fun _ => h.main⟩

/-- `base` is of the same platform and has made the same draws as `cur`; every primitive keeps this. -/
structure Work.Level (w : Work) : Prop where
  platform : w.cur.platform = w.base.platform
  draws : w.cur.freeCount = w.base.freeCount

theorem Work.start_level (s : State) : (Work.start s).Level := ⟨rfl, rfl⟩

/-- What a primitive does to `base` (60_exceptions.md R170), by walks of which `R` holds. -/
structure Work.Notes (R : Pc → State → Prop) (w w' : Work) : Prop where
  noted : w.base.Noted R w'.base
  level : w'.Level

/-- Both states of a work related: `cur` in memory at most, `base` in what an abandoned instruction leaves. -/
structure Work.Quiet (R : Pc → State → Prop) (w w' : Work) : Prop where
  cur : w.cur.MainFrame w'.cur
  notes : w.Level → w.Notes R w'

/-- Nothing but device reads. -/
structure Work.Reads (w w' : Work) : Prop where
  cur : w.cur.ReadFrame w'.cur
  base : w.base.ReadFrame w'.base
  notes : ∀ R, w.Level → w.Notes R w'

/-- As `Quiet`, but the instruction may have stored to data memory. -/
structure Work.Acts (R : Pc → State → Prop) (w w' : Work) : Prop where
  cur : w.cur.Frame w'.cur
  notes : w.Level → w.Notes R w'

theorem State.Noted.trans {R : Pc → State → Prop} {s t u : State} (h : s.Noted R t) (h' : t.Noted R u) : s.Noted R u := by
  induction h' with
  | refl => exact h
  | dirty _ va pde w w' hw hp hd hin ih => exact .dirty ih va pde w w' hw hp hd hin
  | device _ a hd ih => exact .device ih a hd

theorem State.Noted.mono {R R' : Pc → State → Prop} (hR : ∀ va u, R va u → R' va u) {s t : State} (h : s.Noted R t) :
    s.Noted R' t := by
  induction h with
  | refl => exact .refl
  | dirty _ va pde w w' hw hp hd hin ih => exact .dirty ih va pde w w' (hR _ _ hw) hp hd hin
  | device _ a hd ih => exact .device ih a hd

variable {R : Pc → State → Prop}

theorem Work.Notes.refl {w : Work} (h : w.Level) : w.Notes R w := ⟨.refl, h⟩
theorem Work.Notes.trans {a b c : Work} (h : a.Notes R b) (h' : b.Notes R c) : a.Notes R c :=
  ⟨h.noted.trans h'.noted, h'.level⟩
theorem Work.Notes.mono {R' : Pc → State → Prop} (hR : ∀ va u, R va u → R' va u) {w w' : Work} (h : w.Notes R w') :
    w.Notes R' w' := ⟨h.noted.mono hR, h.level⟩

theorem Work.Reads.refl (w : Work) : w.Reads w := ⟨.refl _, .refl _, fun _ => .refl⟩
theorem Work.Quiet.refl (w : Work) : w.Quiet R w := ⟨.refl _, .refl⟩

theorem Work.Reads.quiet {w w' : Work} (h : w.Reads w') : w.Quiet R w' := ⟨h.cur.toMainFrame, h.notes R⟩
theorem Work.Quiet.acts {w w' : Work} (h : w.Quiet R w') : w.Acts R w' := ⟨h.cur.toFrame, h.notes⟩
theorem Work.Quiet.mono {R' : Pc → State → Prop} (hR : ∀ va u, R va u → R' va u) {w w' : Work} (h : w.Quiet R w') :
    w.Quiet R' w' := ⟨h.cur, fun hl => (h.notes hl).mono hR⟩
theorem Work.Acts.mono {R' : Pc → State → Prop} (hR : ∀ va u, R va u → R' va u) {w w' : Work} (h : w.Acts R w') :
    w.Acts R' w' := ⟨h.cur, fun hl => (h.notes hl).mono hR⟩

theorem Work.Reads.trans {a b c : Work} (h : a.Reads b) (h' : b.Reads c) : a.Reads c :=
  ⟨h.cur.trans h'.cur, h.base.trans h'.base, fun R hl => (h.notes R hl).trans (h'.notes R (h.notes R hl).level)⟩
theorem Work.Quiet.trans {a b c : Work} (h : a.Quiet R b) (h' : b.Quiet R c) : a.Quiet R c :=
  ⟨h.cur.trans h'.cur, fun hl => (h.notes hl).trans (h'.notes (h.notes hl).level)⟩

/-- Whatever a primitive answers, `P` holds of its value and the work after it, `Q` of the work at a raise. -/
def Access.Sat {α : Type} (x : Access α) (P : α → Work → Prop) (Q : Work → Prop) : Prop :=
  match x with
  | .ok v w => P v w
  | .raised _ w => Q w
  | .refused _ => True

theorem Access.Sat.mono {α : Type} {x : Access α} {P P' : α → Work → Prop} {Q Q' : Work → Prop} (h : x.Sat P Q)
    (hp : ∀ v w, P v w → P' v w) (hq : ∀ w, Q w → Q' w) : x.Sat P' Q' := by
  cases x with
  | ok v w => exact hp v w h
  | raised e w => exact hq w h
  | refused r => trivial

theorem Access.Sat.andThen {α β : Type} {x : Access α} {f : α → Work → Access β} {P : α → Work → Prop}
    {P' : β → Work → Prop} {Q : Work → Prop} (h : x.Sat P Q) (hf : ∀ v w, P v w → (f v w).Sat P' Q) :
    (x.andThen f).Sat P' Q := by
  cases x with
  | ok v w => exact hf v w h
  | raised e w => exact h
  | refused r => trivial

theorem Access.Sat.ok {α : Type} {x : Access α} {P : α → Work → Prop} {Q : Work → Prop} (h : x.Sat P Q) {v : α}
    {w : Work} (e : x = .ok v w) : P v w := by subst e; exact h

theorem Access.Sat.raised {α : Type} {x : Access α} {P : α → Work → Prop} {Q : Work → Prop} (h : x.Sat P Q) {e : Exc}
    {w : Work} (he : x = .raised e w) : Q w := by subst he; exact h

/-! ## Reading data memory -/

theorem logRead_readFrame (s : State) (a : Nat) (b : Byte) (n : Nat) : s.ReadFrame (s.logRead a b n) := by
  refine ⟨⟨⟨?_, ?_, ?_, ?_, ?_, ?_, ?_, ?_, ?_, ?_, ?_, ?_⟩, ?_⟩, ?_⟩ <;> simp

theorem dataReadByte_reads (a : Nat) (w : Work) : w.Reads (dataReadByte a w).2 := by
  unfold dataReadByte
  split
  · next hd =>
    refine ⟨logRead_readFrame .., logRead_readFrame .., fun _ hl => ⟨?_, ⟨by simpa using hl.platform, by simp⟩⟩⟩
    dsimp only
    rw [hl.draws]
    exact .device .refl a (by rw [← hl.platform]; exact hd)
  · exact .refl w

theorem dataReadList_reads (a n : Nat) (w : Work) : w.Reads (dataReadList a n w).2 := by
  induction n generalizing a w with
  | zero => exact .refl w
  | succ n ih => exact (dataReadByte_reads a w).trans (ih _ _)

theorem dataRead_sat (width : Width) (a : Word) (w : Work) :
    (dataRead width a w).Sat (fun _ w' => w.Reads w') (fun _ => False) := by
  unfold dataRead
  split
  · trivial
  · exact dataReadList_reads ..

/-! ## Physical accesses -/

theorem physRead_sat (e : Endian) (width : Width) (pa : Nat) (w : Work) :
    (physRead e width pa w).Sat (fun _ w' => w' = w) (fun _ => False) := by
  unfold physRead
  split
  · trivial
  · exact rfl

theorem physCheck_aligned {p : Platform} {w : Width} {pa : Nat} (h : physCheck p w pa = none) :
    pa % widthBytes w = 0 := by
  unfold physCheck at h
  split at h
  · exact absurd h (by simp)
  · next hn => exact not_not.mp hn

/-- An aligned access that starts inside a space ends inside it. -/
theorem aligned_fits {w : Width} {a k : Nat} (h : a % widthBytes w = 0) (ha : a < 2 ^ k) (hk : 2 ≤ k) :
    a + widthBytes w ≤ 2 ^ k := by
  obtain ⟨j, rfl⟩ : ∃ j, k = j + 2 := ⟨k - 2, by omega⟩
  rw [pow_add] at *
  cases w <;> simp only [widthBytes] at * <;> omega

theorem writeMain_mainFrame (s : State) (e : Endian) (width : Width) (pa : Nat) (v : Word)
    (h : pa + widthBytes width ≤ mainSize) :
    s.MainFrame { s with main := s.main.writeVal e width pa v } := by
  refine ⟨⟨?_, ?_, ?_, ?_, ?_, ?_, ?_, ?_, ?_, ?_, ?_, ?_⟩, ?_⟩ <;> simp
  exact fun hw => Memory.wf_writeVal hw e width pa v h

theorem physWrite_sat (width : Width) (pa : Nat) (v : Word) (w : Work) (h : pa < mainSize) :
    (physWrite width pa v w).Sat (fun _ w' => w.Quiet (fun _ _ => False) w') (fun _ => False) := by
  unfold physWrite
  split
  · trivial
  · next hc =>
    exact ⟨writeMain_mainFrame _ _ _ _ _ (aligned_fits (physCheck_aligned hc) h (by omega)),
      fun hl => ⟨.refl, ⟨hl.platform, hl.draws⟩⟩⟩

/-! ## Writing data memory -/

theorem dataWriteByte_frame (s : State) (a : Nat) (b : Byte) (h : a < dataSize) : s.Frame (s.dataWriteByte a b) := by
  refine ⟨?_, ?_, ?_, ?_, ?_, ?_, ?_, ?_, ?_, ?_, ?_, ?_⟩ <;> try simp
  unfold State.dataWriteByte
  split
  · exact id
  · exact fun hw => Memory.wf_write hw b h

theorem dataWriteList_frame (s : State) (a : Nat) (bs : List Byte) (h : a + bs.length ≤ dataSize) :
    s.Frame (s.dataWriteList a bs) := by
  induction bs generalizing s a with
  | nil => exact .refl s
  | cons b bs ih =>
    simp only [List.length_cons] at h
    exact (dataWriteByte_frame s a b (by omega)).trans (ih _ _ (by omega))

theorem dataCheck_none {p : Platform} {w : Width} {a : Word} (h : dataCheck p w a = none) :
    a.toNat < dataSize ∧ a.toNat % widthBytes w = 0 := by
  unfold dataCheck at h
  split at h
  · exact absurd h (by simp)
  · next h1 =>
    split at h
    · exact absurd h (by simp)
    · next h2 =>
      refine ⟨?_, not_not.mp h2⟩
      have := congrArg BitVec.toNat (not_not.mp h1)
      rw [BitVec.extractLsb'_toNat, Nat.shiftRight_eq_div_pow, show (0 : BitVec 16).toNat = 0 from rfl] at this
      have := a.isLt
      unfold dataSize
      omega

theorem dataWrite_sat (width : Width) (a v : Word) (w : Work) :
    (dataWrite width a v w).Sat (fun _ w' => w.Acts (fun _ _ => False) w') (fun _ => False) := by
  unfold dataWrite
  split
  · trivial
  · next hc =>
    obtain ⟨h1, h2⟩ := dataCheck_none hc
    refine ⟨dataWriteList_frame _ _ _ ?_, fun hl => ⟨.refl, ⟨by simpa using hl.platform, by simpa using hl.draws⟩⟩⟩
    rw [toBytes_length]
    exact aligned_fits h2 h1 (by omega)

/-! ## The MMU -/

theorem entryAddr_lt (e : Word) : entryAddr e ≤ 0xFFF000 := by
  have := (e.extractLsb' 4 12).isLt
  unfold entryAddr
  omega

theorem entryAddr_mod (e : Word) : entryAddr e % 4096 = 0 := by
  unfold entryAddr
  omega

theorem readPde_sat (va : Pc) (w : Work) : (readPde va w).Sat (fun _ w' => w.Reads w') (fun _ => False) := by
  unfold readPde
  split
  · trivial
  · refine (dataRead_sat .half _ w).andThen fun v w' h => ?_
    split
    · trivial
    · exact h

theorem readPte_sat (va : Pc) (pde : Word) (w : Work) :
    (readPte va pde w).Sat (fun _ w' => w' = w ∧ pteAddr w.cur va pde + 2 ≤ mainSize) (fun _ => False) := by
  unfold readPte
  split
  · trivial
  · next h =>
    cases hx : physRead w.cur.platform.endian .half (pteAddr w.cur va pde) w with
    | ok v w' =>
      refine ⟨(physRead_sat _ _ _ _).ok hx, ?_⟩
      unfold physRead at hx
      split at hx
      · exact absurd hx (by simp)
      · next hc =>
        exact aligned_fits (k := 24) (physCheck_aligned hc) (by omega) (by omega)
    | raised e w' => exact (physRead_sat _ _ _ _).raised hx
    | refused r => trivial

theorem setDirty_mainFrame (s : State) (a : Nat) (h : a + 2 ≤ mainSize) : s.MainFrame (s.setDirty a) :=
  writeMain_mainFrame s _ .half a _ h

/-- An abandoned instruction leaves everything but dirty bits and device reads. -/
theorem State.Noted.baseFrame {s t : State} (h : s.Noted R t) : s.BaseFrame t := by
  induction h with
  | refl => exact .refl s
  | dirty _ va pde w w' hw hp hd hin ih =>
    refine ih.trans ⟨setDirty_mainFrame _ _ hin, fun hc => ?_⟩
    simp [hd] at hc
  | device _ a hd ih => exact ih.trans (logRead_readFrame ..).baseFrame

/-- Where no walk is possible no dirty bit is. -/
theorem State.Noted.main_eq {s t : State} (hR : ∀ va u, ¬R va u) (h : s.Noted R t) : t.main = s.main := by
  induction h with
  | refl => rfl
  | dirty _ va pde w w' hw hp hd hin ih => exact absurd hw (hR _ _)
  | device _ a hd ih => exact ih

/-- The fields a read may have changed. -/
theorem State.ReadFrame.eq {s t : State} (h : s.ReadFrame t) :
    t = { s with deviceLog := t.deviceLog, freeCount := t.freeCount } := by
  obtain ⟨⟨⟨h1, h2, h3, h4, h5, h6, h7, h8, h9, h10, -, -⟩, h11⟩, h12⟩ := h
  cases t
  cases s
  simp_all

/-- The fields an abandoned instruction may have changed. -/
theorem State.Noted.eq {s t : State} (h : s.Noted R t) :
    t = { s with main := t.main, deviceLog := t.deviceLog, freeCount := t.freeCount } := by
  obtain ⟨⟨⟨h1, h2, h3, h4, h5, h6, h7, h8, h9, h10, -, -⟩, h11⟩, -⟩ := h.baseFrame
  cases t
  cases s
  simp_all

/-- The entry's address depends on the platform only. -/
theorem pteAddr_platform {s t : State} (h : s.platform = t.platform) (va : Pc) (pde : Word) :
    pteAddr s va pde = pteAddr t va pde := by
  unfold pteAddr
  rw [h]

theorem State.SameTables.refl (s : State) : s.SameTables s := ⟨rfl, rfl, rfl, rfl⟩

theorem State.MainFrame.sameTables {s t : State} (h : s.MainFrame t) : s.SameTables t :=
  ⟨h.platform, by rw [h.psr], by rw [h.psr], h.data⟩

theorem State.SameTables.trans {s t u : State} (h : s.SameTables t) (h' : t.SameTables u) : s.SameTables u :=
  ⟨h'.platform.trans h.platform, h'.mmu.trans h.mmu, h'.pdt.trans h.pdt, h'.data.trans h.data⟩

/-- The same tables have the same walks. -/
theorem State.SameTables.walkAt {s t u : State} {va v : Pc} (h : s.SameTables t) (hw : t.walkAt va v u) : s.walkAt va v u :=
  ⟨hw.1, h.mmu.symm.trans hw.2.1, h.trans hw.2.2⟩

theorem setDirtyIfNeeded_quiet (kind : AccessKind) (va : Pc) (pde pte : Word) (w w0 w1 : Work) (hw : R va w0.cur)
    (hp : readPde va w0 = .ok pde w1) (h : pteAddr w.cur va pde + 2 ≤ mainSize) :
    w.Quiet R (setDirtyIfNeeded kind (pteAddr w.cur va pde) pte w) := by
  unfold setDirtyIfNeeded
  split
  · next hc =>
    refine ⟨setDirty_mainFrame _ _ h, fun hl => ⟨?_, ⟨by simpa using hl.platform, by simpa using hl.draws⟩⟩⟩
    dsimp only
    rw [pteAddr_platform hl.platform] at h ⊢
    exact .dirty .refl va pde w0 w1 hw hp (by rw [← hl.platform]; exact hc.2.1) h
  · exact .refl w

theorem translate_sat (kind : AccessKind) (va : Pc) (w : Work) :
    (mmuTranslate kind va w).Sat (fun pa w' => w.Quiet (fun v u => v = va ∧ u = w.cur) w' ∧ pa < mainSize)
      (fun w' => w.Reads w') := by
  unfold mmuTranslate
  cases hx : readPde va w with
  | refused r => trivial
  | raised e w1 => exact ((readPde_sat va w).raised hx).elim
  | ok pde w1 =>
    have h1 := (readPde_sat va w).ok hx
    refine Access.Sat.andThen (x := readPte va pde w1)
      ((readPte_sat va pde w1).mono (fun _ _ h => h) (fun _ h => h.elim)) fun pte w2 h2 => ?_
    obtain ⟨rfl, h3⟩ := h2
    split
    · exact h1
    · refine ⟨h1.quiet.trans (setDirtyIfNeeded_quiet _ _ _ _ _ w w2 ⟨rfl, rfl⟩ hx h3), ?_⟩
      have := entryAddr_lt pte
      unfold vaOffset pageOffsetBits mainSize
      omega

theorem mainAddr_sat (kind : AccessKind) (va : Pc) (w : Work) :
    (mainAddr kind va w).Sat (fun pa w' => w.Quiet (w.cur.walkAt va) w' ∧ pa < mainSize) (fun w' => w.Reads w') := by
  unfold mainAddr
  split
  · next hm =>
    exact (translate_sat kind va w).mono
      (fun _ _ h => ⟨h.1.mono fun v u hw => ⟨hw.1, hm, hw.2 ▸ .refl _⟩, h.2⟩) (fun _ h => h)
  · exact ⟨.refl w, va.isLt⟩

/-! ## Loads, stores, the fetch -/

/-- The main address that the low bits of a computed one are (20_memory.md R56). -/
abbrev low24 (a : Word) : Pc := a.extractLsb' 0 24

theorem inMain_sat {α : Type} {a : Word} {f : Pc → Access α} {P : α → Work → Prop} {Q : Work → Prop}
    (h : (f (low24 a)).Sat P Q) : (inMain a f).Sat P Q := by
  unfold inMain
  split
  · trivial
  · exact h

theorem inMainAligned_sat {α : Type} {width : Width} {a : Word} {f : Pc → Access α} {P : α → Work → Prop} {Q : Work → Prop}
    (h : (f (low24 a)).Sat P Q) : (inMainAligned width a f).Sat P Q := by
  refine inMain_sat ?_
  split
  · trivial
  · exact h

theorem memRead_sat (width : Width) (va : Word) (w : Work) :
    (memRead width va w).Sat (fun _ w' => w.Quiet (w.cur.walkAt (low24 va)) w') (fun w' => w.Reads w') := by
  refine inMainAligned_sat ((mainAddr_sat .read _ w).andThen fun pa w1 h1 => ?_)
  exact (physRead_sat _ _ _ _).mono (fun _ _ h => h ▸ h1.1) (fun _ h => h.elim)

theorem memWrite_sat (width : Width) (va v : Word) (w : Work) :
    (memWrite width va v w).Sat (fun _ w' => w.Quiet (w.cur.walkAt (low24 va)) w') (fun w' => w.Reads w') := by
  refine inMainAligned_sat ((mainAddr_sat .write _ w).andThen fun pa w1 h1 => ?_)
  exact (physWrite_sat _ _ _ _ h1.2).mono (fun _ _ h => h1.1.trans (h.mono fun _ _ => False.elim)) (fun _ h => h.elim)

theorem fetchAt_sat (a : Pc) (w : Work) :
    (fetchAt a w).Sat (fun _ w' => w.Quiet (w.cur.walkAt a) w') (fun w' => w.Reads w') := by
  unfold fetchAt
  split
  · trivial
  · refine (mainAddr_sat .fetch _ w).andThen fun pa w1 h1 => ?_
    exact (physRead_sat _ _ _ _).mono (fun _ _ h => h ▸ h1.1) (fun _ h => h.elim)

theorem fetch_sat (w : Work) :
    (fetch w).Sat (fun _ w' => w.Quiet (w.cur.walkAt w.cur.pc) w') (fun w' => w.Reads w') := fetchAt_sat _ w

theorem loadFrom_sat (sp : Space) (width : Width) (a : Word) (w : Work) :
    (loadFrom sp width a w).Sat (fun _ w' => w.Quiet (w.cur.walkAt (low24 a)) w') (fun w' => w.Reads w') := by
  cases sp with
  | main => exact memRead_sat width a w
  | data => exact (dataRead_sat width a w).mono (fun _ _ h => h.quiet) (fun _ h => h.elim)

theorem storeTo_sat (sp : Space) (width : Width) (a v : Word) (w : Work) :
    (storeTo sp width a v w).Sat
      (fun _ w' => w.Acts (w.cur.walkAt (low24 a)) w' ∧ (sp = .main → w.Quiet (w.cur.walkAt (low24 a)) w'))
      (fun w' => w.Reads w') := by
  cases sp with
  | main => exact (memWrite_sat width a v w).mono (fun _ _ h => ⟨h.acts, fun _ => h⟩) (fun _ h => h)
  | data =>
    exact (dataWrite_sat width a v w).mono
      (fun _ _ h => ⟨h.mono fun _ _ => False.elim, fun e => by cases e⟩) (fun _ h => h.elim)

end Sys2Proof.Machine
end

