-- ==== Sys2Proof/Laws/Decode.lean ====
section
/-! SUPPORT. The fields of encoded words (30_encoding.md R80 to R87). -/

namespace Sys2Proof

/-- A field of a word has a value when its bits are the value's. -/
theorem extractLsb'_of_bits {n : Nat} {w : Word} {s : Nat} {v : BitVec n}
    (h : ∀ k < n, w.getLsbD (s + k) = v.getLsbD k) : w.extractLsb' s n = v := by
  apply BitVec.eq_of_getLsbD_eq
  intro k hk
  simp [hk, h k hk]

/-- The word of an instruction carries its group code (30_encoding.md R87). -/
@[simp] theorem group_encode (i : Instr) : wordGroup (encode i) = i.group := by
  refine extractLsb'_of_bits fun k hk => ?_
  cases i <;> unfold encode <;> rw [BitVec.getLsbD_cast] <;> simp only [BitVec.getLsbD_append] <;>
    interval_cases k <;> rfl

/-- The word of an instruction carries its opcode (30_encoding.md R81). -/
@[simp] theorem opcode_encode (i : Instr) : wordOpcode (encode i) = i.opcode := by
  refine extractLsb'_of_bits fun k hk => ?_
  cases i <;> unfold encode <;> rw [BitVec.getLsbD_cast] <;> simp only [BitVec.getLsbD_append] <;>
    interval_cases k <;> rfl

/-- The four bytes of a word, most significant first, are the word (20_memory.md R52). -/
theorem wordOfBytes_bytesOfWord (w : Word) :
    wordOfBytes (w.extractLsb' 24 8) (w.extractLsb' 16 8) (w.extractLsb' 8 8) (w.extractLsb' 0 8) = w := by
  apply BitVec.eq_of_getLsbD_eq
  intro k hk
  unfold wordOfBytes
  rw [BitVec.getLsbD_cast]
  simp only [BitVec.getLsbD_append]
  interval_cases k <;> simp

end Sys2Proof
end

