-- ==== Sys2Proof/Laws/Registers.lean ====
section
/-! SUPPORT. The slots of the register file, and the special indexes (10_state.md R11, R12). -/

namespace Sys2Proof.Machine

@[simp] theorem regSlot_zero : regSlot 0 = none := rfl

@[simp] theorem regSlot_sp : regSlot spIx = none := rfl

/-- No two registers share a slot. -/
theorem regSlot_inj {i j : RegIx} {k : Fin 30} (hi : regSlot i = some k) (hj : regSlot j = some k) : i = j := by
  unfold regSlot at hi hj
  apply BitVec.eq_of_toNat_eq
  have h1 := i.isLt
  have h2 := j.isLt
  split at hi
  · exact absurd hi (by simp)
  · split at hj
    · exact absurd hj (by simp)
    · split at hi <;> split at hj <;> simp only [Option.some.injEq] at hi hj <;> subst hi <;>
        simp only [Fin.ext_iff, Fin.val_zero] at hj <;> omega

/-- A register without a slot is x0 or the stack pointer. -/
theorem regSlot_eq_none {i : RegIx} (h : regSlot i = none) : i = 0 ∨ i = spIx := by
  unfold regSlot at h
  split at h
  · next hc =>
    rcases hc with hc | hc
    · exact .inl (BitVec.eq_of_toNat_eq hc)
    · exact .inr (BitVec.eq_of_toNat_eq hc)
  · split at h <;> simp at h

@[simp] theorem writeReg_zero (s : State) (v : Word) : s.writeReg 0 v = s := rfl

theorem readReg_sp (s : State) : s.readReg spIx = if psrS s.psr then s.ssp else s.usp := rfl

theorem writeReg_sp (s : State) (v : Word) :
    s.writeReg spIx v = if psrS s.psr then { s with ssp := v } else { s with usp := v } := rfl

end Sys2Proof.Machine
end

