-- ==== Sys2Proof/Laws/Trap.lean ====
section
/-! SUPPORT. What trap entry, exceptions, requested traps and acknowledgements can do (60_exceptions.md R170 to R173, R183). -/

namespace Sys2Proof.Machine

/-- `t` is `s` after pushes: the supervisor stack pointer and memory may differ. -/
structure State.PushFrame (s t : State) : Prop where
  regs : t.regs = s.regs
  usp : t.usp = s.usp
  pc : t.pc = s.pc
  psr : t.psr = s.psr
  data : t.data = s.data
  pending : t.pending = s.pending
  faultDepth : t.faultDepth = s.faultDepth
  status : t.status = s.status
  schedule : t.schedule = s.schedule
  platform : t.platform = s.platform
  mainWf : Memory.wf mainSize s.main = true → Memory.wf mainSize t.main = true

theorem State.MainFrame.pushFrame {s t : State} (h : s.MainFrame t) : s.PushFrame t :=
  ⟨h.regs, h.usp, h.pc, h.psr, h.data, h.pending, h.faultDepth, h.status, h.schedule, h.platform, h.mainWf⟩

theorem State.PushFrame.refl (s : State) : s.PushFrame s := (State.MainFrame.refl s).pushFrame

theorem State.PushFrame.trans {s t u : State} (a : s.PushFrame t) (b : t.PushFrame u) : s.PushFrame u :=
  ⟨b.regs.trans a.regs, b.usp.trans a.usp, b.pc.trans a.pc, b.psr.trans a.psr, b.data.trans a.data,
    b.pending.trans a.pending, b.faultDepth.trans a.faultDepth, b.status.trans a.status, b.schedule.trans a.schedule,
    b.platform.trans a.platform, fun h => b.mainWf (a.mainWf h)⟩

/-- One push from supervisor mode moves `ssp` by four and touches no other register; its walks are of the address that it
writes. -/
theorem push32_sat (v : Word) (w : Work) (hs : psrS w.cur.psr = true) :
    (push32 v w).Sat
      (fun _ w' => w.cur.PushFrame w'.cur ∧ w'.cur.ssp = spAfterPush w.cur.platform.frame w.cur.ssp
        ∧ (w.Level → w.Notes (w.cur.walkAt (low24 (frameAddr1 w.cur))) w'))
      (fun w' => ∀ R, w.Level → w.Notes R w') := by
  unfold push32 Work.movePointer
  rw [readReg_sp, writeReg_sp, if_pos hs, if_pos hs]
  have hn : ∀ {R} {w0 w' : Work}, (w0.Level → w0.Notes R w') → w0.base = w.base → (w.Level → w0.Level) →
      w.Level → w.Notes R w' := fun h hb hl hw => ⟨hb ▸ (h (hl hw)).noted, (h (hl hw)).level⟩
  have hl : w.Level → Work.Level { w with cur := { w.cur with ssp := spAfterPush w.cur.platform.frame w.cur.ssp } } :=
    fun h => ⟨h.platform, h.draws⟩
  refine (memWrite_sat _ _ _ _).mono
    (fun _ w' h => ⟨?_, h.cur.ssp, fun hw => (hn h.notes rfl hl hw).mono fun v u hv => ⟨hv.1, hv.2.1, ?_⟩⟩)
    (fun _ h R => hn (h.notes R) rfl hl)
  · have hp := h.cur
    exact ⟨hp.regs, hp.usp, hp.pc, hp.psr, hp.data, hp.pending, hp.faultDepth, hp.status, hp.schedule, hp.platform,
      hp.mainWf⟩
  · exact ⟨hv.2.2.platform, hv.2.2.mmu, hv.2.2.pdt, hv.2.2.data⟩

/-- What the handler's first state is made of (60_exceptions.md R171): everything but the pc and the pushed bytes. -/
structure State.Entered (q : BitVec 3) (s t : State) : Prop where
  regs : t.regs = s.regs
  ssp : t.ssp = spAfterPush s.platform.frame (spAfterPush s.platform.frame s.ssp)
  usp : t.usp = s.usp
  psr : t.psr = psrWithP (psrWithS s.psr true) q
  data : t.data = s.data
  pending : t.pending = s.pending
  faultDepth : t.faultDepth = s.faultDepth
  status : t.status = s.status
  schedule : t.schedule = s.schedule
  platform : t.platform = s.platform
  mainWf : Memory.wf mainSize s.main = true → Memory.wf mainSize t.main = true

/-- A machine that a failed push has halted (60_exceptions.md R183): nothing of the frame is there. -/
structure State.Halted (s t : State) : Prop where
  regs : t.regs = s.regs
  ssp : t.ssp = s.ssp
  usp : t.usp = s.usp
  pc : t.pc = s.pc
  psr : t.psr = s.psr
  data : t.data = s.data
  pending : t.pending = s.pending
  faultDepth : t.faultDepth = s.faultDepth
  status : t.status = .halted .doubleFault
  schedule : t.schedule = s.schedule
  platform : t.platform = s.platform
  mainWf : Memory.wf mainSize s.main = true → Memory.wf mainSize t.main = true
  clean : s.platform.mmuSetsDirty = false → t.main = s.main

theorem State.Noted.halted {R : Pc → State → Prop} {s t : State} (hn : s.Noted R t) : s.Halted t.halt :=
  have h := hn.baseFrame
  ⟨h.regs, h.ssp, h.usp, h.pc, h.psr, h.data, h.pending, h.faultDepth, rfl, h.schedule, h.platform, h.mainWf, h.clean⟩

theorem halt_halted (s : State) : s.Halted s.halt := (State.Noted.refl (R := fun _ _ => False) (s := s)).halted

/-- The end of a trap entry changes only the pc, the device log and the draws. -/
theorem loadHandler_cases (v : Byte) (w : Work) :
    (∃ r, loadHandler v w = .refused r) ∨
    ∃ w', loadHandler v w = .entered w' ∧ (∀ R, w.Level → w.Notes R w') ∧ w'.cur.psr = w.cur.psr ∧ w'.cur.regs = w.cur.regs
      ∧ w'.cur.ssp = w.cur.ssp ∧ w'.cur.usp = w.cur.usp ∧ w'.cur.data = w.cur.data ∧ w'.cur.main = w.cur.main
      ∧ w'.cur.pending = w.cur.pending ∧ w'.cur.faultDepth = w.cur.faultDepth ∧ w'.cur.status = w.cur.status
      ∧ w'.cur.schedule = w.cur.schedule ∧ w'.cur.platform = w.cur.platform := by
  unfold loadHandler
  cases hx : dataRead .word (BitVec.ofNat 32 (ivtEntryAddr w.cur.psr v)) w with
  | ok e w1 =>
    have hr := (dataRead_sat _ _ _).ok hx
    have h := hr.cur
    dsimp only
    split
    · exact .inl ⟨_, rfl⟩
    · exact .inr ⟨_, rfl, fun R hl => ⟨(hr.notes R hl).noted, ⟨(hr.notes R hl).level.platform, (hr.notes R hl).level.draws⟩⟩, h.psr,
        h.regs, h.ssp, h.usp, h.data, h.main, h.pending, h.faultDepth, h.status, h.schedule, h.platform⟩
  | raised e w1 => exact ((dataRead_sat _ _ _).raised hx).elim
  | refused r => exact .inl ⟨r, rfl⟩

/-- The walks of a trap entry are of addresses of main memory by the tables of `s`. -/
def State.entryWalk (s : State) (_ : Pc) (u : State) : Prop := psrMmu s.psr = true ∧ s.SameTables u

/-- The two pushes of a trap entry. Where the second raises the first may have set a dirty bit. -/
theorem pushFrame_sat (saved : Pc) (w : Work) :
    (pushFrame saved w).Sat
      (fun _ w' => w.cur.raiseMode.PushFrame w'.cur
        ∧ w'.cur.ssp = spAfterPush w.cur.platform.frame (spAfterPush w.cur.platform.frame w.cur.ssp)
        ∧ (w.Level → w.Notes w.cur.entryWalk w'))
      (fun w' => w.Level → w.Notes (w.cur.walkAt (low24 (frameAddr1 w.cur))) w') := by
  have hl : w.Level → Work.Level { w with cur := w.cur.raiseMode } := fun h => ⟨h.platform, h.draws⟩
  have hb : ∀ {R} {w' : Work}, (Work.Level { w with cur := w.cur.raiseMode } →
      Work.Notes R { w with cur := w.cur.raiseMode } w') → w.Level → w.Notes R w' := fun h hw => ⟨(h (hl hw)).noted, (h (hl hw)).level⟩
  have ht : w.cur.SameTables w.cur.raiseMode :=
    ⟨rfl, psrWithS_mmu _ _, psrWithS_pdt _ _, rfl⟩
  unfold pushFrame
  refine ((push32_sat _ { w with cur := w.cur.raiseMode } (by simp [State.raiseMode])).mono (fun _ _ h => h)
    (fun _ h => hb (h _))).andThen fun _ w1 hw => ?_
  obtain ⟨hf, hssp, hn⟩ := hw
  have h1 : w.Level → w.Notes (w.cur.walkAt (low24 (frameAddr1 w.cur))) w1 := fun h =>
    (hb hn h).mono fun v u hv => ht.walkAt hv
  have ht1 : w.cur.SameTables w1.cur :=
    ht.trans ⟨hf.platform, by rw [hf.psr], by rw [hf.psr], hf.data⟩
  refine (push32_sat _ w1 (by rw [hf.psr]; simp [State.raiseMode])).mono
    (fun _ w' h => ⟨hf.trans h.1, ?_, fun hw => ((h1 hw).mono fun _ _ hv => hv.2).trans
      ((h.2.2 (h1 hw).level).mono fun _ _ hv => (ht1.walkAt hv).2)⟩)
    (fun _ h hw => (h1 hw).trans (h _ (h1 hw).level))
  rw [h.2.1, hf.platform, hssp]
  rfl

/-- Everything a trap entry inside an instruction can answer. -/
theorem trapEnterIn_cases (v : Byte) (q : BitVec 3) (saved : Pc) (w : Work) :
    (∃ r, trapEnterIn v q saved w = .refused r) ∨
    (∃ b, trapEnterIn v q saved w = .halted b.halt
      ∧ (w.Level → w.base.Noted (w.cur.walkAt (low24 (frameAddr1 w.cur))) b)) ∨
    (∃ w', trapEnterIn v q saved w = .entered w' ∧ w.cur.Entered q w'.cur ∧ (w.Level → w.Notes w.cur.entryWalk w')) := by
  unfold trapEnterIn
  cases hx : pushFrame saved w with
  | ok u w1 =>
    obtain ⟨hf, hssp, hn⟩ := (pushFrame_sat saved w).ok hx
    rcases loadHandler_cases v { w1 with cur := w1.cur.setPriority q } with
      ⟨r, hr⟩ | ⟨w2, ht, hn2, hpsr, hregs, hs, hu, hd, hm, hp, hfd, hst, hsc, hpl⟩
    · exact .inl ⟨r, hr⟩
    · refine .inr (.inr ⟨w2, ht, ?_, fun hl => ?_⟩)
      · exact ⟨hregs.trans hf.regs, hs.trans hssp, hu.trans hf.usp,
          by rw [hpsr]; show psrWithP w1.cur.psr q = _; rw [hf.psr]; rfl, hd.trans hf.data,
          hp.trans hf.pending, hfd.trans hf.faultDepth, hst.trans hf.status, hsc.trans hf.schedule, hpl.trans hf.platform,
          fun h => hm ▸ hf.mainWf h⟩
      · have h1 := hn hl
        have h2 := hn2 w.cur.entryWalk ⟨h1.level.platform, h1.level.draws⟩
        exact ⟨h1.noted.trans h2.noted, h2.level⟩
  | raised e w1 => exact .inr (.inl ⟨_, rfl, fun hl => ((pushFrame_sat saved w).raised hx hl).noted⟩)
  | refused r => exact .inl ⟨r, rfl⟩

/-- Everything a trap entry can answer. -/
theorem trapEnter_cases (v : Byte) (q : BitVec 3) (saved : Pc) (s : State) :
    (∃ r, trapEnter v q saved s = .refused r) ∨
    (∃ t, trapEnter v q saved s = .halted t ∧ s.Halted t) ∨
    (∃ t, trapEnter v q saved s = .entered t ∧ s.Entered q t) := by
  unfold trapEnter
  rcases trapEnterIn_cases v q saved (Work.start s) with ⟨r, hr⟩ | ⟨b, hr, hb⟩ | ⟨w, hr, he, -⟩
  · exact .inl ⟨r, by rw [hr]⟩
  · exact .inr (.inl ⟨_, by rw [hr], (hb (Work.start_level s)).halted⟩)
  · exact .inr (.inr ⟨_, by rw [hr], he⟩)

/-- A trap entry from a state is one inside an instruction that has done nothing. -/
theorem trapEnter_in {v : Byte} {q : BitVec 3} {saved : Pc} {s t : State} (h : trapEnter v q saved s = .entered t) :
    ∃ w, trapEnterIn v q saved (Work.start s) = .entered w ∧ w.cur = t := by
  unfold trapEnter at h
  split at h
  · next w hw => cases h; exact ⟨w, hw, rfl⟩
  · cases h
  · cases h

/-- Everything an exception can answer, whatever pc it saves: a refusal, a halted machine, the handler's first state with
the fault counted. -/
theorem enterException_cases (pc : ExcKind → Option Pc) (e : Exc) (s : State) :
    (∃ r, enterException pc e s = .refused r) ∨
    (∃ t, enterException pc e s = .next t ∧ s.Halted t) ∨
    (∃ k q saved t, enterException pc e s = .next (t.countFault k) ∧ s.Entered q t
      ∧ trapEnter (excVector e) q saved s = .entered t) := by
  unfold enterException
  split
  · exact .inl ⟨_, rfl⟩
  · next k _ =>
    split
    · exact .inl ⟨_, rfl⟩
    · next saved _ =>
      split
      · exact .inr (.inl ⟨_, rfl, halt_halted s⟩)
      · exact .inl ⟨_, rfl⟩
      · split
        · exact .inl ⟨_, rfl⟩
        · next q _ =>
          rcases trapEnter_cases (excVector e) q saved s with ⟨r, hr⟩ | ⟨t, ht, h⟩ | ⟨t, ht, h⟩
          · rw [hr]; exact .inl ⟨_, rfl⟩
          · rw [ht]; exact .inr (.inl ⟨_, rfl, h⟩)
          · rw [ht]; exact .inr (.inr ⟨k, q, saved, t, rfl, h, ht⟩)

theorem takeException_cases (e : Exc) (s : State) :
    (∃ r, takeException e s = .refused r) ∨
    (∃ t, takeException e s = .next t ∧ s.Halted t) ∨
    (∃ k q saved t, takeException e s = .next (t.countFault k) ∧ s.Entered q t
      ∧ trapEnter (excVector e) q saved s = .entered t) := enterException_cases _ e s

/-- Everything an entry that counts no fault can answer. -/
theorem enterTrap_cases (v : Byte) (q : BitVec 3) (saved : Pc) (s : State) :
    (∃ r, enterTrap v q saved s = .refused r) ∨
    (∃ t, enterTrap v q saved s = .next t ∧ s.Halted t) ∨
    (∃ t, enterTrap v q saved s = .next t ∧ s.Entered q t ∧ trapEnter v q saved s = .entered t) := by
  unfold enterTrap
  rcases trapEnter_cases v q saved s with ⟨r, hr⟩ | ⟨t, ht, h⟩ | ⟨t, ht, h⟩
  · rw [hr]; exact .inl ⟨_, rfl⟩
  · rw [ht]; exact .inr (.inl ⟨_, rfl, h⟩)
  · rw [ht]; exact .inr (.inr ⟨t, rfl, h, rfl⟩)

/-- A requested trap is refused at the last instruction, else it is an entry. -/
theorem requestTrap_eq (v : Byte) (q : BitVec 3) (s : State) :
    (∃ r, requestTrap v q s = .refused r) ∨ ∃ saved, requestTrap v q s = enterTrap v q saved s := by
  unfold requestTrap
  split
  · exact .inl ⟨_, rfl⟩
  · next saved _ => exact .inr ⟨saved, rfl⟩

/-- Everything an acknowledgement can answer. -/
theorem acknowledge_cases (r : Request) (s : State) :
    (∃ e, acknowledge r s = .refused e) ∨
    (∃ t, acknowledge r s = .next t ∧ State.Halted { s with pending := dropRequest r s.pending } t) ∨
    (∃ t, acknowledge r s = .next t ∧ State.Entered r.prio { s with pending := dropRequest r s.pending } t
      ∧ trapEnter r.vector r.prio s.pc { s with pending := dropRequest r s.pending } = .entered t) :=
  enterTrap_cases _ _ _ _

/-- A restored state: memory as it is, reserved bits 0. -/
structure State.Restored (s t : State) : Prop where
  res : psrRes t.psr = 0
  main : t.main = s.main
  data : t.data = s.data
  pending : t.pending = s.pending
  schedule : t.schedule = s.schedule
  platform : t.platform = s.platform
  status : t.status = s.status
  freeCount : t.freeCount = s.freeCount

theorem restore_sat (c r sp : Word) (w : Work) :
    (restore c r sp w).Sat (fun _ w' => w.cur.Restored w'.cur ∧ w'.cur.psr = r ∧ w'.base = w.base) (fun _ => False) := by
  unfold restore
  split
  · trivial
  · split
    · trivial
    · next h => exact ⟨⟨by simpa using h, by simp, by simp, by simp, by simp, by simp, by simp, by simp⟩, rfl, rfl⟩

/-- Everything a trap return can do: the restored state, from supervisor mode; or an exception that has changed nothing but
what is noted. -/
theorem trapReturnIn_sat (w : Work) :
    (trapReturnIn w).Sat
      (fun _ w' => psrS w.cur.psr = true ∧ (∃ u, w.cur.MainFrame u ∧ u.Restored w'.cur) ∧ (w.Level → w.Notes w.cur.entryWalk w'))
      (fun w' => w.Level → w.Notes w.cur.entryWalk w') := by
  unfold trapReturnIn
  split
  · exact Work.Notes.refl
  · next hs =>
    have hsup : psrS w.cur.psr = true := by simpa [State.supervisor] using hs
    have hp : ∀ sp w1, w.Quiet w.cur.entryWalk w1 → (pop32 sp w1).Sat (fun _ w' => w.Quiet w.cur.entryWalk w')
        (fun w' => w.Quiet w.cur.entryWalk w') := fun sp w1 h1 =>
      ((memRead_sat _ _ w1).mono
        (fun _ _ h => h1.trans (h.mono fun _ _ hv => (h1.cur.sameTables.walkAt hv).2)) (fun _ h => h1.trans h.quiet)).andThen
        fun v w2 h => h
    refine ((hp _ _ (.refl w)).mono (fun _ _ h => h) (fun _ h => h.notes)).andThen fun a w1 h1 => ?_
    refine ((hp _ _ h1).mono (fun _ _ h => h) (fun _ h => h.notes)).andThen fun b w2 h2 => ?_
    have hr : ∀ c r sp, (restore c r sp w2).Sat
        (fun _ w' => psrS w.cur.psr = true ∧ (∃ u, w.cur.MainFrame u ∧ u.Restored w'.cur) ∧ (w.Level → w.Notes w.cur.entryWalk w'))
        (fun w' => w.Level → w.Notes w.cur.entryWalk w') := fun c r sp =>
      (restore_sat c r sp w2).mono (fun _ w' h => ⟨hsup, ⟨_, h2.cur, h.1⟩, fun hl => by
        have hn := h2.notes hl
        refine ⟨by rw [h.2.2]; exact hn.noted, ⟨?_, ?_⟩⟩
        · rw [h.1.platform, h.2.2]; exact hn.level.platform
        · rw [h.1.freeCount, h.2.2]; exact hn.level.draws⟩) (fun _ h => h.elim)
    split
    · exact hr _ _ _
    · exact hr _ _ _

end Sys2Proof.Machine
end

