-- ==== Sys2Proof/Laws/Program.lean ====
section
/-! SUPPORT. What an entry's program can do: one induction over programs (`runProg_sat`), and the three relations between
the state before an instruction and the state so far that its primitives keep. -/

namespace Sys2Proof

/-! ## Which primitives a program has -/

theorem Prog.any_eq_false {f : MicroOp → Bool} {p : Prog} : p.any f = false ↔ p.all (fun o => !f o) = true := by
  induction p with
  | done => simp [Prog.any, Prog.all]
  | op o rest ih => simp [Prog.any, Prog.all, ih]
  | loop n body rest ihb ih => simp [Prog.any, Prog.all, ihb, ih]
  | branch e yes no rest ihy ihn ih => simp [Prog.any, Prog.all, ihy, ihn, ih, and_assoc]

theorem Prog.all_and {f g : MicroOp → Bool} {p : Prog} (hf : p.all f = true) (hg : p.all g = true) :
    p.all (fun o => f o && g o) = true := by
  induction p with
  | done => rfl
  | op o rest ih =>
    simp only [Prog.all, Bool.and_eq_true] at hf hg ⊢
    exact ⟨⟨hf.1, hg.1⟩, ih hf.2 hg.2⟩
  | loop n body rest ihb ih =>
    simp only [Prog.all, Bool.and_eq_true] at hf hg ⊢
    exact ⟨ihb hf.1 hg.1, ih hf.2 hg.2⟩
  | branch e yes no rest ihy ihn ih =>
    simp only [Prog.all, Bool.and_eq_true] at hf hg ⊢
    exact ⟨⟨ihy hf.1.1 hg.1.1, ihn hf.1.2 hg.1.2⟩, ih hf.2 hg.2⟩

theorem Prog.all_mono {f g : MicroOp → Bool} (h : ∀ o, f o = true → g o = true) {p : Prog} (hf : p.all f = true) :
    p.all g = true := by
  induction p with
  | done => rfl
  | op o rest ih =>
    simp only [Prog.all, Bool.and_eq_true] at hf ⊢
    exact ⟨h o hf.1, ih hf.2⟩
  | loop n body rest ihb ih =>
    simp only [Prog.all, Bool.and_eq_true] at hf ⊢
    exact ⟨ihb hf.1, ih hf.2⟩
  | branch e yes no rest ihy ihn ih =>
    simp only [Prog.all, Bool.and_eq_true] at hf ⊢
    exact ⟨⟨ihy hf.1.1, ihn hf.1.2⟩, ih hf.2⟩

theorem Prog.all_true (p : Prog) : p.all (fun _ => true) = true := by
  induction p with
  | done => rfl
  | op o rest ih => simpa [Prog.all] using ih
  | loop n body rest ihb ih => simp [Prog.all, ihb, ih]
  | branch e yes no rest ihy ihn ih => simp [Prog.all, ihy, ihn, ih]

end Sys2Proof

namespace Sys2Proof.Machine

/-! ## The fields of a context -/

@[simp] theorem Ctx.start_work (s : State) (f : Fields) (env : List Word) : (Ctx.start s f env).work = Work.start s := rfl
@[simp] theorem Ctx.start_fields (s : State) (f : Fields) (env : List Word) : (Ctx.start s f env).fields = f := rfl
@[simp] theorem Ctx.start_env (s : State) (f : Fields) (env : List Word) : (Ctx.start s f env).env = env := rfl
@[simp] theorem Ctx.start_jumped (s : State) (f : Fields) (env : List Word) : (Ctx.start s f env).jumped = false := rfl
@[simp] theorem Ctx.push_work (c : Ctx) (v : Word) : (c.push v).work = c.work := rfl
@[simp] theorem Ctx.push_env (c : Ctx) (v : Word) : (c.push v).env = c.env ++ [v] := rfl
@[simp] theorem Ctx.push_jumped (c : Ctx) (v : Word) : (c.push v).jumped = c.jumped := rfl
@[simp] theorem Ctx.withCur_cur (c : Ctx) (s : State) : (c.withCur s).work.cur = s := rfl
@[simp] theorem Ctx.withCur_base (c : Ctx) (s : State) : (c.withCur s).work.base = c.work.base := rfl
@[simp] theorem Ctx.withCur_env (c : Ctx) (s : State) : (c.withCur s).env = c.env := rfl
@[simp] theorem Ctx.withCur_jumped (c : Ctx) (s : State) : (c.withCur s).jumped = c.jumped := rfl
@[simp] theorem Ctx.commit_cur (c : Ctx) : c.commit.work.cur = c.work.cur := by unfold Ctx.commit; split <;> rfl
@[simp] theorem Ctx.commit_fields (c : Ctx) : c.commit.fields = c.fields := by unfold Ctx.commit; split <;> rfl
@[simp] theorem Ctx.commit_env (c : Ctx) : c.commit.env = c.env := by unfold Ctx.commit; split <;> rfl
@[simp] theorem Ctx.commit_jumped (c : Ctx) : c.commit.jumped = c.jumped := by unfold Ctx.commit; split <;> rfl
@[simp] theorem Ctx.landed_work (c : Ctx) (w : Work) : (c.landed w).work = w := rfl
@[simp] theorem Ctx.landed_env (c : Ctx) (w : Work) : (c.landed w).env = c.env := rfl
@[simp] theorem Ctx.landed_jumped (c : Ctx) (w : Work) : (c.landed w).jumped = true := rfl

/-! ## Divisions by 0 -/

theorem dividesByZero_total {env : List Word} {e : Expr} (h : e.total = true) : dividesByZero env e = false := by
  induction e with
  | lit w => rfl
  | opnd i => rfl
  | bin o a b iha ihb =>
    simp only [Expr.total, Bool.and_eq_true, Bool.or_eq_true, Bool.not_eq_true'] at h
    simp only [dividesByZero, iha h.1.1, ihb h.1.2, Bool.false_or, Bool.and_eq_false_iff]
    refine h.2.imp id fun hb => ?_
    cases b <;> simp_all [Expr.nonzeroLit, evalExpr]
  | ite c a b ihc iha ihb =>
    simp only [Expr.total, Bool.and_eq_true] at h
    simp [dividesByZero, ihc h.1.1, iha h.1.2, ihb h.2]
  | free k a b iha ihb =>
    simp only [Expr.total, Bool.and_eq_true] at h
    simp [dividesByZero, iha h.1, ihb h.2]

/-- Where nothing divides by 0 and nothing needs the supervisor the primitive goes on. -/
theorem checked_total (c : Ctx) {es : List Expr} (h : es.all Expr.total = true) (r : Run) : c.checked false es r = r := by
  unfold Ctx.checked
  rw [if_neg (by simp)]
  refine if_neg fun hz => ?_
  obtain ⟨e, he, hd⟩ := List.any_eq_true.1 hz
  rw [dividesByZero_total (List.all_eq_true.1 h e he)] at hd
  exact absurd hd (by simp)

/-- A primitive that the mode allows and that divides by nothing that is 0. -/
theorem runProg_op {o : MicroOp} {rest : Prog} {c c' : Ctx}
    (hs : o.needsSupervisor = false ∨ c.work.cur.supervisor = true) (hz : o.exprs.any (dividesByZero c.env) = false)
    (h : runOp o c = .go c') : runProg (.op o rest) c = runProg rest c' := by
  rw [runProg, Ctx.checked, if_neg (by rcases hs with hs | hs <;> simp [hs]), if_neg (by simp [hz]), h]

/-- One that divides by 0. -/
theorem runProg_op_divides {o : MicroOp} {rest : Prog} {c : Ctx}
    (hs : o.needsSupervisor = false ∨ c.work.cur.supervisor = true) (hz : o.exprs.any (dividesByZero c.env) = true) :
    runProg (.op o rest) c = .stop (takeException .divisionByZero c.work.base) := by
  rw [runProg, Ctx.checked, if_neg (by rcases hs with hs | hs <;> simp [hs]), if_pos hz]

/-- One that the mode does not allow. -/
theorem runProg_op_privilege {o : MicroOp} {rest : Prog} {c : Ctx} (ho : o.needsSupervisor = true)
    (hs : c.work.cur.supervisor = false) :
    runProg (.op o rest) c = .stop (takeException .privilegeViolation c.work.base) := by
  rw [runProg, Ctx.checked, if_pos ⟨ho, hs⟩]

/-! ## The induction -/

/-- `P` holds of the context if the program goes on, `Q` of the result if it has ended the instruction. -/
def Run.Sat (r : Run) (P : Ctx → Prop) (Q : Result → Prop) : Prop :=
  match r with
  | .go c => P c
  | .stop o => Q o

theorem iterate_sat {f : Nat → Ctx → Run} {P : Ctx → Prop} {Q : Result → Prop} (hf : ∀ k c, P c → (f k c).Sat P Q)
    (n : Nat) {c : Ctx} (h : P c) : (iterate f n c).Sat P Q := by
  induction n with
  | zero => exact h
  | succ n ih =>
    rw [iterate]
    cases hx : iterate f n c with
    | go c1 => rw [hx] at ih; exact hf n c1 ih
    | stop o => rw [hx] at ih; exact ih

theorem checked_sat {c : Ctx} {b : Bool} {es : List Expr} {r : Run} {P : Ctx → Prop} {Q : Result → Prop}
    (he : ∀ e, Q (takeException e c.work.base)) (h : r.Sat P Q) : (c.checked b es r).Sat P Q := by
  unfold Ctx.checked
  split
  · exact he _
  · split
    · exact he _
    · exact h

/-- If every primitive that passes `f` keeps `P`, and `P` does not look at the operand list, a program of such primitives
keeps `P`; it may also end with an exception before a primitive. -/
theorem runProg_sat {f : MicroOp → Bool} {P : Ctx → Prop} {Q : Result → Prop}
    (hop : ∀ o c, f o = true → P c → (runOp o c).Sat P Q)
    (hexc : ∀ e c, P c → Q (takeException e c.work.base)) (henv : ∀ c env, P c → P { c with env := env }) (p : Prog)
    (hp : p.all f = true) {c : Ctx} (h : P c) : (runProg p c).Sat P Q := by
  induction p generalizing c with
  | done => exact h
  | op o rest ih =>
    simp only [Prog.all, Bool.and_eq_true] at hp
    have ho := hop o c hp.1 h
    rw [runProg]
    refine checked_sat (fun e => hexc e c h) ?_
    cases hx : runOp o c with
    | go c1 => rw [hx] at ho; exact ih hp.2 ho
    | stop r => rw [hx] at ho; exact ho
  | loop n body rest ihb ih =>
    simp only [Prog.all, Bool.and_eq_true] at hp
    have hb := iterate_sat (Q := Q) (f := fun k c1 => runProg body { c1 with env := c.env ++ [BitVec.ofNat 32 k] })
      (fun k c1 h1 => ihb hp.1 (henv _ _ h1)) (evalExpr c.env n).toNat h
    rw [runProg]
    refine checked_sat (fun e => hexc e c h) ?_
    cases hx : iterate (fun k c1 => runProg body { c1 with env := c.env ++ [BitVec.ofNat 32 k] })
        (evalExpr c.env n).toNat c with
    | go c1 => rw [hx] at hb; exact ih hp.2 (henv _ _ hb)
    | stop r => rw [hx] at hb; exact hb
  | branch e yes no rest ihy ihn ih =>
    simp only [Prog.all, Bool.and_eq_true] at hp
    have hb : (if exprHolds c.env e then runProg yes c else runProg no c).Sat P Q := by
      split
      · exact ihy hp.1.1 h
      · exact ihn hp.1.2 h
    rw [runProg]
    refine checked_sat (fun e => hexc e c h) ?_
    cases hx : (if exprHolds c.env e then runProg yes c else runProg no c) with
    | go c1 => rw [hx] at hb; exact ih hp.2 (henv _ _ hb)
    | stop r => rw [hx] at hb; exact hb

/-! ## What an instruction keeps until it ends -/

/-- `t` is a state that an instruction which started in `s` has reached, whatever it has done: the psr's reserved bits stay
0. -/
structure State.Ran (s t : State) : Prop where
  pending : t.pending = s.pending
  status : t.status = s.status
  schedule : t.schedule = s.schedule
  platform : t.platform = s.platform
  res : psrRes s.psr = 0 → psrRes t.psr = 0
  mainWf : Memory.wf mainSize s.main = true → Memory.wf mainSize t.main = true
  dataWf : Memory.wf dataSize s.data = true → Memory.wf dataSize t.data = true

/-- A `Ran` of primitives of registers and memory. -/
structure State.RanMemory (s t : State) : Prop extends State.Ran s t where
  pc : t.pc = s.pc
  psr : t.psr = s.psr
  faultDepth : t.faultDepth = s.faultDepth

/-- One that leaves data memory if `d`, so that it walks the same tables. -/
structure State.RanBulk (d : Bool) (s t : State) : Prop extends State.RanMemory s t where
  data : d = true → t.data = s.data

/-- A `Ran` of primitives that need no supervisor and enter no trap: data memory is as before, and so is the supervisor's
stack pointer in user mode. -/
structure State.RanPlain (s t : State) : Prop extends State.Ran s t where
  psr : t.psr = s.psr
  data : t.data = s.data
  ssp : psrS s.psr = false → t.ssp = s.ssp

/-- What an instruction without a supervisor-only primitive does after a trap entry that left `s`: of the psr no more than
the priority changes. -/
structure State.Late (s t : State) : Prop extends State.Ran s t where
  data : t.data = s.data
  psr : t.psr = psrWithP s.psr (psrP t.psr)

theorem State.Ran.refl (s : State) : s.Ran s := ⟨rfl, rfl, rfl, rfl, id, id, id⟩
theorem State.RanMemory.refl (s : State) : s.RanMemory s := ⟨.refl s, rfl, rfl, rfl⟩
theorem State.RanBulk.refl (d : Bool) (s : State) : s.RanBulk d s := ⟨.refl s, fun _ => rfl⟩
theorem State.RanPlain.refl (s : State) : s.RanPlain s := ⟨.refl s, rfl, rfl, fun _ => rfl⟩
theorem State.Late.refl (s : State) : s.Late s := ⟨.refl s, rfl, (psrWithP_self _).symm⟩

theorem State.Ran.trans {s t u : State} (a : s.Ran t) (b : t.Ran u) : s.Ran u :=
  ⟨b.pending.trans a.pending, b.status.trans a.status, b.schedule.trans a.schedule, b.platform.trans a.platform,
    fun h => b.res (a.res h), fun h => b.mainWf (a.mainWf h), fun h => b.dataWf (a.dataWf h)⟩

theorem State.RanMemory.trans {s t u : State} (a : s.RanMemory t) (b : t.RanMemory u) : s.RanMemory u :=
  ⟨a.toRan.trans b.toRan, b.pc.trans a.pc, b.psr.trans a.psr, b.faultDepth.trans a.faultDepth⟩

theorem State.RanBulk.trans {d : Bool} {s t u : State} (a : s.RanBulk d t) (b : t.RanBulk d u) : s.RanBulk d u :=
  ⟨a.toRanMemory.trans b.toRanMemory, fun h => (b.data h).trans (a.data h)⟩

theorem State.RanPlain.trans {s t u : State} (a : s.RanPlain t) (b : t.RanPlain u) : s.RanPlain u :=
  ⟨a.toRan.trans b.toRan, b.psr.trans a.psr, b.data.trans a.data,
    fun h => (b.ssp (by rw [a.psr]; exact h)).trans (a.ssp h)⟩

theorem State.Late.plain {s t u : State} (a : s.Late t) (b : t.RanPlain u) : s.Late u :=
  ⟨a.toRan.trans b.toRan, b.data.trans a.data, by rw [b.psr]; exact a.psr⟩

theorem State.Frame.ranMemory {s t : State} (h : s.Frame t) : s.RanMemory t :=
  ⟨⟨h.pending, h.status, h.schedule, h.platform, fun hr => by rw [h.psr]; exact hr, h.mainWf, h.dataWf⟩, h.pc, h.psr,
    h.faultDepth⟩

theorem State.MainFrame.ranBulk {d : Bool} {s t : State} (h : s.MainFrame t) : s.RanBulk d t :=
  ⟨h.toFrame.ranMemory, fun _ => h.data⟩

theorem State.MainFrame.ranPlain {s t : State} (h : s.MainFrame t) : s.RanPlain t :=
  ⟨h.toFrame.ranMemory.toRan, h.psr, h.data, fun _ => h.ssp⟩

/-- What an abandoned instruction leaves is a state it can have reached. -/
theorem State.Noted.ranPlain {R : Pc → State → Prop} {s t : State} (h : s.Noted R t) : s.RanPlain t := h.baseFrame.toMainFrame.ranPlain
theorem State.Noted.ranMemory {R : Pc → State → Prop} {s t : State} (h : s.Noted R t) : s.RanMemory t := h.baseFrame.toMainFrame.toFrame.ranMemory

theorem State.Noted.ranBulk {R : Pc → State → Prop} {d : Bool} {s t : State} (h : s.Noted R t) : s.RanBulk d t :=
  h.baseFrame.toMainFrame.ranBulk

theorem State.Entered.ran {q : BitVec 3} {s t : State} (h : s.Entered q t) : s.Ran t :=
  ⟨h.pending, h.status, h.schedule, h.platform, fun hr => by rw [h.psr]; simpa using hr, h.mainWf,
    fun hw => by rw [h.data]; exact hw⟩

theorem State.Restored.ran {s t : State} (h : s.Restored t) : s.Ran t :=
  ⟨h.pending, h.status, h.schedule, h.platform, fun _ => h.res, fun hw => by rw [h.main]; exact hw,
    fun hw => by rw [h.data]; exact hw⟩

/-- A trap entry after a trap entry changes no more of the psr than the priority. -/
theorem State.Late.entered {q : BitVec 3} {s t u : State} (hs : psrS s.psr = true) (a : s.Late t) (b : t.Entered q u) :
    s.Late u := by
  refine ⟨a.toRan.trans b.ran, b.data.trans a.data, ?_⟩
  have ht : psrS t.psr = true := by rw [a.psr]; simpa using hs
  rw [b.psr, psrWithP_p, psrWithS_self ht, a.psr, psrWithP_withP]

theorem setPc_ran (s : State) (p : Pc) : s.RanPlain { s with pc := p } :=
  ⟨⟨rfl, rfl, rfl, rfl, id, id, id⟩, rfl, rfl, fun _ => rfl⟩

theorem writeReg_ranMemory (s : State) (i : RegIx) (v : Word) : s.RanMemory (s.writeReg i v) :=
  ⟨⟨by simp, by simp, by simp, by simp, by simp, by simp, by simp⟩, by simp, by simp, by simp⟩

theorem writeReg_ranBulk (d : Bool) (s : State) (i : RegIx) (v : Word) : s.RanBulk d (s.writeReg i v) :=
  ⟨writeReg_ranMemory s i v, fun _ => by simp⟩

theorem writeReg_ranPlain (s : State) (i : RegIx) (v : Word) : s.RanPlain (s.writeReg i v) := by
  refine ⟨(writeReg_ranMemory s i v).toRan, by simp, by simp, fun h => ?_⟩
  unfold State.writeReg
  split
  · rfl
  · split
    · rfl
    · simp [h]

theorem writePsr_ok {v : Word} {s t : State} (h : writePsr v s = .ok t) : psrRes v = 0 ∧ t = { s with psr := v } := by
  unfold writePsr at h
  split at h
  · exact absurd h (by simp)
  · next hr =>
    cases h
    exact ⟨not_not.mp hr, rfl⟩

theorem writePsr_ran {v : Word} {s t : State} (h : writePsr v s = .ok t) : s.Ran t := by
  obtain ⟨hr, rfl⟩ := writePsr_ok h
  exact ⟨rfl, rfl, rfl, rfl, fun _ => hr, id, id⟩

/-! ## With trap entries on the way -/

/-- `t` is reached from `s` through a trap entry: the first one leaves the psr of `s` but for s and p, and what comes after it
changes p only. -/
def State.AfterEntry (s t : State) : Prop :=
  ∃ w w' v q saved, s.RanPlain w.cur ∧ trapEnterIn v q saved w = .entered w' ∧ w.cur.Entered q w'.cur ∧ w'.cur.Late t

/-- `t` is reached from `s` by primitives that need no supervisor, trap entries among them. -/
def State.Went (s t : State) : Prop := s.RanPlain t ∨ s.AfterEntry t

theorem State.Went.refl (s : State) : s.Went s := .inl (.refl s)

theorem State.Went.ran {s t : State} (h : s.Went t) : s.Ran t := by
  rcases h with h | ⟨w, w', v, q, saved, h1, -, h2, h3⟩
  · exact h.toRan
  · exact (h1.toRan.trans h2.ran).trans h3.toRan

theorem State.Went.data {s t : State} (h : s.Went t) : t.data = s.data := by
  rcases h with h | ⟨w, w', v, q, saved, h1, -, h2, h3⟩
  · exact h.data
  · exact (h3.data.trans h2.data).trans h1.data

theorem State.Went.plain {s t u : State} (a : s.Went t) (b : t.RanPlain u) : s.Went u := by
  rcases a with h | ⟨w, w', v, q, saved, h1, h2, h3, h4⟩
  · exact .inl (h.trans b)
  · exact .inr ⟨w, w', v, q, saved, h1, h2, h3, h4.plain b⟩

theorem State.Went.entered {s : State} {w w' : Work} {v : Byte} {q : BitVec 3} {saved : Pc} (a : s.Went w.cur)
    (hx : trapEnterIn v q saved w = .entered w') (b : w.cur.Entered q w'.cur) : s.Went w'.cur := by
  rcases a with h | ⟨w1, w1', v1, q1, saved1, h1, h2, h3, h4⟩
  · exact .inr ⟨w, w', v, q, saved, h, hx, b, .refl _⟩
  · exact .inr ⟨w1, w1', v1, q1, saved1, h1, h2, h3, h4.entered (by rw [h3.psr]; simp) b⟩

/-! ## How a program ends the instruction that started in `s` -/

/-- A refusal, an exception, a halt, each from a state of which `B` holds. -/
inductive Ends (B : State → Prop) : Result → Prop where
  | refused (r : Refusal) : Ends B (.refused r)
  | exception (e : Exc) (b : State) (h : B b) : Ends B (takeException e b)
  | halts (r : HaltReason) (b : State) (h : B b) : Ends B (.next (b.haltWith r))

/-- What is left to programs of registers and memory. -/
inductive EndsMemory (B : State → Prop) : Result → Prop where
  | refused (r : Refusal) : EndsMemory B (.refused r)
  | exception (e : Exc) (b : State) (h : B b) : EndsMemory B (takeException e b)

theorem inProg_sat {α : Type} {x : Access α} {P : α → Work → Prop} {Q : Work → Prop} {I : Ctx → Prop} {E : Result → Prop}
    {f : α → Work → Ctx} (hx : x.Sat P Q) (hok : ∀ v w, P v w → I (f v w))
    (hraise : ∀ e w, Q w → E (takeException e w.base)) (href : ∀ r, E (.refused r)) : (x.inProg f).Sat I E := by
  cases x with
  | ok v w => exact hok v w hx
  | raised e w => exact hraise e w hx
  | refused r => exact href r

/-- In the middle of an instruction: `P` of the state so far, `B` of the one an exception goes back to. -/
structure Work.Of (P B : State → Prop) (w : Work) : Prop where
  cur : P w.cur
  base : B w.base
  level : w.Level

abbrev Ctx.Of (P B : State → Prop) (c : Ctx) : Prop := c.work.Of P B

theorem Ctx.start_of {P B : State → Prop} {s : State} (hp : P s) (hb : B s) (f : Fields) (env : List Word) :
    Ctx.Of P B (Ctx.start s f env) := ⟨hp, hb, Work.start_level s⟩

theorem Work.Level.withCur {w : Work} (h : w.Level) {s : State} (hp : s.platform = w.cur.platform)
    (hf : s.freeCount = w.cur.freeCount) : Work.Level { w with cur := s } := ⟨hp.trans h.platform, hf.trans h.draws⟩

/-- Whether a commit keeps what has been done or not. -/
theorem commit_of {P B : State → Prop} {c : Ctx} (h : Ctx.Of P B c) (hb : c.work.cur.platform.bulkKeeps = true → B c.work.cur) :
    Ctx.Of P B c.commit := by
  unfold Ctx.commit
  split
  · next hk => exact ⟨h.cur, hb hk, Work.start_level _⟩
  · exact h

/-- A read of main memory at a physical address. -/
theorem physLoad_sat (e : Endian) (w : Width) (a : Word) (k : Work) :
    (inMain a fun pa => physRead e w pa.toNat k).Sat (fun _ k' => k.Quiet (fun _ _ => False) k') (fun _ => False) :=
  inMain_sat <| (physRead_sat _ _ _ _).mono (fun _ _ h => by subst h; exact .refl _) (fun _ h => h)

theorem physStore_sat (w : Width) (a v : Word) (k : Work) :
    (inMain a fun pa => physWrite w pa.toNat v k).Sat (fun _ k' => k.Quiet (fun _ _ => False) k') (fun _ => False) :=
  inMain_sat <| physWrite_sat _ _ _ _ (low24 a).isLt

/-- A trap entry inside a program: a refusal, a halt, or the program goes on in the handler's first state. -/
theorem runOp_enters {o : MicroOp} (ho : o.entersTrap = true) (c : Ctx) :
    (∃ r, runOp o c = .stop (.refused r)) ∨
    (∃ b, runOp o c = .stop (.next (b.haltWith .doubleFault)) ∧ (c.work.Level → c.work.base.Noted (c.work.cur.walkAt (low24 (frameAddr1 c.work.cur))) b)) ∨
    (∃ w v q saved, runOp o c = .go (c.landed w) ∧ trapEnterIn v q saved c.work = .entered w
      ∧ c.work.cur.Entered q w.cur ∧ (c.work.Level → c.work.Notes c.work.cur.entryWalk w)) := by
  have key : ∀ v q saved, runOp o c = c.afterEntry (trapEnterIn v q saved c.work) →
      (∃ r, runOp o c = .stop (.refused r)) ∨
      (∃ b, runOp o c = .stop (.next (b.haltWith .doubleFault)) ∧ (c.work.Level → c.work.base.Noted (c.work.cur.walkAt (low24 (frameAddr1 c.work.cur))) b)) ∨
      (∃ w v q saved, runOp o c = .go (c.landed w) ∧ trapEnterIn v q saved c.work = .entered w
        ∧ c.work.cur.Entered q w.cur ∧ (c.work.Level → c.work.Notes c.work.cur.entryWalk w)) := fun v q saved h => by
    rw [h]
    rcases trapEnterIn_cases v q saved c.work with ⟨r, hr⟩ | ⟨b, hr, hb⟩ | ⟨w, hr, he, hn⟩
    · exact .inl ⟨r, by rw [hr]; rfl⟩
    · exact .inr (.inl ⟨b, by rw [hr]; rfl, hb⟩)
    · exact .inr (.inr ⟨w, v, q, saved, by rw [hr]; rfl, hr, he, hn⟩)
  cases o with
  | requestTrap v q =>
    cases hp : c.work.base.nextPc with
    | none => exact .inl ⟨_, by unfold runOp; dsimp only; rw [hp]⟩
    | some p => exact key _ _ _ (by unfold runOp; dsimp only; rw [hp])
  | trapEnter v q saved =>
    cases hp : targetPc (evalExpr c.env saved).toNat with
    | none => exact .inl ⟨_, by unfold runOp; dsimp only; rw [hp]⟩
    | some p => exact key _ _ _ (by unfold runOp; dsimp only; rw [hp])
  | _ => exact absurd ho (by simp [MicroOp.entersTrap])

/-- The same for two relations of which the entry keeps the first. -/
theorem runOp_enters_sat {P B : State → Prop} (hB : ∀ {R b b'}, B b → b.Noted R b' → B b') {o : MicroOp}
    (ho : o.entersTrap = true) {c : Ctx} (hc : Ctx.Of P B c)
    (hP : ∀ {v q saved w}, trapEnterIn v q saved c.work = .entered w → c.work.cur.Entered q w.cur → P w.cur) :
    (runOp o c).Sat (Ctx.Of P B) (Ends B) := by
  rcases runOp_enters ho c with ⟨r, hr⟩ | ⟨b, hr, hb⟩ | ⟨w, v, q, saved, hr, hx, he, hn⟩
  · rw [hr]; exact .refused _
  · rw [hr]; exact .halts _ _ (hB hc.base (hb hc.level))
  · have hn := hn hc.level
    rw [hr]
    exact ⟨hP hx he, hB hc.base hn.noted, hn.level⟩

theorem runOp_sat (s : State) (o : MicroOp) (c : Ctx) (hc : Ctx.Of s.Ran s.Ran c) :
    (runOp o c).Sat (Ctx.Of s.Ran s.Ran) (Ends s.Ran) := by
  have ⟨h1, h2, hl⟩ := hc
  have quiet : ∀ {R} {w : Work} {c' : Ctx}, c'.work = w → c.work.Quiet R w → Ctx.Of s.Ran s.Ran c' := fun e h => by
    subst e
    exact ⟨h1.trans h.cur.ranPlain.toRan, h2.trans (h.notes hl).noted.ranPlain.toRan, (h.notes hl).level⟩
  have hB : ∀ {R b b'}, s.Ran b → b.Noted R b' → s.Ran b' := fun h h' => h.trans h'.ranPlain.toRan
  have raises : ∀ e w, c.work.Reads w → Ends s.Ran (takeException e w.base) := fun e w h =>
    .exception e _ (hB h2 (h.notes (fun _ _ => False) hl).noted)
  cases o with
  | compute e => exact hc
  | fieldNumber f => exact hc
  | readReg r => exact hc
  | writeReg r e => exact ⟨h1.trans (writeReg_ranPlain _ _ _).toRan, h2, hl.withCur (by simp) (by simp)⟩
  | readPc => exact hc
  | readPsr => exact hc
  | writePsr e =>
    unfold runOp
    dsimp only
    split
    · next hw =>
      refine ⟨h1.trans (writePsr_ran hw), h2, ?_⟩
      obtain ⟨-, rfl⟩ := writePsr_ok hw
      exact hl.withCur rfl rfl
    · exact .refused _
  | jump e =>
    unfold runOp
    dsimp only
    split
    · exact ⟨h1.trans (setPc_ran _ _).toRan, h2, hl.withCur rfl rfl⟩
    · exact .refused _
  | load sp w x a => exact inProg_sat (loadFrom_sat sp w _ c.work) (fun _ _ h => quiet rfl h) raises .refused
  | store sp w a v =>
    exact inProg_sat (storeTo_sat sp w _ _ c.work) (fun _ _ h => ⟨h1.trans h.1.cur.ranMemory.toRan,
      hB h2 (h.1.notes hl).noted, (h.1.notes hl).level⟩) raises .refused
  | physLoad w x a => exact inProg_sat (physLoad_sat _ w _ c.work) (fun _ _ h => quiet rfl h) (fun _ _ h => h.elim) .refused
  | physStore w a v => exact inProg_sat (physStore_sat w _ _ c.work) (fun _ _ h => quiet rfl h) (fun _ _ h => h.elim) .refused
  | fetchWord a => exact inProg_sat (inMain_sat <| fetchAt_sat _ c.work) (fun _ _ h => quiet rfl h) raises .refused
  | require e =>
    unfold runOp
    dsimp only
    split
    · exact hc
    · exact .refused _
  | checkDivisor e =>
    unfold runOp
    dsimp only
    split
    · exact hc
    · exact .exception _ _ h2
  | raise e => exact .exception e _ h2
  | requestTrap v q => exact runOp_enters_sat hB rfl hc fun _ he => h1.trans he.ran
  | trapEnter v q saved => exact runOp_enters_sat hB rfl hc fun _ he => h1.trans he.ran
  | trapReturn =>
    refine inProg_sat (trapReturnIn_sat c.work) (fun _ w' h => ?_)
      (fun e _ h => .exception e _ (hB h2 (h hl).noted)) .refused
    obtain ⟨-, ⟨u, hu, hr⟩, hn⟩ := h
    exact ⟨(h1.trans hu.ranPlain.toRan).trans hr.ran, hB h2 (hn hl).noted, (hn hl).level⟩
  | commit => exact commit_of hc fun _ => h1
  | halt => exact .halts _ _ h1

/-- A primitive that needs no supervisor keeps every relation that plain primitives keep, and trap entries if it is one. -/
theorem runOp_sat_plain {B : State → Prop} (hp : ∀ {t u}, B t → t.RanPlain u → B u) (o : MicroOp) (c : Ctx)
    (ho : o.needsSupervisor = false)
    (he : o.entersTrap = true → ∀ {v q saved w}, trapEnterIn v q saved c.work = .entered w →
      c.work.cur.Entered q w.cur → B w.cur)
    (hc : Ctx.Of B B c) : (runOp o c).Sat (Ctx.Of B B) (Ends B) := by
  have ⟨h1, h2, hl⟩ := hc
  have quiet : ∀ {R} {w : Work} {c' : Ctx}, c'.work = w → c.work.Quiet R w → Ctx.Of B B c' := fun e h => by
    subst e
    exact ⟨hp h1 h.cur.ranPlain, hp h2 (h.notes hl).noted.ranPlain, (h.notes hl).level⟩
  have hB : ∀ {R b b'}, B b → b.Noted R b' → B b' := fun h h' => hp h h'.ranPlain
  have raises : ∀ e w, c.work.Reads w → Ends B (takeException e w.base) := fun e w h =>
    .exception e _ (hB h2 (h.notes (fun _ _ => False) hl).noted)
  cases o with
  | compute e => exact hc
  | fieldNumber f => exact hc
  | readReg r => exact hc
  | writeReg r e => exact ⟨hp h1 (writeReg_ranPlain _ _ _), h2, hl.withCur (by simp) (by simp)⟩
  | readPc => exact hc
  | readPsr => exact hc
  | writePsr e => exact absurd ho (by simp [MicroOp.needsSupervisor])
  | jump e =>
    unfold runOp
    dsimp only
    split
    · exact ⟨hp h1 (setPc_ran _ _), h2, hl.withCur rfl rfl⟩
    · exact .refused _
  | load sp w x a => exact inProg_sat (loadFrom_sat sp w _ c.work) (fun _ _ h => quiet rfl h) raises .refused
  | store sp w a v =>
    cases sp with
    | data => exact absurd ho (by simp [MicroOp.needsSupervisor])
    | main => exact inProg_sat (storeTo_sat .main w _ _ c.work) (fun _ _ h => quiet rfl (h.2 rfl)) raises .refused
  | physLoad w x a => exact inProg_sat (physLoad_sat _ w _ c.work) (fun _ _ h => quiet rfl h) (fun _ _ h => h.elim) .refused
  | physStore w a v => exact inProg_sat (physStore_sat w _ _ c.work) (fun _ _ h => quiet rfl h) (fun _ _ h => h.elim) .refused
  | fetchWord a => exact inProg_sat (inMain_sat <| fetchAt_sat _ c.work) (fun _ _ h => quiet rfl h) raises .refused
  | require e =>
    unfold runOp
    dsimp only
    split
    · exact hc
    · exact .refused _
  | checkDivisor e =>
    unfold runOp
    dsimp only
    split
    · exact hc
    · exact .exception _ _ h2
  | raise e => exact .exception e _ h2
  | requestTrap v q => exact runOp_enters_sat hB rfl hc (he rfl)
  | trapEnter v q saved => exact runOp_enters_sat hB rfl hc (he rfl)
  | trapReturn => exact absurd ho (by simp [MicroOp.needsSupervisor])
  | commit => exact commit_of hc fun _ => h1
  | halt => exact .halts _ _ h1

/-- The walks of an M instruction that started in `s` are of the tables of `s`, but for what it has stored to data memory
itself where it has such a store (46_m.md R145). -/
def State.bulkWalk (d : Bool) (s : State) (_ : Pc) (u : State) : Prop :=
  psrMmu s.psr = true ∧ u.platform = s.platform ∧ psrPdt u.psr = psrPdt s.psr ∧ (d = true → u.data = s.data)

theorem State.RanBulk.walkAt {d : Bool} {s t u : State} {va v : Pc} (h : s.RanBulk d t) (hw : t.walkAt va v u) :
    s.bulkWalk d v u := by
  obtain ⟨-, hm, hu⟩ := hw
  exact ⟨by rw [← h.psr]; exact hm, hu.platform.trans h.platform, by rw [hu.pdt, h.psr], fun hd => hu.data.trans (h.data hd)⟩

/-- A primitive of registers and memory, `B` being closed under what an abandoned instruction leaves and, where the
primitive commits, under what has been done. It sets no pc. -/
theorem runOp_sat_memory {d : Bool} {s : State} {B : State → Prop} (hB : ∀ {b b'}, B b → b.Noted (s.bulkWalk d) b' → B b')
    (o : MicroOp) (c : Ctx) (ho : o.memoryOnly = true) (hd : d = true → o.storesData = false)
    (hcom : o.commits = true → s.platform.bulkKeeps = true → ∀ t, s.RanBulk d t → B t)
    (hc : Ctx.Of (s.RanBulk d) B c ∧ c.jumped = false) :
    (runOp o c).Sat (fun c' => Ctx.Of (s.RanBulk d) B c' ∧ c'.jumped = false) (EndsMemory B) := by
  have ⟨⟨h1, h2, hl⟩, ht⟩ := hc
  have raises : ∀ e w, c.work.Reads w → EndsMemory B (takeException e w.base) := fun e w h =>
    .exception e _ (hB h2 (h.notes _ hl).noted)
  have notes : ∀ {va w}, c.work.Notes (c.work.cur.walkAt va) w → B w.base := fun h =>
    hB h2 (h.mono fun _ _ => h1.walkAt).noted
  cases o with
  | compute e => exact hc
  | fieldNumber f => exact hc
  | readReg r => exact hc
  | writeReg r e =>
    exact ⟨⟨h1.trans (writeReg_ranBulk _ _ _ _), h2, hl.withCur (by simp) (by simp)⟩, ht⟩
  | load sp w x a =>
    exact inProg_sat (loadFrom_sat sp w _ c.work) (fun _ _ h => ⟨⟨h1.trans h.cur.ranBulk, notes (h.notes hl),
      (h.notes hl).level⟩, ht⟩) raises .refused
  | store sp w a v =>
    refine inProg_sat (storeTo_sat sp w _ _ c.work) (fun _ _ h => ⟨⟨h1.trans ⟨h.1.cur.ranMemory, fun hx => ?_⟩,
      notes (h.1.notes hl), (h.1.notes hl).level⟩, ht⟩) raises .refused
    have := hd hx
    cases sp with
    | main => exact (h.2 rfl).cur.data
    | data => exact absurd this (by simp [MicroOp.storesData])
  | require e =>
    unfold runOp
    dsimp only
    split
    · exact hc
    · exact .refused _
  | commit =>
    exact ⟨commit_of hc.1 fun hk => hcom rfl (by rw [← h1.platform]; exact hk) _ h1, (Ctx.commit_jumped c).trans ht⟩
  | readPc | readPsr | writePsr e | jump e | physLoad w x a | physStore w a v | fetchWord a | checkDivisor e | raise e
  | requestTrap v q | trapEnter v q saved | trapReturn | halt => exact absurd ho (by simp [MicroOp.memoryOnly])

/-! ## Whole programs -/

/-- A program, whatever its primitives. -/
theorem runProg_ran (s : State) (p : Prog) (f : Fields) (env : List Word) :
    (runProg p (Ctx.start s f env)).Sat (Ctx.Of s.Ran s.Ran) (Ends s.Ran) :=
  runProg_sat (f := fun _ => true) (fun o c _ h => runOp_sat s o c h) (fun _ _ h => .exception _ _ h.base)
    (fun _ _ h => h) p p.all_true (Ctx.start_of (.refl s) (.refl s) f env)

/-- A program without a supervisor-only primitive. -/
theorem runProg_went (s : State) (p : Prog) (hp : p.needsSupervisor = false) (f : Fields) (env : List Word) :
    (runProg p (Ctx.start s f env)).Sat (Ctx.Of s.Went s.Went) (Ends s.Went) :=
  runProg_sat (f := fun o => !o.needsSupervisor)
    (fun o c ho h => runOp_sat_plain (fun h h' => h.plain h') o c (by simpa using ho) (fun _ => h.cur.entered) h)
    (fun _ _ h => .exception _ _ h.base) (fun _ _ h => h) p (Prog.any_eq_false.1 hp) (Ctx.start_of (.refl s) (.refl s) f env)

/-- A program of registers and memory: an exception is from a state with the psr as before. -/
theorem runProg_memory (s : State) (p : Prog) (hp : p.memoryOnly = true) (f : Fields) (env : List Word) :
    (runProg p (Ctx.start s f env)).Sat
      (fun c => Ctx.Of (s.RanBulk false) (s.RanBulk false) c ∧ c.jumped = false) (EndsMemory (s.RanBulk false)) :=
  runProg_sat (f := MicroOp.memoryOnly)
    (fun o c ho h => runOp_sat_memory (fun h h' => h.trans h'.ranBulk) o c ho (fun h => by cases h) (fun _ _ _ h => h) h)
    (fun _ _ h => .exception _ _ h.1.base) (fun _ _ h => h) p hp ⟨Ctx.start_of (.refl _ s) (.refl _ s) f env, rfl⟩

/-- One that commits nothing, or may not: an exception leaves nothing of it. -/
theorem runProg_memory_abandons (s : State) (p : Prog) (hp : p.memoryOnly = true)
    (hc : p.commits = false ∨ s.platform.bulkKeeps = false) (f : Fields) (env : List Word) :
    (runProg p (Ctx.start s f env)).Sat
      (fun c => Ctx.Of (s.RanBulk (!p.storesData)) (s.Noted (s.bulkWalk (!p.storesData))) c ∧ c.jumped = false)
      (EndsMemory (s.Noted (s.bulkWalk (!p.storesData)))) := by
  have hs : p.all (fun o => p.storesData || !o.storesData) = true := by
    cases hx : p.storesData with
    | true => simpa using p.all_true
    | false => simpa using Prog.any_eq_false.1 hx
  have hk : p.all (fun o => s.platform.bulkKeeps == false || !o.commits) = true := by
    rcases hc with hc | hc
    · exact Prog.all_mono (fun o ho => by simp_all) (Prog.any_eq_false.1 hc)
    · simpa [hc] using p.all_true
  refine runProg_sat (f := fun o => o.memoryOnly && ((p.storesData || !o.storesData) && (s.platform.bulkKeeps == false || !o.commits)))
    (fun o c ho h => ?_) (fun _ _ h => .exception _ _ h.1.base) (fun _ _ h => h) p
    (Prog.all_and hp (Prog.all_and hs hk)) ⟨Ctx.start_of (.refl _ s) .refl f env, rfl⟩
  simp only [Bool.and_eq_true, Bool.or_eq_true, Bool.not_eq_true', beq_iff_eq] at ho
  refine runOp_sat_memory (fun h h' => h.trans h') o c ho.1 (fun hd => ?_) (fun hx hy => ?_) h
  · simpa [(Bool.not_eq_true' _).mp hd] using ho.2.1
  · simp [hx, hy] at ho

/-- A program without a supervisor-only primitive and without a trap entry. -/
theorem runProg_plain (s : State) (p : Prog) (hs : p.needsSupervisor = false) (he : p.any MicroOp.entersTrap = false) {c : Ctx}
    (hc : Ctx.Of s.RanPlain s.RanPlain c) : (runProg p c).Sat (Ctx.Of s.RanPlain s.RanPlain) (Ends s.RanPlain) :=
  runProg_sat (f := fun o => !o.needsSupervisor && !o.entersTrap)
    (fun o c ho h => by
      simp only [Bool.and_eq_true, Bool.not_eq_true'] at ho
      exact runOp_sat_plain (fun h h' => h.trans h') o c ho.1 (fun hx => by simp [ho.2] at hx) h)
    (fun e _ h => .exception e _ h.base) (fun _ _ h => h) p (Prog.all_and (Prog.any_eq_false.1 hs) (Prog.any_eq_false.1 he)) hc

/-- What a program has made if its last primitive was a trap entry. -/
def Ctx.JustEntered (s : State) (c : Ctx) : Prop :=
  c.jumped = true ∧ ∃ w v q saved, s.RanPlain w.cur ∧ trapEnterIn v q saved w = .entered c.work
    ∧ w.cur.Entered q c.work.cur

/-- A program without a supervisor-only primitive and with nothing after its trap entries: it ends right after an entry, or
it has made none. -/
theorem runProg_entersLast (s : State) (p : Prog) (hs : p.needsSupervisor = false) (hl : p.entersLast = true) {c : Ctx}
    (hc : Ctx.Of s.RanPlain s.RanPlain c) :
    (runProg p c).Sat (fun c' => Ctx.Of s.RanPlain s.RanPlain c' ∨ c'.JustEntered s) (Ends s.RanPlain) := by
  have hexc : ∀ (e : Exc) (c : Ctx), Ctx.Of s.RanPlain s.RanPlain c → Ends s.RanPlain (takeException e c.work.base) :=
    fun e c h => .exception e _ h.base
  induction p generalizing c with
  | done => exact .inl hc
  | op o rest ih =>
    simp only [Prog.needsSupervisor, Prog.any, Bool.or_eq_false_iff] at hs
    simp only [Prog.entersLast, Bool.and_eq_true, Bool.or_eq_true, Bool.not_eq_true', beq_iff_eq] at hl
    rw [runProg]
    refine checked_sat (fun e => hexc e c hc) ?_
    cases ho : o.entersTrap with
    | false =>
      have h := runOp_sat_plain (B := s.RanPlain) (fun h h' => h.trans h') o c hs.1 (fun hx => by simp [ho] at hx) hc
      cases hx : runOp o c with
      | go c1 => rw [hx] at h; exact ih hs.2 hl.2 h
      | stop r => rw [hx] at h; exact h
    | true =>
      have hr : rest = .done := hl.1.resolve_left (by simp [ho])
      subst hr
      rcases runOp_enters ho c with ⟨r, hr⟩ | ⟨b, hr, hb⟩ | ⟨w, v, q, saved, hr, hx, he, -⟩
      · rw [hr]; exact .refused _
      · rw [hr]; exact .halts _ _ (hc.base.trans (hb hc.level).ranPlain)
      · rw [hr]; exact .inr ⟨rfl, c.work, v, q, saved, hc.cur, hx, he⟩
  | loop n body rest ihb ih =>
    simp only [Prog.needsSupervisor, Prog.any, Bool.or_eq_false_iff] at hs
    simp only [Prog.entersLast, Bool.and_eq_true, Bool.not_eq_true'] at hl
    have hb := iterate_sat (Q := Ends s.RanPlain)
      (f := fun k c1 => runProg body { c1 with env := c.env ++ [BitVec.ofNat 32 k] }) (P := Ctx.Of s.RanPlain s.RanPlain)
      (fun k c1 h1 => runProg_plain s _ hs.1 hl.1 h1) (evalExpr c.env n).toNat hc
    rw [runProg]
    refine checked_sat (fun e => hexc e c hc) ?_
    cases hx : iterate (fun k c1 => runProg body { c1 with env := c.env ++ [BitVec.ofNat 32 k] })
        (evalExpr c.env n).toNat c with
    | go c1 => rw [hx] at hb; exact ih hs.2 hl.2 (c := { c1 with env := c.env }) hb
    | stop r => rw [hx] at hb; exact hb
  | branch e yes no rest ihy ihn ih =>
    simp only [Prog.needsSupervisor, Prog.any, Bool.or_eq_false_iff] at hs
    simp only [Prog.entersLast, Bool.and_eq_true] at hl
    rw [runProg]
    refine checked_sat (fun e => hexc e c hc) ?_
    by_cases hr : rest = .done
    · have hl1 := hl.1
      rw [if_pos hr, Bool.and_eq_true] at hl1
      have hb : (if exprHolds c.env e then runProg yes c else runProg no c).Sat
          (fun c' => Ctx.Of s.RanPlain s.RanPlain c' ∨ c'.JustEntered s) (Ends s.RanPlain) := by
        split
        · exact ihy hs.1.1 hl1.1 hc
        · exact ihn hs.1.2 hl1.2 hc
      subst hr
      cases hx : (if exprHolds c.env e then runProg yes c else runProg no c) with
      | go c1 => rw [hx] at hb; exact hb
      | stop r => rw [hx] at hb; exact hb
    · have hl1 := hl.1
      rw [if_neg hr, Bool.and_eq_true, Bool.not_eq_true', Bool.not_eq_true'] at hl1
      have hb : (if exprHolds c.env e then runProg yes c else runProg no c).Sat (Ctx.Of s.RanPlain s.RanPlain)
          (Ends s.RanPlain) := by
        split
        · exact runProg_plain s _ hs.1.1 hl1.1 hc
        · exact runProg_plain s _ hs.1.2 hl1.2 hc
      cases hx : (if exprHolds c.env e then runProg yes c else runProg no c) with
      | go c1 => rw [hx] at hb; exact ih hs.2 hl.2 (c := { c1 with env := c.env }) hb
      | stop r => rw [hx] at hb; exact hb

end Sys2Proof.Machine
end

