-- ==== Sys2Proof/Laws/Exec.lean ====
section
/-! SUPPORT. What exec can answer, once for all instructions (`exec_ran`), and for the instructions that need no supervisor
(`exec_user`; of it `exec_went` with trap entries anywhere, `exec_last` with nothing after them). -/

namespace Sys2Proof.Machine

/-- Every answer of an instruction: a refusal, an exception or a halt from a state of which `B` holds, or a next state of
which `G` holds. -/
inductive Answers (B G : State → Prop) : Result → Prop where
  | ends (o : Result) (h : Ends B o) : Answers B G o
  | goes (u : State) (h : G u) : Answers B G (.next u)

theorem Ends.mono {B B' : State → Prop} (hb : ∀ t, B t → B' t) {o : Result} (h : Ends B o) : Ends B' o := by
  cases h with
  | refused r => exact .refused r
  | exception e b h => exact .exception e b (hb b h)
  | halts r b h => exact .halts r b (hb b h)

theorem Answers.mono {B B' G G' : State → Prop} (hb : ∀ t, B t → B' t) (hg : ∀ t, G t → G' t) {o : Result}
    (h : Answers B G o) : Answers B' G' o := by
  cases h with
  | ends o h => exact .ends _ (h.mono hb)
  | goes u h => exact .goes u (hg u h)

theorem Answers.refused {B G : State → Prop} (r : Refusal) : Answers B G (.refused r) := .ends _ (.refused r)

theorem Answers.exception {B G : State → Prop} {s : State} (h : B s) (e : Exc) : Answers B G (takeException e s) :=
  .ends _ (.exception e s h)

/-- What the meanings that are no programs answer in user mode. -/
abbrev AnswersPlain (s : State) : Result → Prop := Answers s.RanPlain s.RanPlain

theorem AnswersPlain.ran {s : State} {o : Result} (h : AnswersPlain s o) : Answers s.Ran s.Ran o :=
  h.mono (fun _ h => h.toRan) fun _ h => h.toRan

/-- A relation that a next pc keeps. -/
theorem advance_answers {B G : State → Prop} (hp : ∀ t p, G t → G { t with pc := p }) {u : State} (h : G u) :
    Answers B G (advance u) := by
  unfold advance
  split
  · exact .goes _ (hp u _ h)
  · exact .refused _

theorem State.Ran.setPc {s t : State} (p : Pc) (h : s.Ran t) : s.Ran { t with pc := p } := h.trans (setPc_ran t p).toRan
theorem State.RanPlain.setPc {s t : State} (p : Pc) (h : s.RanPlain t) : s.RanPlain { t with pc := p } :=
  h.trans (setPc_ran t p)
theorem State.Went.setPc {s t : State} (p : Pc) (h : s.Went t) : s.Went { t with pc := p } := h.plain (setPc_ran t p)

theorem advance_ran {s u : State} (h : s.Ran u) : Answers s.Ran s.Ran (advance u) := advance_answers (fun _ p => .setPc p) h
theorem advance_plain {s u : State} (h : s.RanPlain u) : AnswersPlain s (advance u) := advance_answers (fun _ p => .setPc p) h

theorem jumpTo_plain {s u : State} (t : Int) (h : s.RanPlain u) : AnswersPlain s (jumpTo t u) := by
  unfold jumpTo
  split
  · exact .goes _ (h.setPc _)
  · exact .refused _

theorem finishAlu_plain {s : State} (r : AluResult) {f : Word → State} (h : ∀ v, s.RanPlain (f v)) :
    AnswersPlain s (finishAlu r s f) := by
  cases r with
  | value v => exact advance_plain (h v)
  | divisionByZero => exact .exception (.refl s) _
  | silent => exact .refused _

/-! ## Programs -/

theorem endProg_answers {B : State → Prop} (hp : ∀ t p, B t → B { t with pc := p }) {r : Run}
    (h : r.Sat (Ctx.Of B B) (Ends B)) : Answers B B (endProg r) := by
  cases r with
  | stop o => exact .ends o h
  | go c =>
    unfold endProg
    dsimp only
    split
    · exact .goes _ h.cur
    · exact advance_answers hp h.cur

theorem execProg_ran (p : Prog) (f : Fields) (env : List Word) (s : State) : Answers s.Ran s.Ran (execProg p f env s) :=
  endProg_answers (fun _ p => .setPc p) (runProg_ran s p f env)

theorem execProg_went {p : Prog} (hp : p.needsSupervisor = false) (f : Fields) (env : List Word) (s : State) :
    Answers s.Went s.Went (execProg p f env s) :=
  endProg_answers (fun _ p => .setPc p) (runProg_went s p hp f env)

/-- The next state of an instruction that goes on in it: a state reached by plain primitives, or a trap entry's own. -/
def State.WentLast (s t : State) : Prop :=
  s.RanPlain t ∨ ∃ w w' v q saved, s.RanPlain w.cur ∧ trapEnterIn v q saved w = .entered w' ∧ w.cur.Entered q w'.cur
    ∧ t = w'.cur

theorem execProg_last {p : Prog} (hp : p.needsSupervisor = false) (hl : p.entersLast = true) (f : Fields) (env : List Word)
    (s : State) : Answers s.RanPlain s.WentLast (execProg p f env s) := by
  have h := runProg_entersLast s p hp hl (Ctx.start_of (.refl s) (.refl s) f env)
  unfold execProg
  cases hr : runProg p (Ctx.start s f env) with
  | stop o => rw [hr] at h; exact .ends o h
  | go c =>
    rw [hr] at h
    rcases h with h | ⟨hj, w, v, q, saved, h1, h2, h3⟩
    · exact Answers.mono (fun _ => id) (fun _ => .inl)
        (endProg_answers (r := .go c) (fun _ p => .setPc p) h)
    · unfold endProg
      dsimp only
      rw [if_pos hj]
      exact .goes _ (.inr ⟨w, c.work, v, q, saved, h1, h2, h3, rfl⟩)

/-- A trap entry that is a whole instruction. -/
theorem requestTrap_last (v : Byte) (q : BitVec 3) (s : State) : Answers s.RanPlain s.WentLast (requestTrap v q s) := by
  rcases requestTrap_eq v q s with ⟨r, hr⟩ | ⟨saved, hr⟩
  · rw [hr]; exact .refused _
  · rw [hr]
    unfold enterTrap trapEnter
    rcases trapEnterIn_cases v q saved (Work.start s) with ⟨r, hr⟩ | ⟨b, hr, hb⟩ | ⟨w, hr, he, -⟩
    · rw [hr]; exact .refused _
    · rw [hr]; exact .ends _ (.halts _ _ (hb (Work.start_level s)).ranPlain)
    · rw [hr]; exact .goes _ (.inr ⟨Work.start s, w, v, q, saved, .refl s, hr, he, rfl⟩)

theorem State.WentLast.went {s t : State} (h : s.WentLast t) : s.Went t := by
  rcases h with h | ⟨w, w', v, q, saved, h1, h2, h3, rfl⟩
  · exact .inl h
  · exact .inr ⟨w, w', v, q, saved, h1, h2, h3, .refl _⟩

theorem requestTrap_went (v : Byte) (q : BitVec 3) (s : State) : Answers s.Went s.Went (requestTrap v q s) :=
  (requestTrap_last v q s).mono (fun _ => .inl) fun _ h => h.went

theorem trapReturn_ran (s : State) : Answers s.Ran s.Ran (trapReturn (Work.start s)) := by
  have h := trapReturnIn_sat (Work.start s)
  unfold trapReturn
  cases hx : trapReturnIn (Work.start s) with
  | ok v w =>
    obtain ⟨-, ⟨u, hu, hr⟩, -⟩ := h.ok hx
    exact .goes _ (hu.ranPlain.toRan.trans hr.ran)
  | raised e w => exact .exception ((h.raised hx) (Work.start_level s)).noted.ranPlain.toRan e
  | refused r => exact .refused r

/-- A program of primitives that pass a check which no trap entry and no supervisor-only primitive passes. -/
theorem plainProg {f : MicroOp → Bool} (hf : ∀ o, f o = true → o.needsSupervisor = false ∧ o.entersTrap = false) {p : Prog}
    (h : p.all f = true) : p.needsSupervisor = false ∧ p.any MicroOp.entersTrap = false :=
  ⟨Prog.any_eq_false.2 (Prog.all_mono (fun o ho => by simp [(hf o ho).1]) h),
    Prog.any_eq_false.2 (Prog.all_mono (fun o ho => by simp [(hf o ho).2]) h)⟩

/-- A program that an R entry may have needs no supervisor and enters no trap. -/
theorem arithOnly_plain {p : Prog} (h : p.arithOnly = true) : p.needsSupervisor = false ∧ p.any MicroOp.entersTrap = false :=
  plainProg (fun o ho => by cases o <;> first | exact ⟨rfl, rfl⟩ | exact absurd ho (by simp [MicroOp.arithOnly])) h

/-- A program of registers. -/
theorem registerOnly_plain {p : Prog} (h : p.registerOnly = true) :
    p.needsSupervisor = false ∧ p.any MicroOp.entersTrap = false := by
  simp only [Prog.registerOnly, Bool.and_eq_true] at h
  exact plainProg (fun o ho => by cases o <;> first | exact ⟨rfl, rfl⟩ | exact absurd ho (by simp [MicroOp.registerOnly])) h.1

theorem registerOnly_user {p : Prog} (h : p.registerOnly = true) : p.needsSupervisor = false := (registerOnly_plain h).1

theorem memoryOnly_entersTrap {p : Prog} (h : p.memoryOnly = true) : p.any MicroOp.entersTrap = false :=
  Prog.any_eq_false.2 (Prog.all_mono (fun o ho => by
    cases o <;> first | rfl | exact absurd ho (by simp [MicroOp.memoryOnly])) h)

/-- A program that enters no trap has nothing after its trap entries. -/
theorem entersLast_of_none {p : Prog} (h : p.any MicroOp.entersTrap = false) : p.entersLast = true := by
  induction p with
  | done => rfl
  | op o rest ih =>
    simp only [Prog.any, Bool.or_eq_false_iff] at h
    simp [Prog.entersLast, h.1, ih h.2]
  | loop n body rest ihb ih =>
    simp only [Prog.any, Bool.or_eq_false_iff] at h
    simp [Prog.entersLast, h.1, ih h.2]
  | branch e yes no rest ihy ihn ih =>
    simp only [Prog.any, Bool.or_eq_false_iff] at h
    simp [Prog.entersLast, h.1.1, h.1.2, ihy h.1.1, ihn h.1.2, ih h.2]

/-- A meaning's answers are those of its entry's body, a privilege violation, Illegal Instruction or a refusal. -/
theorem withEntry_of {β : Type} {f : Found (Entry β)} {z n : β → Bool} {s : State} {run : β → Result} {R : Result → Prop}
    (href : ∀ r, R (.refused r)) (hexc : ∀ e, R (takeException e s))
    (h : ∀ e, f = .entry e → (s.supervisor = true ∨ n e.body = false) → R (run e.body)) :
    R (withEntry f z n s run) := by
  unfold withEntry
  cases f with
  | unknown => exact href _
  | illegal => exact hexc _
  | entry e =>
    dsimp only
    split
    · exact href _
    · split
      · exact hexc _
      · next hn =>
        refine h e rfl ?_
        cases hs : s.supervisor with
        | true => exact .inl rfl
        | false =>
          cases hb : n e.body with
          | false => exact .inr rfl
          | true => exact absurd ⟨hs, .inr hb⟩ hn

/-! ## Each family -/

theorem execSysBody_ran (b : SysBody) (r1 : RegIx) (v : Byte) (s : State) : Answers s.Ran s.Ran (execSysBody b r1 v s) := by
  cases b with
  | writePsr =>
    unfold execSysBody sysWritePsr
    dsimp only
    split
    · next h => exact advance_ran (writePsr_ran h)
    · exact .refused _
  | readPsr => exact advance_ran (writeReg_ranPlain _ _ _).toRan
  | trapReturn => exact trapReturn_ran s
  | requestTrap tv tp => exact (requestTrap_went _ _ s).mono (fun _ h => h.ran) fun _ h => h.ran
  | prog p => exact execProg_ran p _ _ s

theorem runLink_plain {link : Option Prog} (hl : ∀ p, link = some p → p.registerOnly = true) (rd : RegIx)
    (imm : BitVec 20) (s : State) :
    (runLink link rd imm s).Sat (Ctx.Of s.RanPlain s.RanPlain) (Ends s.RanPlain) := by
  unfold runLink
  cases link with
  | some p =>
    exact runProg_plain s p (registerOnly_plain (hl p rfl)).1 (registerOnly_plain (hl p rfl)).2
      (Ctx.start_of (.refl s) (.refl s) _ _)
  | none =>
    dsimp only
    split
    · exact Ctx.start_of (.refl s) (.refl s) _ _
    · exact .refused _

theorem execJump_plain {link : Option Prog} (hl : ∀ p, link = some p → p.registerOnly = true) (rd : RegIx)
    (imm : BitVec 20) (s : State) : AnswersPlain s (execJump link rd imm s) := by
  have h := runLink_plain hl rd imm s
  unfold execJump
  split
  · exact .refused _
  · split
    · next ho => rw [ho] at h; exact .ends _ h
    · next hc => rw [hc] at h; exact jumpTo_plain _ h.cur

theorem execBranchOn_plain (cond : Expr) (rs1 rs2 : RegIx) (imm : BitVec 15) (s : State) :
    AnswersPlain s (execBranchOn cond rs1 rs2 imm s) := by
  unfold execBranchOn
  split
  · unfold takeBranch
    split
    · exact .refused _
    · exact jumpTo_plain _ (.refl s)
  · exact advance_plain (.refl s)

/-- An access and what follows it, for relations of which an abandoned instruction's state has the first. -/
theorem finish_answers {α : Type} {s : State} {B G : State → Prop} (hb : ∀ t, s.RanPlain t → B t) {x : Access α}
    {f : α → Work → Result} {P : α → Work → Prop} (h : x.Sat P (fun w => (Work.start s).Reads w))
    (hf : ∀ v w, P v w → Answers B G (f v w)) : Answers B G (x.finish f) := by
  cases x with
  | ok v w => exact hf v w h
  | raised e w => exact .exception (hb _ (h.notes (fun _ _ => False) (Work.start_level s)).noted.ranPlain) e
  | refused r => exact .refused r

/-- A load of either space changes no more than a plain primitive does; the privilege check stands before it. -/
theorem execLoadFrom_plain (sp : Space) (w : Width) (x : Ext) (rd rs1 : RegIx) (imm : BitVec 15) (s : State) :
    AnswersPlain s (execLoadFrom sp w x rd rs1 imm s) :=
  finish_answers (fun _ => id) (loadFrom_sat sp w _ (Work.start s)) fun _ _ h =>
    advance_plain (h.cur.ranPlain.trans (writeReg_ranPlain _ _ _))

theorem execLoadBody_ran (b : LoadBody) (r1 r2 : RegIx) (imm : BitVec 15) (s : State) :
    Answers s.Ran s.Ran (execLoadBody b r1 r2 imm s) := by
  cases b with
  | load sp w x => exact (execLoadFrom_plain ..).ran
  | alignedOffset p => exact execProg_ran p _ _ s

theorem execStoreTo_ran (sp : Space) (w : Width) (value base : RegIx) (imm : BitVec 15) (s : State) :
    Answers s.Ran s.Ran (execStoreTo sp w value base imm s) :=
  finish_answers (fun _ h => h.toRan) (storeTo_sat sp w _ _ (Work.start s)) fun _ _ h =>
    advance_ran h.1.cur.ranMemory.toRan

theorem execStoreTo_main_plain (w : Width) (value base : RegIx) (imm : BitVec 15) (s : State) :
    AnswersPlain s (execStoreTo .main w value base imm s) :=
  finish_answers (fun _ => id) (storeTo_sat .main w _ _ (Work.start s)) fun _ _ h => advance_plain (h.2 rfl).cur.ranPlain

theorem finishTwo_plain (r r' : AluResult) (s : State) (rd r4 : RegIx) : AnswersPlain s (finishTwo r r' s rd r4) := by
  cases r with
  | value v =>
    exact finishAlu_plain r' fun _ => (writeReg_ranPlain _ _ _).trans (writeReg_ranPlain _ _ _)
  | divisionByZero => exact .exception (.refl s) _
  | silent => exact .refused _

theorem execRegBody_plain {b : RegBody} (hb : ∀ p, b = .fourProg p → p.arithOnly = true) (f : Fields) (s : State) :
    AnswersPlain s (execRegBody b f s) := by
  cases b with
  | three op => exact finishAlu_plain _ fun _ => writeReg_ranPlain _ _ _
  | fourSource op => exact finishAlu_plain _ fun _ => writeReg_ranPlain _ _ _
  | fourDest op op' =>
    unfold execRegBody execFourDest
    dsimp only
    split
    · exact .refused _
    · exact finishTwo_plain _ _ _ _ _
  | fourProg p =>
    unfold execRegBody execFourProg
    dsimp only
    split
    · exact endProg_answers (fun _ p => .setPc p) (runProg_plain s p (arithOnly_plain (hb p rfl)).1
        (arithOnly_plain (hb p rfl)).2 (Ctx.start_of (.refl s) (.refl s) _ _))
    · exact .refused _

/-! ## The contracts of the entries that a slot can have -/

theorem lookupSlot_entry {α : Type} {rows : List (Opcode × α)} {rest : MapRest} {chip : List (Opcode × α)}
    {keeps : α → Bool} {op : Opcode} {e : α} (h : lookupSlot rows rest chip keeps op = .entry e) : keeps e = true := by
  have ha : ∀ x, keepEntry keeps x = .entry e → keeps e = true := fun x hx => by
    unfold keepEntry at hx
    split at hx
    · next hk => cases hx; exact hk
    · exact absurd hx (by simp)
  unfold lookupSlot at h
  split at h
  · exact ha _ h
  · split at h
    · exact absurd h (by simp)
    · exact absurd h (by simp)
    · split at h
      · exact ha _ h
      · exact absurd h (by simp)

/-- A T entry keeps its contract (47_t.md R150). -/
theorem findSys_contract {m : OpMap} {op : Opcode} {r1 : RegIx} {v : Byte} {e : Entry SysBody}
    (h : findSys m op r1 v = .entry e) : sysContract e = true := by
  unfold findSys at h
  split at h
  · exact absurd h (by simp)
  · exact lookupSlot_entry h

/-- A program that is a T entry commits nothing (60_exceptions.md R170). -/
theorem findSys_commits {m : OpMap} {op : Opcode} {r1 : RegIx} {v : Byte} {e : Entry SysBody}
    (h : findSys m op r1 v = .entry e) {p : Prog} (hb : e.body = .prog p) : p.commits = false := by
  have := findSys_contract h
  simpa [sysContract, hb] using this

/-- An M entry is of registers and memory (46_m.md R145). -/
theorem findBulk_memoryOnly {m : OpMap} {op : Opcode} {e : Entry BulkBody} (h : findBulk m op = .entry e) :
    e.body.prog.memoryOnly = true := by
  have := lookupSlot_entry h
  simp only [bulkContract, Bool.and_eq_true] at this
  exact this.1

/-- A U entry commits nothing (60_exceptions.md R170). -/
theorem findUJ_commits {m : OpMap} {op : Opcode} {e : Entry UJBody} (h : findUJ m op = .entry e) {p : Prog}
    (hb : e.body = .u p) : p.commits = false := by
  have := lookupSlot_entry h
  simpa [ujContract, hb] using this

/-- A J entry has no mark (41_j.md R115). -/
theorem findUJ_jump {m : OpMap} {op : Opcode} {e : Entry UJBody} (h : findUJ m op = .entry e) {l : Option Prog}
    (hb : e.body = .j l) : e.supervisorOnly = false := by
  have := lookupSlot_entry h
  cases l <;> simp_all [ujContract]

/-- A J entry's link is of registers only (41_j.md R115, R116). -/
theorem findUJ_link {m : OpMap} {op : Opcode} {e : Entry UJBody} (h : findUJ m op = .entry e) {p : Prog}
    (hb : e.body = .j (some p)) : p.registerOnly = true := by
  have := lookupSlot_entry h
  simp only [ujContract, hb, Bool.and_eq_true] at this
  exact this.1.2

/-- A B entry has no mark (42_b.md R120). -/
theorem findBranch_unmarked {m : OpMap} {op : Opcode} {e : Entry Expr} (h : findBranch m op = .entry e) :
    e.supervisorOnly = false := by
  have := lookupSlot_entry h
  simp only [branchContract, Bool.and_eq_true] at this
  simpa using this.1

/-- An aligned-offset entry commits nothing (60_exceptions.md R170). -/
theorem findLoad_commits {m : OpMap} {op : Opcode} {e : Entry LoadBody} (h : findLoad m op = .entry e) {p : Prog}
    (hb : e.body = .alignedOffset p) : p.commits = false := by
  have := lookupSlot_entry h
  simpa [loadContract, hb] using this

/-- An R entry that is a program is of registers and Division by Zero (45_r.md R141). -/
theorem findArithReg_arithOnly {m : OpMap} {op : Opcode} {e : Entry RegBody} (h : findArithReg m op = .entry e) {p : Prog}
    (hb : e.body = .fourProg p) : p.arithOnly = true := by
  have := lookupSlot_entry h
  simpa [regContract, hb] using this

/-! ## Every instruction -/

/-- Everything an instruction can answer. -/
theorem exec_ran (i : Instr) (s : State) : Answers s.Ran s.Ran (exec i s) := by
  have href : ∀ r, Answers s.Ran s.Ran (.refused r) := fun r => .ends _ (.refused r)
  have hexc : ∀ e, Answers s.Ran s.Ran (takeException e s) := fun e => .ends _ (.exception e s (.refl s))
  cases i with
  | sys op r1 v =>
    show Answers s.Ran s.Ran (execSys op r1 v s)
    unfold execSys
    exact withEntry_of href hexc fun e _ _ => execSysBody_ran e.body r1 v s
  | bulk op r1 r2 low =>
    show Answers s.Ran s.Ran (execBulk op r1 r2 low s)
    unfold execBulk
    exact withEntry_of href hexc fun e _ _ => execProg_ran _ _ _ s
  | uj op r1 imm =>
    show Answers s.Ran s.Ran (execUJ op r1 imm s)
    unfold execUJ
    refine withEntry_of href hexc fun e he _ => ?_
    cases hb : e.body with
    | u p => exact execProg_ran p _ _ s
    | j link =>
      exact (execJump_plain (fun p hp => findUJ_link he (hp ▸ hb)) r1 imm s).ran
  | branch op r1 r2 imm =>
    show Answers s.Ran s.Ran (execBranch op r1 r2 imm s)
    unfold execBranch
    exact withEntry_of href hexc fun e _ _ => (execBranchOn_plain e.body _ _ imm s).ran
  | load op r1 r2 imm =>
    show Answers s.Ran s.Ran (execLoad op r1 r2 imm s)
    unfold execLoad
    exact withEntry_of href hexc fun e _ _ => execLoadBody_ran e.body r1 r2 imm s
  | arithImm op r1 r2 imm =>
    show Answers s.Ran s.Ran (execArithImm op r1 r2 imm s)
    unfold execArithImm
    exact withEntry_of href hexc fun e _ _ => (finishAlu_plain _ fun _ => writeReg_ranPlain _ _ _).ran
  | arithReg op r1 r2 r3 r4 =>
    show Answers s.Ran s.Ran (execArithReg op r1 r2 r3 r4 s)
    unfold execArithReg
    exact withEntry_of href hexc fun e h _ =>
      (execRegBody_plain (fun _ => findArithReg_arithOnly h) _ s).ran
  | store op r1 r2 imm =>
    show Answers s.Ran s.Ran (execStore op r1 r2 imm s)
    unfold execStore
    exact withEntry_of href hexc fun e _ _ => execStoreTo_ran e.body.space e.body.width _ _ imm s

/-- Everything an instruction can answer in user mode, `B` and `G` being what its programs and requested traps answer. -/
theorem exec_user (i : Instr) {s : State} (hs : s.supervisor = false) {B G : State → Prop} (hb : ∀ t, s.RanPlain t → B t)
    (hg : ∀ t, s.RanPlain t → G t) (trap : ∀ v q, Answers B G (requestTrap v q s))
    (prog : ∀ p f env, p.needsSupervisor = false → (entersLast s.platform.opmap i = true → p.entersLast = true) →
      Answers B G (execProg p f env s)) : Answers B G (exec i s) := by
  have href : ∀ r, Answers B G (.refused r) := fun r => .refused r
  have hexc : ∀ e, Answers B G (takeException e s) := fun e => .exception (hb s (.refl s)) e
  have user : ∀ b : Bool, (s.supervisor = true ∨ b = false) → b = false := fun b h =>
    h.resolve_left (by simp [hs])
  have plain : ∀ {o}, AnswersPlain s o → Answers B G o := fun h => h.mono hb hg
  cases i with
  | sys op r1 v =>
    show Answers B G (execSys op r1 v s)
    unfold execSys
    refine withEntry_of href hexc fun e he h => ?_
    have h := user _ h
    obtain ⟨n, m, b⟩ := e
    cases b with
    | writePsr => exact absurd h (by simp [sysNeedsSupervisor])
    | readPsr => exact plain (advance_plain (writeReg_ranPlain _ _ _))
    | trapReturn => exact absurd h (by simp [sysNeedsSupervisor])
    | requestTrap tv tp => exact trap _ _
    | prog p => exact prog p _ _ h fun hl => by simpa [entersLast, he] using hl
  | bulk op r1 r2 low =>
    show Answers B G (execBulk op r1 r2 low s)
    unfold execBulk
    exact withEntry_of href hexc fun e he h =>
      prog _ _ _ (user _ h) fun _ => entersLast_of_none (memoryOnly_entersTrap (findBulk_memoryOnly he))
  | uj op r1 imm =>
    show Answers B G (execUJ op r1 imm s)
    unfold execUJ
    refine withEntry_of href hexc fun e he h => ?_
    obtain ⟨n, m, b⟩ := e
    cases b with
    | u p => exact prog p _ _ (user _ h) fun hl => by simpa [entersLast, he] using hl
    | j link => exact plain (execJump_plain (fun p hp => findUJ_link he (hp ▸ rfl)) r1 imm s)
  | branch op r1 r2 imm =>
    show Answers B G (execBranch op r1 r2 imm s)
    unfold execBranch
    exact withEntry_of href hexc fun e _ _ => plain (execBranchOn_plain e.body _ _ imm s)
  | load op r1 r2 imm =>
    show Answers B G (execLoad op r1 r2 imm s)
    unfold execLoad
    refine withEntry_of href hexc fun e he h => ?_
    obtain ⟨n, m, b⟩ := e
    cases b with
    | load sp w x => exact plain (execLoadFrom_plain ..)
    | alignedOffset p => exact prog p _ _ (user _ h) fun hl => by simpa [entersLast, he] using hl
  | arithImm op r1 r2 imm =>
    show Answers B G (execArithImm op r1 r2 imm s)
    unfold execArithImm
    exact withEntry_of href hexc fun e _ _ => plain (finishAlu_plain _ fun _ => writeReg_ranPlain _ _ _)
  | arithReg op r1 r2 r3 r4 =>
    show Answers B G (execArithReg op r1 r2 r3 r4 s)
    unfold execArithReg
    exact withEntry_of href hexc fun e h _ => plain (execRegBody_plain (fun _ => findArithReg_arithOnly h) _ s)
  | store op r1 r2 imm =>
    show Answers B G (execStore op r1 r2 imm s)
    unfold execStore
    refine withEntry_of href hexc fun e _ h => ?_
    have h := user _ h
    cases hsp : e.body.space with
    | main => exact plain (execStoreTo_main_plain e.body.width _ _ imm s)
    | data => simp [storeNeedsSupervisor, hsp] at h

/-- In user mode, trap entries anywhere. -/
theorem exec_went (i : Instr) {s : State} (hs : s.supervisor = false) : Answers s.Went s.Went (exec i s) :=
  exec_user i hs (fun _ => .inl) (fun _ => .inl) (fun v q => requestTrap_went v q s)
    fun _ f env hp _ => execProg_went hp f env s

/-- In user mode, nothing after a trap entry. -/
theorem exec_last (i : Instr) {s : State} (hs : s.supervisor = false) (hl : entersLast s.platform.opmap i = true) :
    Answers s.RanPlain s.WentLast (exec i s) :=
  exec_user i hs (fun _ => id) (fun _ => .inl) (fun v q => requestTrap_last v q s)
    fun _ f env hp h => execProg_last hp (h hl) f env s

end Sys2Proof.Machine
end

