-- ==== Sys2Proof/Laws/Interrupt.lean ====
section
/-! SUPPORT. The set of pending requests, the devices' turn and the choice of a request (60_exceptions.md R163 to R167). -/

namespace Sys2Proof.Machine

/-! ## The set -/

/-- Every key of a set in rising order is at least the bound. -/
theorem pendingWf_cons {a : Request} {rs : List Request} :
    pendingWf (a :: rs) = true ↔ pendingWf rs = true ∧ ∀ r ∈ rs, a.key < r.key := by
  induction rs generalizing a with
  | nil => simp [pendingWf]
  | cons b rest ih =>
    simp only [pendingWf, Bool.and_eq_true, decide_eq_true_eq, List.mem_cons, forall_eq_or_imp]
    rw [ih]
    constructor
    · rintro ⟨h1, h2, h3⟩
      exact ⟨⟨h2, h3⟩, h1, fun r hr => lt_trans h1 (h3 r hr)⟩
    · rintro ⟨⟨h2, h3⟩, h1, -⟩
      exact ⟨h1, h2, h3⟩

/-- Requests with one key are one request. -/
theorem Request.key_inj {a b : Request} (h : a.key = b.key) : a = b := by
  obtain ⟨v, p⟩ := a
  obtain ⟨v', p'⟩ := b
  unfold Request.key at h
  have h1 := p.isLt
  have h2 := p'.isLt
  dsimp only at h
  have hv : v.toNat = v'.toNat := by omega
  have hp : p.toNat = p'.toNat := by omega
  rw [BitVec.eq_of_toNat_eq hv, BitVec.eq_of_toNat_eq hp]

theorem mem_addRequest {r x : Request} {rs : List Request} : x ∈ addRequest r rs ↔ x = r ∨ x ∈ rs := by
  induction rs with
  | nil => simp [addRequest]
  | cons h rest ih =>
    unfold addRequest
    split
    · simp
    · split
      · next he =>
        have := Request.key_inj he
        subst this
        simp
      · simp only [List.mem_cons, ih]
        tauto

theorem pendingWf_addRequest (r : Request) {rs : List Request} (h : pendingWf rs = true) :
    pendingWf (addRequest r rs) = true := by
  induction rs with
  | nil => rfl
  | cons a rest ih =>
    have hc := pendingWf_cons.1 h
    unfold addRequest
    split
    · next hlt =>
      refine pendingWf_cons.2 ⟨h, fun x hx => ?_⟩
      rcases List.mem_cons.1 hx with rfl | hx
      · exact hlt
      · exact lt_trans hlt (hc.2 x hx)
    · split
      · exact h
      · next h1 h2 =>
        refine pendingWf_cons.2 ⟨ih hc.1, fun x hx => ?_⟩
        rcases mem_addRequest.1 hx with rfl | hx
        · omega
        · exact hc.2 x hx

theorem mem_dropRequest {r x : Request} {rs : List Request} : x ∈ dropRequest r rs ↔ x ∈ rs ∧ x ≠ r := by
  simp [dropRequest]

theorem pendingWf_dropRequest (r : Request) {rs : List Request} (h : pendingWf rs = true) :
    pendingWf (dropRequest r rs) = true := by
  induction rs with
  | nil => rfl
  | cons a rest ih =>
    have hc := pendingWf_cons.1 h
    unfold dropRequest
    rw [List.filter_cons]
    split
    · exact pendingWf_cons.2 ⟨ih hc.1, fun x hx => hc.2 x (List.mem_of_mem_filter hx)⟩
    · exact ih hc.1

/-! ## The devices' turn -/

/-- What devices can do in a gap: memory and pending requests, canonical forms kept. -/
structure State.DeviceFrame (s t : State) : Prop where
  regs : t.regs = s.regs
  ssp : t.ssp = s.ssp
  usp : t.usp = s.usp
  pc : t.pc = s.pc
  psr : t.psr = s.psr
  faultDepth : t.faultDepth = s.faultDepth
  status : t.status = s.status
  schedule : t.schedule = s.schedule
  deviceLog : t.deviceLog = s.deviceLog
  freeCount : t.freeCount = s.freeCount
  platform : t.platform = s.platform
  mainWf : Memory.wf mainSize s.main = true → Memory.wf mainSize t.main = true
  dataWf : Memory.wf dataSize s.data = true → Memory.wf dataSize t.data = true
  pendingWf : pendingWf s.pending = true → pendingWf t.pending = true

theorem State.DeviceFrame.refl (s : State) : s.DeviceFrame s :=
  ⟨rfl, rfl, rfl, rfl, rfl, rfl, rfl, rfl, rfl, rfl, rfl, id, id, id⟩

theorem State.DeviceFrame.trans {s t u : State} (a : s.DeviceFrame t) (b : t.DeviceFrame u) : s.DeviceFrame u :=
  ⟨b.regs.trans a.regs, b.ssp.trans a.ssp, b.usp.trans a.usp, b.pc.trans a.pc, b.psr.trans a.psr,
    b.faultDepth.trans a.faultDepth, b.status.trans a.status, b.schedule.trans a.schedule, b.deviceLog.trans a.deviceLog,
    b.freeCount.trans a.freeCount, b.platform.trans a.platform, fun h => b.mainWf (a.mainWf h),
    fun h => b.dataWf (a.dataWf h), fun h => b.pendingWf (a.pendingWf h)⟩

theorem deviceAct_frame {s t : State} {a : DeviceAction} (h : s.deviceAct a = .ok t) : s.DeviceFrame t := by
  cases a with
  | request v =>
    cases h
    exact ⟨rfl, rfl, rfl, rfl, rfl, rfl, rfl, rfl, rfl, rfl, rfl, id, id, pendingWf_addRequest _⟩
  | withdraw r =>
    cases h
    exact ⟨rfl, rfl, rfl, rfl, rfl, rfl, rfl, rfl, rfl, rfl, rfl, id, id, pendingWf_dropRequest _⟩
  | bufferWrite sp addr b =>
    unfold State.deviceAct at h
    dsimp only at h
    split at h
    · next hb =>
      cases sp <;> cases h
      · exact ⟨rfl, rfl, rfl, rfl, rfl, rfl, rfl, rfl, rfl, rfl, rfl, fun hw => Memory.wf_write hw b hb.2, id, id⟩
      · exact ⟨rfl, rfl, rfl, rfl, rfl, rfl, rfl, rfl, rfl, rfl, rfl, id, fun hw => Memory.wf_write hw b hb.2, id⟩
    · exact absurd h (by simp)

theorem deviceActs_frame {s t : State} {as : List DeviceAction} (h : s.deviceActs as = .ok t) : s.DeviceFrame t := by
  induction as generalizing s with
  | nil => cases h; exact .refl _
  | cons a as ih =>
    unfold State.deviceActs at h
    split at h
    · next u hu => exact (deviceAct_frame hu).trans (ih h)
    · exact absurd h (by simp)

/-- The devices' turn takes one list off the schedule. -/
theorem deviceTurn_frame {s t : State} (h : s.deviceTurn = .ok t) :
    State.DeviceFrame { s with schedule := s.schedule.tail } t := by
  unfold State.deviceTurn at h
  split at h
  · next hs =>
    injection h with h
    rw [← h, show { s with schedule := s.schedule.tail } = s by rw [hs, List.tail_nil, ← hs]]
    exact .refl s
  · next as rest hs =>
    rw [hs]
    exact deviceActs_frame h

/-! ## The choice -/

theorem le_maxPrio {r : Request} {rs : List Request} (h : r ∈ rs) : r.prio.toNat ≤ maxPrio rs := by
  induction rs with
  | nil => exact absurd h (by simp)
  | cons a rest ih =>
    rcases List.mem_cons.1 h with rfl | h
    · exact le_max_left _ _
    · exact le_trans (ih h) (le_max_right _ _)

theorem maxPrio_mem {rs : List Request} (h : rs ≠ []) : ∃ r ∈ rs, r.prio.toNat = maxPrio rs := by
  induction rs with
  | nil => exact absurd rfl h
  | cons a rest ih =>
    rcases le_total (maxPrio rest) a.prio.toNat with hle | hle
    · exact ⟨a, by simp, (max_eq_left hle).symm⟩
    · by_cases hn : rest = []
      · subst hn
        exact ⟨a, by simp, by simp [maxPrio]⟩
      · obtain ⟨r, hr, he⟩ := ih hn
        exact ⟨r, by simp [hr], by rw [he]; exact (max_eq_right hle).symm⟩

theorem mem_candidates {s : State} {r : Request} :
    r ∈ s.candidates ↔ psrIrq s.psr = true ∧ r ∈ s.pending ∧ (psrP s.psr).toNat < r.prio.toNat := by
  unfold State.candidates
  split <;> simp_all

theorem mem_topCandidates {s : State} {r : Request} :
    r ∈ s.topCandidates ↔ r ∈ s.candidates ∧ ∀ x ∈ s.candidates, x.prio.toNat ≤ r.prio.toNat := by
  unfold State.topCandidates
  simp only [List.mem_filter, beq_iff_eq]
  constructor
  · rintro ⟨h, he⟩
    exact ⟨h, fun x hx => he ▸ le_maxPrio hx⟩
  · rintro ⟨h, ha⟩
    obtain ⟨x, hx, he⟩ := maxPrio_mem (List.ne_nil_of_mem h)
    exact ⟨h, le_antisymm (le_maxPrio h) (he ▸ ha x hx)⟩

/-- A request is chosen when one qualifies, and it is one of the greatest priority. -/
theorem chooseRequest_mem {s : State} {r : Request} {n : Nat} (h : s.chooseRequest = some (r, n)) :
    r ∈ s.topCandidates := by
  unfold State.chooseRequest at h
  split at h
  · exact absurd h (by simp)
  · next he => cases h; rw [he]; simp
  · next a b rest he =>
    cases h
    rw [he]
    have hlt : Config.pickRequest s.freeCount % (rest.length + 2) < (a :: b :: rest).length := Nat.mod_lt _ (by simp)
    rw [List.getD_eq_getElem _ _ hlt]
    exact List.getElem_mem hlt

theorem chooseRequest_none {s : State} (h : s.chooseRequest = none) : s.candidates = [] := by
  unfold State.chooseRequest at h
  split at h
  · next he =>
    by_contra hn
    obtain ⟨x, hx, hm⟩ := maxPrio_mem hn
    have : x ∈ s.topCandidates := mem_topCandidates.2 ⟨hx, fun y hy => hm ▸ le_maxPrio hy⟩
    rw [he] at this
    exact absurd this (by simp)
  · exact absurd h (by simp)
  · exact absurd h (by simp)

end Sys2Proof.Machine
end

