-- ==== Sys2Proof/Laws/PerInstr.lean ====
section
/-! SUPPORT. What holds of every instruction as syntax, one lemma for each constructor: the word of an instruction carries its
group code in bits 31:29 and its opcode in bits 28:25 (30_encoding.md R81, R87). -/

namespace Sys2Proof.Laws.Encoding

/-- The group and opcode fields of the word are the instruction's. -/
def Statement (i : Instr) : Prop := wordGroup (encode i) = i.group ∧ wordOpcode (encode i) = i.opcode

theorem sys (op : Opcode) (r1 : RegIx) (vector : Byte) : Statement (.sys op r1 vector) := ⟨group_encode _, opcode_encode _⟩

theorem bulk (op : Opcode) (r1 r2 : RegIx) (low : BitVec 15) : Statement (.bulk op r1 r2 low) := ⟨group_encode _, opcode_encode _⟩

theorem uj (op : Opcode) (r1 : RegIx) (imm20 : BitVec 20) : Statement (.uj op r1 imm20) := ⟨group_encode _, opcode_encode _⟩

theorem branch (op : Opcode) (r1 r2 : RegIx) (imm15 : BitVec 15) : Statement (.branch op r1 r2 imm15) := ⟨group_encode _, opcode_encode _⟩

theorem load (op : Opcode) (r1 r2 : RegIx) (imm15 : BitVec 15) : Statement (.load op r1 r2 imm15) := ⟨group_encode _, opcode_encode _⟩

theorem arithImm (op : Opcode) (r1 r2 : RegIx) (imm15 : BitVec 15) : Statement (.arithImm op r1 r2 imm15) := ⟨group_encode _, opcode_encode _⟩

theorem arithReg (op : Opcode) (r1 r2 r3 r4 : RegIx) : Statement (.arithReg op r1 r2 r3 r4) := ⟨group_encode _, opcode_encode _⟩

theorem store (op : Opcode) (r1 r2 : RegIx) (imm15 : BitVec 15) : Statement (.store op r1 r2 imm15) := ⟨group_encode _, opcode_encode _⟩

end Sys2Proof.Laws.Encoding
end

