-- ==== Sys2Proof/Laws/Plain.lean ====
section
/-! SUPPORT. What the access primitives and the shared ends of meanings do where nothing refuses them: untranslated main
memory, data memory storage, the next instruction, an entry that may run. -/

namespace Sys2Proof.Machine

/-! ## Addresses -/

theorem top8_eq_zero {a : Word} : a.extractLsb' 24 8 = (0 : BitVec 8) ↔ a.toNat < mainSize := by
  have ha := a.isLt
  unfold mainSize
  constructor
  · intro h
    have := congrArg BitVec.toNat h
    rw [BitVec.extractLsb'_toNat, Nat.shiftRight_eq_div_pow, show (0 : BitVec 8).toNat = 0 from rfl] at this
    omega
  · intro h
    apply BitVec.eq_of_toNat_eq
    rw [BitVec.extractLsb'_toNat, Nat.shiftRight_eq_div_pow, show (0 : BitVec 8).toNat = 0 from rfl]
    omega

theorem top16_eq_zero {a : Word} : a.extractLsb' 16 16 = (0 : BitVec 16) ↔ a.toNat < dataSize := by
  have ha := a.isLt
  unfold dataSize
  constructor
  · intro h
    have := congrArg BitVec.toNat h
    rw [BitVec.extractLsb'_toNat, Nat.shiftRight_eq_div_pow, show (0 : BitVec 16).toNat = 0 from rfl] at this
    omega
  · intro h
    apply BitVec.eq_of_toNat_eq
    rw [BitVec.extractLsb'_toNat, Nat.shiftRight_eq_div_pow, show (0 : BitVec 16).toNat = 0 from rfl]
    omega

theorem low24_toNat {a : Word} (h : a.toNat < mainSize) : (a.extractLsb' 0 24).toNat = a.toNat := by
  unfold mainSize at h
  rw [BitVec.extractLsb'_toNat, Nat.shiftRight_zero, Nat.mod_eq_of_lt h]

/-! ## Main memory without translation -/

theorem mainPlain_iff {s : State} {w : Width} {a : Word} :
    mainPlain s w a = true ↔ psrMmu s.psr = false ∧ a.toNat < mainSize ∧ a.toNat % widthBytes w = 0
      ∧ allInstalled s.platform.mainInstalled a.toNat (widthBytes w) = true := by
  simp only [mainPlain, Bool.and_eq_true, Bool.not_eq_true', decide_eq_true_eq, and_assoc]

theorem inMain_fits {α : Type} {a : Word} (f : Pc → Access α) (h : a.toNat < mainSize) :
    inMain a f = f (a.extractLsb' 0 24) := if_neg (not_not.2 (top8_eq_zero.2 h))

theorem inMain_wide {α : Type} {a : Word} (f : Pc → Access α) (h : mainSize ≤ a.toNat) :
    inMain a f = .refused .addressTooWide := if_pos fun h' => absurd (top8_eq_zero.1 h') (by omega)

theorem inMainAligned_fits {α : Type} {w : Width} {a : Word} (f : Pc → Access α) (h : a.toNat < mainSize)
    (ha : a.toNat % widthBytes w = 0) : inMainAligned w a f = f (a.extractLsb' 0 24) := by
  refine (inMain_fits _ h).trans (if_neg (not_not.2 ?_))
  rw [low24_toNat h, ha]

/-- Whatever the page tables hold (20_memory.md R55). -/
theorem inMainAligned_misaligned {α : Type} {w : Width} {a : Word} (f : Pc → Access α) (h : a.toNat < mainSize)
    (ha : a.toNat % widthBytes w ≠ 0) : inMainAligned w a f = .refused .misaligned := by
  refine (inMain_fits _ h).trans (if_pos ?_)
  rwa [low24_toNat h]

/-- An access that answers is the one at its 24 bits. -/
theorem inMainAligned_ok {α : Type} {w : Width} {a : Word} {f : Pc → Access α} {x : α} {k : Work}
    (h : inMainAligned w a f = .ok x k) : a.toNat < mainSize ∧ f (a.extractLsb' 0 24) = .ok x k := by
  by_cases hw : a.toNat < mainSize
  · by_cases ha : a.toNat % widthBytes w = 0
    · exact ⟨hw, inMainAligned_fits f hw ha ▸ h⟩
    · rw [inMainAligned_misaligned f hw ha] at h
      cases h
  · rw [inMainAligned, inMain_wide _ (by omega)] at h
    cases h

theorem mainAddr_off {kind : AccessKind} {va : Pc} {k : Work} (h : psrMmu k.cur.psr = false) :
    mainAddr kind va k = .ok va.toNat k := if_neg (by simp [h])

theorem memRead_plain {k : Work} {w : Width} {a : Word} (h : mainPlain k.cur w a = true) :
    memRead w a k = .ok (k.cur.main.readVal k.cur.platform.endian w a.toNat) k := by
  obtain ⟨h1, h2, h3, h4⟩ := mainPlain_iff.1 h
  unfold memRead
  rw [inMainAligned_fits _ h2 h3, mainAddr_off h1]
  unfold Access.andThen physRead physCheck
  dsimp only
  rw [low24_toNat h2, if_neg (not_not.2 h3), if_pos h4]

theorem memWrite_plain {k : Work} {w : Width} {a : Word} (v : Word) (h : mainPlain k.cur w a = true) :
    memWrite w a v k
      = .ok () { k with cur := { k.cur with main := k.cur.main.writeVal k.cur.platform.endian w a.toNat v } } := by
  obtain ⟨h1, h2, h3, h4⟩ := mainPlain_iff.1 h
  unfold memWrite
  rw [inMainAligned_fits _ h2 h3, mainAddr_off h1]
  unfold Access.andThen physWrite physCheck
  dsimp only
  rw [low24_toNat h2, if_neg (not_not.2 h3), if_pos h4]

/-! ## Main memory, translated or not -/

/-- The translation of a write keeps every byte that `dirtyTouches` does not name, of both states. -/
theorem mainAddr_untouched {va : Pc} {pa b : Nat} {k k' : Work} (h : mainAddr .write va k = .ok pa k')
    (hd : dirtyTouches va k b = false) :
    k'.cur.main.read b = k.cur.main.read b ∧ k'.base.main.read b = k.base.main.read b := by
  unfold mainAddr at h
  unfold dirtyTouches at hd
  split at h
  · next hm =>
    rw [hm, Bool.true_and] at hd
    unfold mmuTranslate at h
    have hps := readPde_sat va k
    cases h2 : readPde va k with
    | raised e x => rw [h2] at h; cases h
    | refused e => rw [h2] at h; cases h
    | ok pde k2 =>
      rw [h2] at h hd hps
      have hps : k.Reads k2 := hps
      dsimp only [Access.andThen] at h
      cases h3 : readPte va pde k2 with
      | raised e x => rw [h3] at h; cases h
      | refused e => rw [h3] at h; cases h
      | ok pte k3 =>
        obtain ⟨rfl, -⟩ := (readPte_sat _ _ _).ok h3
        rw [h3] at h
        dsimp only at h
        split at h
        · cases h
        · cases h
          unfold setDirtyIfNeeded
          split
          · next hc =>
            rw [hps.cur.platform] at hc
            rw [hc.2.1, Bool.true_and] at hd
            simp only [Bool.and_eq_false_iff, decide_eq_false_iff_not] at hd
            have out : ∀ (m : Memory) (e : Endian) (v : Word),
                (m.writeVal e .half (pteAddr k.cur va pde) v).read b = m.read b := fun m e v =>
              Memory.read_writeVal_of_outside _ _ _ _ _ (by rw [show widthBytes .half = 2 from rfl]; omega)
            dsimp only [State.setDirty]
            rw [pteAddr_platform hps.cur.platform, out, out, hps.cur.main, hps.base.main]
            exact ⟨rfl, rfl⟩
          · rw [hps.cur.main, hps.base.main]
            exact ⟨rfl, rfl⟩
  · cases h
    exact ⟨rfl, rfl⟩

/-- A write keeps every byte that `writeTouches` does not name. -/
theorem memWrite_untouched {w : Width} {a v : Word} {k k' : Work} (h : memWrite w a v k = .ok () k') {b : Nat}
    (hb : writeTouches w a k b = false) : k'.cur.main.read b = k.cur.main.read b := by
  obtain ⟨hw, h⟩ := inMainAligned_ok h
  unfold writeTouches at hb
  rw [inMain_fits _ hw] at hb
  cases h1 : mainAddr .write (a.extractLsb' 0 24) k with
  | raised e x => rw [h1] at h; cases h
  | refused e => rw [h1] at h; cases h
  | ok pa k1 =>
    rw [h1] at h hb
    dsimp only [Access.andThen] at h
    simp only [Bool.or_eq_false_iff, Bool.and_eq_false_iff, decide_eq_false_iff_not] at hb
    unfold physWrite at h
    split at h
    · cases h
    · cases h
      dsimp only
      rw [Memory.read_writeVal_of_outside _ _ _ _ _ (by omega)]
      exact (mainAddr_untouched h1 hb.2).1

/-- Of the state an exception goes back to it changes no more than the dirty bit of its page. -/
theorem memWrite_base_untouched {w : Width} {a v : Word} {k k' : Work} (h : memWrite w a v k = .ok () k') {b : Nat}
    (hb : dirtyTouches (low24 a) k b = false) : k'.base.main.read b = k.base.main.read b := by
  have h := (inMainAligned_ok h).2
  cases h1 : mainAddr .write (a.extractLsb' 0 24) k with
  | raised e x => rw [h1] at h; cases h
  | refused e => rw [h1] at h; cases h
  | ok pa k1 =>
    rw [h1] at h
    dsimp only [Access.andThen] at h
    unfold physWrite at h
    split at h
    · cases h
    · cases h
      exact (mainAddr_untouched h1 hb).2

/-! ## Data memory -/

theorem dataCheck_plain {s : State} {w : Width} {a : Word} (h : dataPlain s w a = true) :
    dataCheck s.platform w a = none := by
  simp only [dataPlain, Bool.and_eq_true, decide_eq_true_eq, and_assoc] at h
  unfold dataCheck
  rw [if_neg (not_not.2 (top16_eq_zero.2 h.1)), if_neg (not_not.2 h.2.1), if_pos h.2.2]

theorem dataReadList_storage {a n : Nat} {k : Work} (h : noDevice k.cur.platform a n = true) :
    dataReadList a n k = (k.cur.data.readList a n, k) := by
  induction n generalizing a with
  | zero => rfl
  | succ n ih =>
    simp only [noDevice, Bool.and_eq_true, Bool.not_eq_true'] at h
    simp [dataReadList, dataReadByte, h.1, ih h.2, Memory.readList]

theorem dataRead_storage {k : Work} {w : Width} {a : Word} (h : dataPlain k.cur w a = true)
    (hd : noDevice k.cur.platform a.toNat (widthBytes w) = true) :
    dataRead w a k = .ok (k.cur.data.readVal k.cur.platform.endian w a.toNat) k := by
  unfold dataRead
  rw [dataCheck_plain h]
  dsimp only
  rw [dataReadList_storage hd]
  rfl

theorem dataWriteList_storage {s : State} {a : Nat} {bs : List Byte} (h : noDevice s.platform a bs.length = true) :
    s.dataWriteList a bs = { s with data := s.data.writeList a bs } := by
  induction bs generalizing s a with
  | nil => rfl
  | cons b bs ih =>
    simp only [List.length_cons, noDevice, Bool.and_eq_true, Bool.not_eq_true'] at h
    unfold State.dataWriteList State.dataWriteByte
    rw [if_neg (by simp [h.1])]
    exact ih h.2

theorem dataWrite_storage {k : Work} {w : Width} {a : Word} (v : Word) (h : dataPlain k.cur w a = true)
    (hd : noDevice k.cur.platform a.toNat (widthBytes w) = true) :
    dataWrite w a v k
      = .ok () { k with cur := { k.cur with data := k.cur.data.writeVal k.cur.platform.endian w a.toNat v } } := by
  unfold dataWrite
  rw [dataCheck_plain h]
  dsimp only
  rw [dataWriteList_storage (by rw [toBytes_length]; exact hd)]
  rfl

/-- A read of device registers: one event and one draw for each byte. -/
theorem dataReadList_device {a n : Nat} {k : Work} (h : allDevice k.cur.platform a n = true) :
    (dataReadList a n k).1.length = n ∧ (dataReadList a n k).2.cur
      = { k.cur with
          deviceLog := logReads a (dataReadList a n k).1 k.cur.deviceLog, freeCount := k.cur.freeCount + n } := by
  induction n generalizing a k with
  | zero => exact ⟨rfl, rfl⟩
  | succ n ih =>
    simp only [allDevice, Bool.and_eq_true] at h
    have hb : dataReadByte a k = (Config.deviceByte k.cur.freeCount a,
      { cur := k.cur.logRead a (Config.deviceByte k.cur.freeCount a) (k.cur.freeCount + 1)
        base := k.base.logRead a (Config.deviceByte k.cur.freeCount a) (k.cur.freeCount + 1) }) := if_pos h.1
    obtain ⟨h1, h2⟩ := ih (a := a + 1) (k := (dataReadByte a k).2) (by rw [hb]; exact h.2)
    refine ⟨by simp [dataReadList, h1], ?_⟩
    show (dataReadList (a + 1) n (dataReadByte a k).2).2.cur = _
    rw [h2, show (dataReadList a (n + 1) k).1 = (dataReadByte a k).1 :: (dataReadList (a + 1) n (dataReadByte a k).2).1 from
      rfl, hb]
    simp [State.logRead, logReads, Nat.add_assoc, Nat.add_comm 1]

/-- A write of device registers: one event for each byte. -/
theorem dataWriteList_device {s : State} {a : Nat} {bs : List Byte} (h : allDevice s.platform a bs.length = true) :
    s.dataWriteList a bs = { s with deviceLog := logWrites a bs s.deviceLog } := by
  induction bs generalizing s a with
  | nil => rfl
  | cons b bs ih =>
    simp only [List.length_cons, allDevice, Bool.and_eq_true] at h
    unfold State.dataWriteList State.dataWriteByte
    rw [if_pos h.1]
    exact ih (s := { s with deviceLog := .write a b :: s.deviceLog }) h.2

/-! ## Arithmetic entries -/

theorem runAlu_divides {f : AluOp} {env : List Word} (h : aluDividesByZero f env = true) :
    runAlu f env = .divisionByZero := if_pos h

/-- A marked entry, or one whose value is a quotient or remainder by operand 1, divides by operand 1. -/
theorem aluDividesByZero_operand {f : AluOp} {env : List Word}
    (h : f.divides = true ∨ ∃ o a, o.divides = true ∧ f.value = .bin o a (.opnd 1)) (hz : env.getD 1 0 = 0) :
    aluDividesByZero f env = true := by
  unfold aluDividesByZero
  replace hz : env[1]?.getD 0#32 = 0#32 := by simpa using hz
  rcases h with h | ⟨o, a, ho, hv⟩
  · simp [h, hz]
  · simp [hv, dividesByZero, ho, evalExpr, hz]

theorem runAlu_value {f : AluOp} {env : List Word} (h : aluDividesByZero f env = false)
    (hd : exprHolds env f.defined = true) : runAlu f env = .value (evalExpr env f.value) := by
  unfold runAlu
  rw [if_neg (by simp [h]), if_pos hd]

theorem runAlu_silent {f : AluOp} {env : List Word} (h : aluDividesByZero f env = false)
    (hd : exprHolds env f.defined = false) : runAlu f env = .silent := by
  unfold runAlu
  rw [if_neg (by simp [h]), if_neg (by simp [hd])]

/-! ## The ends of meanings -/

theorem nextPc_of_hasNext {s t : State} (h : hasNext s = true) (ht : t.pc = s.pc) : t.nextPc = some (s.pc + 4) := by
  have : s.pc.toNat + 4 ≤ pcMax := by simpa [hasNext] using h
  unfold State.nextPc
  rw [ht, if_pos this]
  congr 1

/-- At the last instruction of the address space there is no next one (10_state.md R15). -/
theorem advance_at_the_top {s : State} (h : 0xFFFFFB < s.pc.toNat) : advance s = .refused .pcOutOfRange := by
  have : ¬ s.pc.toNat + 4 ≤ pcMax := by unfold pcMax; omega
  simp [advance, State.nextPc, this]

theorem advance_of_hasNext {s t : State} (h : hasNext s = true) (ht : t.pc = s.pc) :
    advance t = .next { t with pc := s.pc + 4 } := by
  unfold advance
  rw [nextPc_of_hasNext h ht]

/-- An entry that its zero bits and the mode allow runs its body. -/
theorem withEntry_run {β : Type} {e : Entry β} {z n : β → Bool} {s : State} {run : β → Result} (hz : z e.body = true)
    (hm : mayRun s e.supervisorOnly = true) (hn : s.supervisor = true ∨ n e.body = false) :
    withEntry (.entry e) z n s run = run e.body := by
  unfold withEntry
  dsimp only
  rw [if_neg (by simp [hz]), if_neg]
  unfold mayRun at hm
  rintro ⟨h1, h2 | h2⟩
  · simp [h1, h2] at hm
  · simp [h1, h2] at hn

theorem mayRun_of_supervisor {s : State} (h : s.supervisor = true) (b : Bool) : mayRun s b = true := by simp [mayRun, h]

/-- An entry that needs the supervisor raises in user mode. -/
theorem withEntry_user {β : Type} {e : Entry β} {z n : β → Bool} {s : State} {run : β → Result} (hz : z e.body = true)
    (hs : s.supervisor = false) (h : e.supervisorOnly = true ∨ n e.body = true) :
    withEntry (.entry e) z n s run = takeException .privilegeViolation s := by
  unfold withEntry
  dsimp only
  rw [if_neg (by simp [hz]), if_pos ⟨hs, h⟩]

end Sys2Proof.Machine
end

