-- ==== Sys2Proof/Tests/Slice0.lean ====
section
/-! SUPPORT. Tests. Expected results are the spec's own: its worked examples (95_test_vectors.md section 1, E1 to E16), the
vectors derived from its rules (section 3, V1 to V113), the opcode numbers of its test instantiation T0. A theorem
`witness_X` shows values that meet the hypotheses of `Obligations.X` together. -/

namespace Sys2Proof.Tests

open Sys2Proof.Machine

/-! ## Small states -/

/-- A memory of big-endian words. -/
def mem (rows : List (Nat × Word)) : Memory := rows.foldl (fun m r => m.writeVal .big .word r.1 r.2) []

/-- T0 with the psr of reset: supervisor, no interrupts, no MMU. -/
def t0 : State := { State.reset with platform := Platform.t0 6 false, pc := 0x100, ssp := 0x4000, usp := 0x8000 }

/-- T0 in user mode, priority 2 (V21), vector 06 at 000400. -/
def user : State := { t0 with psr := 0x0BEFF000, pc := 0x300, data := mem [(0xF818, 0x400)] }

/-- The common start of V70 to V75. -/
def irqStart (psr : Word) (pending : List Request) : State :=
  { t0 with psr, pending, pc := 0x108, data := mem [(0xF83C, 0x500), (0xF840, 0x600)] }

/-- The tables of V55: va 012345, split 6 / 6, the entries at data FF00 and main 005024. -/
def walk (psr : Word) (dirty : Bool) (pde pte : Word) : State :=
  { t0 with
    psr
    platform := Platform.t0 6 dirty
    data := Memory.writeVal [] .big .half 0xFF00 pde
    main := Memory.writeVal [] .big .half 0x5024 pte }

/-- A trap request that goes on: `psr.irq <- 0` in the handler's psr. -/
def maskedCall : Prog :=
  .op (.requestTrap (.opnd 0) .keep) (.op .readPsr (.op (.writePsr (.bin .and (.opnd 1) (.lit 0xBFFFFFFF))) .done))

/-- A psr write to user mode, then a data memory load. -/
def leaveAndLoad : Prog := .op (.writePsr (.lit 0x03EFF000)) (.op (.load .data .byte .zero (.lit 0x10)) .done)

/-- Entries of every family that T0 leaves empty; no description of Sirius either. -/
def richMap : OpMap :=
  { OpMap.t0 with
    sys := [(0, ⟨"WRITE_PSR", true, .writePsr⟩), (1, ⟨"READ_PSR", false, .readPsr⟩), (2, ⟨"RETURN", true, .trapReturn⟩),
      (3, ⟨"CALL", false, .requestTrap .field .keep⟩),
      (4, ⟨"ADD_VECTOR", false, .prog (.op (.readReg (.field .r1)) (.op (.writeReg (.field .r1) AluOp.add.value) .done))⟩),
      (5, ⟨"STOP", true, .prog (.op .halt .done)⟩),
      (6, ⟨"CALL_REGISTER", false, .requestTrap (.computed (.opnd 1)) (.computed (.bin .shrU (.opnd 1) (.lit 8)))⟩),
      (7, ⟨"CALL_MASKED", false, .prog maskedCall⟩), (8, ⟨"LEAVE_AND_LOAD", false, .prog leaveAndLoad⟩)]
    bulk := [(0, ⟨"NOTHING", false, ⟨.two, .done⟩⟩),
      (1, ⟨"STORE", false, ⟨.three, .op (.readReg (.field .r1)) (.op (.readReg (.field .r2))
        (.op (.store .main .word (.opnd 0) (.opnd 1)) .done))⟩⟩),
      (2, ⟨"ADD_IMM", false, ⟨.two, .op (.readReg (.field .r2)) (.op (.writeReg (.field .r1) AluOp.add.value) .done)⟩⟩),
      (3, ⟨"ADD_REGS", false, ⟨.three, .op (.readReg (.field .r2)) (.op (.readReg (.field .r3))
        (.op (.writeReg (.field .r1) AluOp.add.value) .done))⟩⟩),
      (4, ⟨"PUSH_KEEPING", false, ⟨.two, .op (.readReg (.field .r1)) (.op (.writeReg (.field .r1) (.bin .sub (.opnd 1) (.lit 4)))
        (.op .commit (.op (.store .main .word (.bin .sub (.opnd 1) (.lit 4)) (.opnd 0)) .done)))⟩⟩)]
    uj := [(0, ⟨"T0_J", false, .j none⟩),
      (1, ⟨"UPPER", false, .u (.op (.writeReg (.field .r1) (.bin .shl (.opnd 0) (.lit 12))) .done)⟩)]
    load := OpMap.t0.load ++ [(2, ⟨"ADD_OFFSET", false, .alignedOffset
      (.op (.readReg (.field .r2)) (.op (.writeReg (.field .r1) AluOp.add.value) .done))⟩)]
    arithReg := [(0, ⟨"T0_ADD", false, .three .add⟩), (1, ⟨"ADD3", false, .fourSource ⟨false, .lit 1,
        .bin .add (.bin .add (.opnd 0) (.opnd 1)) (.opnd 2)⟩⟩), (2, ⟨"ADD_BOTH", false, .fourDest .add .add⟩),
      (3, ⟨"DIV", false, .three ⟨true, .lit 1, .bin .divU (.opnd 0) (.opnd 1)⟩⟩),
      (4, ⟨"DIV_REM", false, .fourDest ⟨true, .lit 1, .bin .divU (.opnd 0) (.opnd 1)⟩
        ⟨true, .opnd 0, .bin .remU (.opnd 0) (.opnd 1)⟩⟩),
      (5, ⟨"ADD_IN_PROGRAM", false, .fourProg (.op (.readReg (.field .r2)) (.op (.readReg (.field .r3))
        (.op (.readReg (.field .r4)) (.op (.writeReg (.field .r1) AluOp.add.value) .done))))⟩),
      (6, ⟨"DIV3", false, .fourSource ⟨true, .opnd 0, .bin .divU (.opnd 0) (.opnd 1)⟩⟩)]
    store := [(0, ⟨"T0_SW", false, ⟨.main, .word⟩⟩), (1, ⟨"SBD", true, ⟨.data, .byte⟩⟩)] }

def rich : State :=
  { t0 with platform := { Platform.t0 6 false with opmap := richMap }, data := mem [(0xFBFC, 0x700)] }

/-- A supervisor with the MMU on and the page of its stack absent (V62). -/
def noStack : State := { walk 0xA3EFF000 true 0x0050 0x0ABC with ssp := 0x012348, pc := 0x012340 }

/-- What the tests look at in an answer. -/
def next? (o : Result) : Option State :=
  match o with
  | .next t => some t
  | .fault _ => none
  | .refused _ => none

def refusal? (o : Result) : Option Refusal :=
  match o with
  | .next _ => none
  | .fault _ => none
  | .refused r => some r

def goesTo (o : Result) (p : State → Bool) : Bool := (next? o).any p

/-- The state with one word at the pc. -/
def at_ (s : State) (w : Word) : State := { s with main := s.main.writeVal .big .word s.pc.toNat w }

/-! ## WellFormed refuses -/

theorem test_wf_bulk_zero_bits : Instr.wf rich.platform (.bulk 1 0 0 1) = false := by decide
theorem test_wf_jump_link : Instr.wf rich.platform (.uj 0 1 0) = false := by decide
theorem test_wf_three_registers : Instr.wf rich.platform (.arithReg 0 0 0 0 1) = false := by decide
theorem test_wf_two_destinations : Instr.wf rich.platform (.arithReg 2 1 0 0 1) = false := by decide
theorem test_wf_accepts : Instr.wf rich.platform (.arithReg 2 1 0 0 2) = true ∧ Platform.wf rich.platform = true := by
  decide
theorem test_wf_slot_twice : OpMap.wf { OpMap.t0 with store := OpMap.t0.store ++ OpMap.t0.store } = false := by decide
theorem test_wf_bulk_jumps :
    OpMap.wf { OpMap.t0 with bulk := [(0, ⟨"X", false, ⟨.two, .op (.jump (.lit 0)) .done⟩⟩)] } = false := by decide
theorem test_wf_two_jumps :
    OpMap.wf { OpMap.t0 with uj := [(0, ⟨"A", false, .j none⟩), (1, ⟨"B", false, .j none⟩)] } = false := by decide
theorem test_wf_two_alignedOffset :
    OpMap.wf { OpMap.t0 with load := [(0, ⟨"A", false, .alignedOffset .done⟩), (1, ⟨"B", false, .alignedOffset .done⟩)] }
      = false := by decide
theorem test_wf_declaredComplete : OpMap.wf { OpMap.t0 with rest := .declaredComplete } = false := by decide
theorem test_wf_roles : FieldRoles.wf { FieldRoles.default with three := { RegRoles.default with rs1 := .r1 } } = false
    ∧ FieldRoles.wf { FieldRoles.default with three := ⟨.r4, .r2, .r3, .r1⟩ } = false
    ∧ FieldRoles.wf { FieldRoles.default with four := ⟨.r4, .r2, .r3, .r1⟩ } = true := by decide
theorem test_wf_jump_marked : OpMap.wf { OpMap.t0 with uj := [(0, ⟨"J", true, .j none⟩)] } = false
    ∧ findUJ { OpMap.t0 with uj := [(0, ⟨"J", true, .j none⟩)] } 0 = .unknown := by decide
theorem test_wf_branch_marked : OpMap.wf { OpMap.t0 with branch := [(0, ⟨"B", true, .differ⟩)] } = false
    ∧ findBranch { OpMap.t0 with branch := [(0, ⟨"B", true, .differ⟩)] } 0 = .unknown := by decide
theorem test_wf_fourProg_loads : OpMap.wf { OpMap.t0 with
      arithReg := [(0, ⟨"R", false, .fourProg (.op (.load .main .word .zero (.lit 0)) .done)⟩)] } = false := by decide

/-- Only an M entry may commit. -/
theorem test_wf_commits :
    OpMap.wf { OpMap.t0 with sys := [(0, ⟨"X", false, .prog (.op .commit .done)⟩)] } = false
    ∧ OpMap.wf { OpMap.t0 with uj := [(0, ⟨"X", false, .u (.op .commit .done)⟩)] } = false
    ∧ OpMap.wf { OpMap.t0 with load := [(0, ⟨"X", false, .alignedOffset (.op .commit .done)⟩)] } = false
    ∧ OpMap.wf { OpMap.t0 with bulk := [(0, ⟨"X", false, ⟨.two, .op .commit .done⟩⟩)] } = true := by decide

/-- What cannot raise does not divide by what can be 0: an M entry, a condition, a link, which reads no memory either. -/
theorem test_wf_divides :
    OpMap.wf { OpMap.t0 with bulk := [(0, ⟨"X", false, ⟨.two, .op (.compute (.bin .divU (.lit 8) (.opnd 0))) .done⟩⟩)] } = false
    ∧ OpMap.wf { OpMap.t0 with branch := [(0, ⟨"X", false, .bin .remU (.opnd 0) (.opnd 1)⟩)] } = false
    ∧ OpMap.wf { OpMap.t0 with branch := [(0, ⟨"X", false, .bin .remU (.opnd 0) (.lit 2)⟩)] } = true
    ∧ OpMap.wf { OpMap.t0 with uj := [(0, ⟨"X", false,
        .j (some (.op (.writeReg (.field .r1) (.bin .divU (.lit 8) (.opnd 0))) .done))⟩)] } = false
    ∧ OpMap.wf { OpMap.t0 with uj := [(0, ⟨"X", false, .j (some (.op (.load .main .word .zero (.opnd 0)) .done))⟩)] } = false
    ∧ OpMap.wf { OpMap.t0 with sys := [(0, ⟨"X", false, .requestTrap (.computed (.bin .divU (.lit 8) (.opnd 1))) .keep⟩)] }
      = false := by decide

/-- A bulk entry that jumps is no entry. -/
theorem test_bulk_contract :
    findBulk { OpMap.t0 with bulk := [(0, ⟨"X", false, ⟨.two, .op (.jump (.lit 0)) .done⟩⟩)] } 0 = .unknown := by decide

/-- What the chip's map is bound to: 70 entries, one J, a mark on no J. -/
theorem test_isChips : OpMap.someSeventy.isChips = true ∧ OpMap.t0.isChips = false
    ∧ OpMap.isChips { OpMap.someSeventy with uj := (0, ⟨"", false, .j none⟩) :: OpMap.someSeventy.uj.drop 1 } = false
    ∧ OpMap.wf { OpMap.someSeventy with uj := (0, ⟨"", false, .j none⟩) :: OpMap.someSeventy.uj.drop 1 } = true
    ∧ OpMap.isChips { OpMap.someSeventy with uj := OpMap.someSeventy.uj.drop 1 } = false
    ∧ OpMap.isChips { OpMap.someSeventy with uj := OpMap.someSeventy.uj.take 2 } = false
    ∧ OpMap.isChips { OpMap.someSeventy with rest := .hardware } = false := by decide

/-- 43_i.md R128, 44_s.md R136: 70 entries without a load, or without a store, of data memory are not the chip's. -/
theorem test_isChips_data :
    OpMap.isChips { OpMap.someSeventy with load := [(0, ⟨"", false, .alignedOffset .done⟩),
      (1, ⟨"", false, .load .main .word .zero⟩), (2, ⟨"", false, .load .main .half .zero⟩)] } = false
    ∧ OpMap.isChips { OpMap.someSeventy with store := [(0, ⟨"", false, ⟨.main, .word⟩⟩), (1, ⟨"", false, ⟨.main, .half⟩⟩)] }
      = false := by decide

/-- 47_t.md R151: 70 entries without the capabilities are not the chip's. -/
theorem test_isChips_capabilities :
    let sys (b : SysBody) (k : Opcode) := OpMap.someSeventy.sys.map (fun r => if r.1 = k then (k, ⟨"", false, b⟩) else r)
    let p (b : SysBody) (k : Opcode) := { OpMap.someSeventy with sys := sys b k }
    (p .readPsr 0).isChips = false ∧ (p .readPsr 1).isChips = false ∧ (p .readPsr 2).isChips = false
    ∧ (p (.prog maskedCall) 2).isChips = true ∧ (p (.prog maskedCall) 2).hasCapabilities = true := by decide

theorem test_wf_irqPriority : Platform.irqWf { t0.platform with irqPriority := [(0x0F, 0)] } = false := by decide

/-! ## Decoding: V1 to V8 -/

theorem test_decode_uj : decodeBytes [0x4A, 0xBF, 0xFF, 0xFE] = .ok (.uj 5 11 0xFFFFE, []) := by decide
theorem test_decode_branch : decodeBytes [0x7F, 0x2A, 0x40, 0x01] = .ok (.branch 15 18 20 0x4001, []) := by decide
theorem test_decode_arithReg_three : decodeBytes [0xDE, 0xAD, 0xBC, 0x00] = .ok (.arithReg 15 10 27 15 0, []) := by decide
theorem test_decode_arithReg_four : decodeBytes [0xC7, 0xFF, 0xFF, 0xE0] = .ok (.arithReg 3 31 31 31 31, []) := by decide
theorem test_decode_sys : decodeBytes [0x1E, 0x50, 0x00, 0xFF] = .ok (.sys 15 5 0xFF, []) := by decide
theorem test_decode_load : decodeBytes [0x80, 0x20, 0x80, 0x08] = .ok (.load 0 2 1 8, []) := by decide
theorem test_decode_store : decodeBytes [0xFF, 0xFF, 0xFF, 0xFF] = .ok (.store 15 31 31 0x7FFF, []) := by decide

/-- V97's and V108's words, 101 0000 00001 00000 111111111111111 and 001 0000 and zeros. -/
theorem test_decode_arithImm_bulk : decodeBytes [0xA0, 0x10, 0x7F, 0xFF] = .ok (.arithImm 0 1 0 0x7FFF, [])
    ∧ decodeBytes [0x20, 0x00, 0x00, 0x00] = .ok (.bulk 0 0 0 0, []) := by decide

/-- V110, V106 and a word cut short. -/
theorem test_decode_refuses : decodeBytes [0x00, 0x00, 0x01, 0x00] = .error .zeroFieldNonzero
    ∧ decodeBytes [0xC0, 0x30, 0x88, 0x01] = .error .zeroFieldNonzero ∧ decodeBytes [0x00, 0x00, 0x01] = .error .truncated := by
  decide

/-- 001 1010 10101 01100 100000000000001. -/
theorem test_decode_bulk : decodeBytes [0x35, 0x56, 0x40, 0x01] = .ok (.bulk 10 21 12 0x4001, []) := by decide

theorem test_decodeTableWord : decodeTableWord 32 0x80208008 = some (.load 0 2 1 8) := by decide

/-! ## Immediates, the psr, vectors, the map -/

/-- V12, V13, V17, V18. -/
theorem test_immediates : byteImm 0x4000 = 0xFFFFC000 ∧ branchOffset 0x3FFF = 65532 ∧ branchOffset 0x4000 = -65536
    ∧ jumpOffset 0x7FFFF = 2097148 ∧ jumpOffset 0x80000 = -2097152 := by decide

/-- V24. -/
theorem test_psr_fields : psrS 0xE4112000 = true ∧ psrIrq 0xE4112000 = true ∧ psrMmu 0xE4112000 = true
    ∧ psrP 0xE4112000 = 1 ∧ psrIvt 0xE4112000 = 1 ∧ psrPdt 0xE4112000 = 18 ∧ psrRes 0xE4112000 = 0
    ∧ ivtBase 0xE4112000 = 0x0400 ∧ pdtBase 0xE4112000 = 0x1200 := by decide

/-- E1, E2, V20: the values after reset. -/
theorem test_psr_reset : ivtBase State.reset.psr = 0xF800 ∧ pdtBase State.reset.psr = 0xFF00
    ∧ State.reset.psr = psrOf true false false 0 62 255 0 := by decide

theorem witness_VectorTablePositions : (psrIvt 0x83EFF000 ≠ psrIvt 0xFFFFF000 ∨ (0xFF : Byte) ≠ 0) ∧ psrIvt 0x83EFF000 = 62
    ∧ 0xFFFF < dataSize := by decide

/-- The table of section 3.6. -/
theorem test_ivt_entries : ivtEntryAddr 0x83EFF000 0x07 = 0xF81C ∧ ivtEntryAddr 0x83EFF000 0x11 = 0xF844
    ∧ ivtEntryAddr 0x83EFF000 0xFF = 0xFBFC ∧ ivtEntryAddr 0xE4112000 0x07 = 0x041C := by decide

/-- 60_exceptions.md R160: the vectors an exception enters are the table's. -/
theorem test_excVector : ∀ e : Exc, excVector e = hardwareVector (excHardwareVector e) := by
  intro e; cases e <;> rfl

/-- E8 to E10: each unit of the map starts in its device's 16 bytes; unit 0 is full. -/
theorem test_map : unitAddr .video = deviceBase (deviceNumber .video) ∧ unitAddr .tps = deviceBase (deviceNumber .tps)
    ∧ unitAddr .system = deviceBase (deviceNumber .system) ∧ unitAddr .deviceMap = deviceBase (deviceNumber .deviceMap)
    ∧ unitAddr .timer = unitAddr .teletype + 6 ∧ unitAddr .keyboard + 4 = unitAddr .video := by decide

/-- 60_exceptions.md R161: eight peripherals' vectors, all different. -/
theorem test_peripheralVectors : ([.ttyTransmit, .kbdCharacter, .kbdScancode, .tpsLoadFinished, .diskLoadFinished,
    .timerTimeout, .timerInterval, .videoRefresh].map defaultPeripheralVector)
      = [0x0A, 0x0B, 0x0C, 0x0D, 0x0E, 0x0F, 0x10, 0x11] := by decide

/-! ## Registers and memory: V30 to V47 -/

theorem test_registers : (t0.writeReg 0 0xDEADBEEF).readReg 0 = 0 ∧ t0.readReg 2 = 0x4000 ∧ user.readReg 2 = 0x8000
    ∧ (user.writeReg 2 0x7FF0).usp = 0x7FF0 ∧ (user.writeReg 2 0x7FF0).ssp = 0x4000 := by decide

theorem test_byte_order : (mem [(0x1000, 0x11223344)]).readVal .big .half 0x1002 = 0x3344
    ∧ (mem [(0x1000, 0x11223344)]).readVal .little .word 0x1000 = 0x44332211
    ∧ Memory.writeVal [] .big .half 0x1004 0xBEEF = [(0x1004, 0xBE), (0x1005, 0xEF)] := by decide

/-- Writing what an unlisted address reads as removes the entry. -/
theorem test_canonical : ((mem [(0x1000, 0x11223344)]).writeVal .big .half 0x1001 0) = [(0x1000, 0x11), (0x1003, 0x44)] := by
  decide

/-! ## The MMU: V55 to V63 -/

/-- The physical address and the memory after a translation. -/
def walked (a : Access Nat) : Option (Nat × Memory) :=
  match a with
  | .ok pa w => some (pa, w.cur.main)
  | .raised _ _ => none
  | .refused _ => none

theorem test_mmuTranslate_write :
    walked (mmuTranslate .write 0x012345 (Work.start (walk 0x23EFF000 true 0x0050 0x0AB9)))
      = some (0x0AB345, [(0x5024, 0x0A), (0x5025, 0xBB)])
    ∧ walked (mmuTranslate .write 0x012345 (Work.start (walk 0x23EFF000 false 0x0050 0x0AB9)))
      = some (0x0AB345, [(0x5024, 0x0A), (0x5025, 0xB9)])
    ∧ walked (mmuTranslate .read 0x012345 (Work.start (walk 0x23EFF000 true 0x0051 0x0AB9))) = none := by decide

theorem test_pteChecks : pteCheck false .fetch 0x0AB9 = some .accessViolation ∧ pteCheck true .fetch 0x0AB9 = none
    ∧ pteCheck false .write 0x0AB1 = some .accessViolation ∧ pteCheck true .read 0x0ABC = some .pageFault := by decide

/-- V50 to V53. -/
theorem test_pdeAddr : pdeAddr t0 0x7C2345 = 0xFF3E ∧ pdeAddr { t0 with platform := Platform.t0 8 true } 0x7C2345 = 0xFF0E
    ∧ pdeAddr { t0 with platform := Platform.t0 4 true } 0x7C2345 = 0xFFF8 ∧ pdeAddr t0 0xFFFFFF = 0xFF7E := by decide

/-! ## Steps: V70 to V113 -/

theorem test_acknowledge : goesTo (step (irqStart 0x4BEFF000 [⟨0x0F, 3⟩])) (fun t =>
    t.main == mem [(0x3FFC, 0x4BEFF000), (0x3FF8, 0x108)] && t.ssp == 0x3FF8 && t.usp == 0x8000 && t.psr == 0xCFEFF000
      && t.pc == 0x500 && t.pending == []) = true := by decide

theorem test_acknowledge_highest : goesTo (step (irqStart 0x4BEFF000 [⟨0x0B, 3⟩, ⟨0x0F, 2⟩, ⟨0x10, 5⟩])) (fun t =>
    t.psr == 0xD7EFF000 && t.pc == 0x600 && t.pending == [⟨0x0B, 3⟩, ⟨0x0F, 2⟩]) = true := by decide

/-- V76 to V78. -/
theorem test_trapReturn : (let s := fun (psr c : Word) =>
      { irqStart 0xCFEFF000 [] with ssp := 0x3FF8, main := mem [(0x3FFC, psr), (0x3FF8, c)] }
    goesTo (trapReturn (Work.start (s 0x4BEFF000 0x108))) (fun t =>
      t.psr == 0x4BEFF000 && t.pc == 0x108 && t.ssp == 0x4000 && t.readReg 2 == 0x8000) = true
    ∧ refusal? (trapReturn (Work.start (s 0x4BEFF001 0x108))) = some .psrReserved
    ∧ refusal? (trapReturn (Work.start (s 0x4BEFF000 0x01000108))) = some .savedPcTopByte) := by decide

/-- V82, V83, V84. -/
theorem test_uj_jump : goesTo (step (at_ t0 0x400FFFFF)) (fun t => t.pc == 0xFC) = true
    ∧ refusal? (step (at_ { t0 with pc := 0 } 0x400FFFFF)) = some .pcOutOfRange
    ∧ refusal? (step (at_ t0 0x40100003)) = some .linkUnknown := by decide

theorem test_uj_upper : goesTo (step (at_ rich 0x42312345)) (fun t => t.readReg 3 == 0x12345000 && t.pc == 0x104) = true := by
  decide

/-- V85, V86. -/
theorem test_branch : goesTo (step (at_ { t0.writeReg 1 1 with pc := 0x108, ssp := 2 } 0x60117FFE)) (fun t => t.pc == 0x100)
      = true
    ∧ goesTo (step (at_ { t0.writeReg 1 2 with pc := 0x108, ssp := 2 } 0x60117FFE)) (fun t => t.pc == 0x10C) = true := by
  decide

/-- V89, V92. -/
theorem test_load : goesTo (step (at_ { t0.writeReg 1 0x1000 with main := mem [(0x1008, 0xDEADBEEF)] } 0x80208008))
      (fun t => t.readReg 2 == 0xDEADBEEF) = true
    ∧ refusal? (step (at_ (t0.writeReg 1 0x1000) 0x80208001)) = some .misaligned := by decide

/-- 43_i.md R129: the other bits of rd by zero or by sign, at the least number with the sign bit set. -/
theorem test_extend : extend .sign .byte 0x12345680 = 0xFFFFFF80 ∧ extend .sign .byte 0x1234567F = 0x7F
    ∧ extend .zero .byte 0x12345680 = 0x80 ∧ extend .sign .half 0x12348000 = 0xFFFF8000
    ∧ extend .zero .half 0x12348000 = 0x8000 ∧ extend .sign .word 0x80000000 = 0x80000000 := by decide

/-- V95 as P3's first step: the frame, the saved pc of a fault, fault_depth. -/
theorem test_load_user : goesTo (step (at_ user 0x82300100)) (fun t =>
    t.psr == 0x8BEFF000 && t.ssp == 0x3FF8 && t.usp == 0x8000 && t.pc == 0x400 && t.faultDepth == 1 && t.readReg 3 == 0
      && t.main.readVal .big .word 0x3FFC == 0x0BEFF000 && t.main.readVal .big .word 0x3FF8 == 0x300) = true := by decide

/-- V98, V99. -/
theorem test_arithImm : goesTo (step (at_ (t0.writeReg 1 0xFFFFFFFF) 0xA0108001)) (fun t => t.readReg 1 == 0) = true
    ∧ goesTo (step (at_ t0 0xA0104000)) (fun t => t.readReg 1 == 0xFFFFC000) = true := by decide

/-- V101, V102. -/
theorem test_store : goesTo (step (at_ { t0.writeReg 1 0x1000 with ssp := 0x11223344 } 0xE0208004)) (fun t =>
      t.main.readVal .big .word 0x1004 == 0x11223344) = true
    ∧ goesTo (step (at_ { t0.writeReg 1 0x1000 with main := mem [(0x1000, 5)] } 0xE0008000)) (fun t =>
      t.main.readVal .big .word 0x1000 == 0) = true := by decide

/-- V104, V105. -/
theorem test_arithReg : goesTo (step (at_ { t0.writeReg 1 0xFFFFFFFF with ssp := 2 } 0xC0308800)) (fun t => t.readReg 3 == 1)
      = true
    ∧ goesTo (step (at_ (t0.writeReg 1 0x80000000) 0xC0108400)) (fun t => t.readReg 1 == 0) = true := by decide

/-- V107 to V109: no entry. -/
theorem test_noEntry : refusal? (step (at_ t0 0x42000000)) = some .noOpmapEntry
    ∧ refusal? (step (at_ t0 0x20000000)) = some .noOpmapEntry
    ∧ refusal? (step (at_ t0 0x00000006)) = some .noOpmapEntry := by decide

/-- 47_t.md R152: the psr write, and V26. -/
theorem test_sys_writePsr : goesTo (step (at_ (rich.writeReg 5 0x0BEFF000) 0x00500000)) (fun t =>
      t.psr == 0x0BEFF000 && t.pc == 0x104) = true
    ∧ refusal? (step (at_ (rich.writeReg 5 0x83EFF001) 0x00500000)) = some .psrReserved := by decide

/-- 47_t.md R153: a requested trap saves pc + 4 and counts no fault. -/
theorem test_sys_requestTrap : goesTo (step (at_ { rich with data := mem [(0xF880, 0x700)] } 0x06000020)) (fun t =>
    t.pc == 0x700 && t.main.readVal .big .word 0x3FF8 == 0x104 && t.faultDepth == 0) = true := by decide

/-- 47_t.md R150: an entry goes on after its trap entry. The frame holds the psr from before it, irq set. -/
theorem test_sys_goes_on : goesTo (exec (.sys 7 0 0x20) { rich with psr := 0xC3EFF000, data := mem [(0xF880, 0x700)] })
    (fun t => t.pc == 0x700 && t.psr == 0x83EFF000 && t.main.readVal .big .word 0x3FF8 == 0x104
      && t.main.readVal .big .word 0x3FFC == 0xC3EFF000) = true := by decide

/-- 60_exceptions.md R177: data memory after the program has left supervisor mode; the psr write is undone (R170). -/
theorem test_sys_leaves_supervisor : goesTo (exec (.sys 8 0 0) { rich with data := mem [(0xF818, 0x400)] })
    (fun t => t.pc == 0x400 && t.supervisor && t.main.readVal .big .word 0x3FFC == rich.psr) = true := by decide

/-- A pc read after the program has set it (notes/assumptions 45). -/
theorem test_readPc_after_jump :
    let p := Prog.op (.jump (.lit 0x200)) (.op .readPc (.op (.writeReg (.field .r1) (.opnd 1)) .done))
    goesTo (exec (.uj 1 3 0) { rich with platform := { rich.platform with opmap := { richMap with uj := [(1, ⟨"X", false, .u p⟩)] } } })
      (fun t => t.pc == 0x200 && t.readReg 3 == 0x200) = true := by decide

theorem test_bulk : goesTo (step (at_ ((rich.writeReg 1 0x1000).writeReg 3 0xCAFE) 0x22118000)) (fun t =>
    t.main.readVal .big .word 0x1000 == 0xCAFE && t.pc == 0x104) = true := by decide

/-- An entry that commits keeps its pointer when its store faults where the platform lets it (46_m.md R145), else not
(60_exceptions.md R170). -/
theorem test_bulk_commit :
    let s (keeps : Bool) := { noStack with platform := { rich.platform with faultScope := none, bulkKeeps := keeps } }
    goesTo (exec (.bulk 4 2 0 0) (s true))
      (fun t => t.status == .halted .doubleFault && t.ssp == 0x012344 && t.pc == 0x012340) = true
    ∧ goesTo (exec (.bulk 4 2 0 0) (s false))
      (fun t => t.status == .halted .doubleFault && t.ssp == 0x012348 && t.pc == 0x012340) = true := by decide

/-- A page that user mode may not execute, the exception of trap kind, its handler at 000700 (V58's walk). -/
def noExec : State :=
  { walk 0x23EFF000 true 0x0050 0x0AB9 with
    pc := 0x012340
    ssp := 0x012348
    platform := { Platform.t0 6 true with excKind := .table [(0x08, .trap)] }
    data := (Memory.writeVal [] .big .half 0xFF00 0x0050).writeVal .big .word 0xF820 0x700 }

/-- 60_exceptions.md R178: a fetch that raises saves the address that could not be fetched, for an exception of trap kind
too; an instruction that raises it saves the next address (R170). -/
theorem test_fetch_saves_its_address :
    goesTo (step noExec) (fun t => t.pc == 0x700 && t.main.readVal .big .word 0x0AB340 == 0x012340) = true
    ∧ goesTo (takeException .accessViolation noExec) (fun t => t.main.readVal .big .word 0x0AB340 == 0x012344) = true := by
  decide

/-- 00_scope.md R4: an entry may halt; a halted machine has no step. -/
theorem test_sys_halt : goesTo (exec (.sys 5 0 0) rich) (fun t => t.status == .halted .byEntry && t.pc == 0x100) = true
    ∧ refusal? (step (rich.haltWith .byEntry)) = none ∧ next? (step (rich.haltWith .byEntry)) = none := by decide

/-- 47_t.md R150: the all-zero word on the chip's own map is refused. -/
theorem test_zeroWord : refusal? (exec (.sys 0 0 0) State.reset) = some .noOpmapEntry := by decide

/-- The vector and the priority from a register. -/
theorem test_sys_requestTrap_computed : goesTo (exec (.sys 6 1 0)
      ({ rich with data := mem [(0xF840, 0x700)] }.writeReg 1 0x510)) (fun t =>
    t.pc == 0x700 && psrP t.psr == 5 && t.main.readVal .big .word 0x3FF8 == 0x104) = true := by decide

theorem test_alignedOffset : goesTo (exec (.load 2 3 1 0x7FFF) (rich.writeReg 1 0x1000)) (fun t =>
    t.readReg 3 == 0xFFC && t.pc == 0x104) = true := by decide

theorem test_fourDest_division : goesTo (exec (.arithReg 4 3 1 0 4) { rich with
      data := mem [(0xF814, 0x700)], platform := { rich.platform with excKind := .table [(0x05, .trap)] } }) (fun t => t.pc == 0x700 && t.readReg 3 == 0)
      = true
    ∧ refusal? (exec (.arithReg 4 3 0 1 4) (rich.writeReg 1 2)) = some .entrySilent := by decide

/-- A quotient by x[rs2] = 0 raises in an entry that nothing marks (45_r.md R143), in a program too, and writes no register. -/
theorem test_unmarked_division :
    let p (b : RegBody) := { rich with data := mem [(0xF814, 0x700)], platform := { rich.platform with
      excKind := .table [(0x05, .trap)], opmap := { richMap with arithReg := [(0, ⟨"X", false, b⟩)] } } }
    goesTo (exec (.arithReg 0 3 1 0 0) (p (.three ⟨false, .lit 1, .bin .divU (.opnd 0) (.opnd 1)⟩)))
      (fun t => t.pc == 0x700 && t.readReg 3 == 0) = true
    ∧ goesTo (exec (.arithReg 0 3 1 0 0) (p (.fourProg (.op (.writeReg (.field .r1) (.lit 5))
        (.op (.readReg (.field .r3)) (.op (.compute (.bin .remS (.lit 1) (.opnd 0))) .done))))))
      (fun t => t.pc == 0x700 && t.readReg 3 == 0) = true := by decide

/-- A link of pc + 4 in rd, and one that the entry takes from another register (41_j.md R116). -/
theorem test_jump_link :
    let p (l : Prog) := { t0.writeReg 7 0x55 with platform := { rich.platform with
      opmap := { richMap with uj := [(0, ⟨"X", false, .j (some l)⟩)] } } }
    goesTo (exec (.uj 0 1 3) (p (.op (.writeReg (.field .r1) (.bin .add (.opnd 0) (.lit 4))) .done)))
      (fun t => t.readReg 1 == 0x104 && t.pc == 0x10C) = true
    ∧ goesTo (exec (.uj 0 1 3) (p (.op (.readReg (.fixed 7)) (.op (.writeReg (.field .r1) (.opnd 2)) .done))))
      (fun t => t.readReg 1 == 0x55 && t.pc == 0x10C) = true := by decide

/-- A link of pc + 4 from the last word of main memory (notes/assumptions 46). -/
theorem test_jump_link_end :
    let l := Prog.op (.writeReg (.field .r1) (.bin .add (.opnd 0) (.lit 4))) .done
    goesTo (exec (.uj 0 1 0xFFFFF) { t0 with pc := 0xFFFFFC, platform := { rich.platform with
      opmap := { richMap with uj := [(0, ⟨"X", false, .j (some l)⟩)] } } })
      (fun t => t.readReg 1 == 0x01000000 && t.pc == 0xFFFFF8) = true := by decide

/-- The all-zero word on a listed map that is declared complete (notes/assumptions 16): vector 04. -/
theorem test_zeroWord_complete :
    goesTo (exec (.sys 0 0 0) { t0 with data := mem [(0xF810, 0x700)], platform := { t0.platform with
      excKind := .table [(0x04, .trap)], opmap := { OpMap.t0 with rest := .declaredComplete } } })
      (fun t => t.pc == 0x700) = true := by decide

/-- V111, V112. -/
theorem test_reset : (match resetSequence ⟨0, [], mem [(0xF800, 0x100)], Platform.t0 6 false, []⟩ with
      | .ok s => s.pc == 0x100 && s.psr == 0x83EFF000
      | .error _ => false) = true
    ∧ (match resetSequence ⟨0, [], mem [(0xF800, 0x01000100)], Platform.t0 6 false, []⟩ with
      | .ok _ => false
      | .error r => r == .ivtTopByte) = true := by decide

/-- A double fault halts where `FAULT_SCOPE` says so, and a halted machine has no step. -/
theorem test_doubleFault : (let s := { user with
      faultDepth := 1, platform := { user.platform with faultScope := some .untilReturn } }
    goesTo (takeException .privilegeViolation s) (fun t => t.status == .halted .doubleFault && t.psr == s.psr) = true
    ∧ (match step s.halt with
      | .next _ => false
      | .refused _ => false
      | .fault f => f == .halted .doubleFault) = true) := by decide

/-- A device action: a request sent in the gap is taken in that step. -/
theorem test_deviceTurn : goesTo (step { irqStart 0x4BEFF000 [] with
      schedule := [[.request 0x0F]], platform := { t0.platform with irqPriority := [(0x0F, 3)] } })
    (fun t => t.pc == 0x500 && t.schedule == []) = true := by decide

/-! ## The first step after reset, of one word placed for the host with its sample entry -/

theorem test_first_step_sys : goesTo (step (State.reset.withFetchWord 32 0x00000000)) (fun t => t.pc == 4) = true := by decide
theorem test_first_step_bulk : goesTo (step (State.reset.withFetchWord 32 0x20000000)) (fun t => t.pc == 4) = true := by decide

/-! ## Witnesses: values that meet the hypotheses of each obligation, each clause at a bound of its range -/

def accessOk {α : Type} (a : Access α) : Bool :=
  match a with
  | .ok _ _ => true
  | .raised _ _ => false
  | .refused _ => false

def accessRaises {α : Type} (a : Access α) : Bool :=
  match a with
  | .ok _ _ => false
  | .raised _ _ => true
  | .refused _ => false

def refusedAccess {α : Type} (a : Access α) : Option Refusal :=
  match a with
  | .ok _ _ => none
  | .raised _ _ => none
  | .refused r => some r

/-- 20_memory.md R55 with the MMU on: an access at a page that is not present, misaligned and not. -/
theorem test_misaligned_translated : refusedAccess (memWrite .word 0x012346 1 (Work.start noStack)) = some .misaligned
    ∧ refusedAccess (memRead .half 0x012345 (Work.start noStack)) = some .misaligned
    ∧ accessRaises (memRead .half 0x012346 (Work.start noStack)) = true := by decide

def enters (a : TrapResult) : Bool :=
  match a with
  | .entered _ => true
  | .halted _ => false
  | .refused _ => false

theorem witness_EncodeDecodeRoundTrip : decodeWord 0xC7FFFFE0 = .ok (.arithReg 3 31 31 31 31) := by decide

theorem witness_BranchOffsetsAreTheMultiplesOfFour : imm15OfScaledOffset (-65536) = some 0x4000
    ∧ imm15OfScaledOffset 65532 = some 0x3FFF ∧ imm15OfScaledOffset 65536 = none ∧ imm15OfScaledOffset (-65540) = none
    ∧ imm15OfScaledOffset 2 = none := by decide

theorem witness_JumpOffsetsAreTheMultiplesOfFour : imm20OfScaledOffset (-2097152) = some 0x80000
    ∧ imm20OfScaledOffset 2097148 = some 0x7FFFF ∧ imm20OfScaledOffset 2097152 = none
    ∧ imm20OfScaledOffset (-2097156) = none ∧ imm20OfScaledOffset 2 = none := by decide

theorem witness_ByteImmediatesAreSignExtended : imm15OfByteOffset (-16384) = some 0x4000
    ∧ imm15OfByteOffset 16383 = some 0x3FFF := by decide

theorem witness_StackPointerFollowsTheMode : t0.supervisor = true ∧ user.supervisor = false
    ∧ psrS user.psr ≠ psrS t0.psr := by decide

theorem witness_BigEndianByteOrder : Memory.wf mainSize [] = true ∧ 0xFFFFFC + widthBytes .word ≤ mainSize
    ∧ 3 < widthBytes .word := by decide

theorem witness_StoredValueReadsBack : Memory.wf mainSize [(0, 1)] = true ∧ 0xFFFFFC + widthBytes .word ≤ mainSize
    ∧ (0xFFFFFB < 0xFFFFFC ∨ 0xFFFFFC + widthBytes .word ≤ 0xFFFFFB) := by decide

theorem witness_UntranslatedAccesses : mainPlain t0 .word 0x00FFFFFC = true ∧ mainPlain t0 .byte 0x00FFFFFF = true := by
  decide

theorem witness_AddressesThatAreRefused : mainSize ≤ (0x01000000 : Word).toNat ∧ dataSize ≤ (0x00010000 : Word).toNat
    ∧ (0x00FFFFFF : Word).toNat % widthBytes .half ≠ 0 ∧ (0x00FFFFFF : Word).toNat < mainSize
    ∧ (0x0000FFFE : Word).toNat % widthBytes .word ≠ 0
    ∧ (0x0000FFFE : Word).toNat < dataSize
    ∧ (0xFFFFFE : Pc).toNat % 4 ≠ 0 ∧ (Work.start { t0 with pc := 0xFFFFFE }).cur.pc.toNat % 4 ≠ 0 := by decide

theorem witness_WalkGivesThePhysicalAddress : walkPlain (walk 0x23EFF000 true 0x0050 0x0AB9) 0x012345 = true
    ∧ pteCheck false .write (walkPte (walk 0x23EFF000 true 0x0050 0x0AB9) 0x012345) = none
    ∧ walkPlain (walk 0xA3EFF000 false 0x0050 0x0AB9) 0xFFFFFF = true := by decide

theorem witness_WalkRaisesWithNothingChanged : walkPlain (walk 0x23EFF000 true 0x0050 0x0AB1) 0x012345 = true
    ∧ pteCheck (walk 0x23EFF000 true 0x0050 0x0AB1).supervisor .write (walkPte (walk 0x23EFF000 true 0x0050 0x0AB1) 0x012345)
      = some .accessViolation := by decide

theorem witness_PageChecks : (0x0ABC : Word).getLsbD 0 = false ∧ (0x0AB1 : Word).getLsbD 0 = true
    ∧ (0x0AB1 : Word).getLsbD 3 = false ∧ (0x0AB9 : Word).getLsbD 3 = true ∧ (0x0AB5 : Word).getLsbD 2 = true := by decide

theorem witness_TranslationChangesDirtyBitsAndDeviceReadsOnly :
    accessOk (mmuTranslate .read 0x012345 (Work.start (walk 0x23EFF000 true 0x0050 0x0AB9))) = true
    ∧ accessOk (mmuTranslate .write 0x012345 (Work.start (walk 0x23EFF000 true 0x0050 0x0AB9))) = true
    ∧ accessRaises (mmuTranslate .write 0x012345 (Work.start (walk 0x23EFF000 true 0x0050 0x0AB1))) = true
    ∧ noDevice (Platform.t0 6 true) (pdeAddr (walk 0x23EFF000 true 0x0050 0x0AB1) 0x012345) 2 = true
    ∧ accessOk (readPde 0x012345 (Work.start (walk 0x23EFF000 true 0x0050 0x0AB9))) = true
    ∧ (walk 0x23EFF000 true 0x0050 0x0AB9).platform.mmuSetsDirty = true := by decide

theorem witness_TrapEntryMakesTheStateOfThePseudocode : user.platform.frame = .default ∧ frameFits user = true
    ∧ handlerAt user 0x06 0x400 = true ∧ frameFits { user with ssp := 8 } = true := by decide

/-- Untranslated, and through the MMU with the stack's page present and its dirty bit set by the pushes. -/
theorem witness_TrapEntryFrame : enters (trapEnter 0x06 2 0x300 user) = true
    ∧ frameTouches 0x300 user 0x3FFB = true ∧ frameTouches 0x300 user 0x3FF7 = false
    ∧ enters (trapEnter 0x06 2 0x300 { walk 0xA3EFF000 true 0x0050 0x0AB9 with ssp := 0x012348 }) = true
    ∧ frameTouches 0x300 { walk 0xA3EFF000 true 0x0050 0x0AB9 with ssp := 0x012348 } 0x0AB340 = true
    ∧ frameTouches 0x300 { walk 0xA3EFF000 true 0x0050 0x0AB9 with ssp := 0x012348 } 0x5025 = true
    ∧ frameTouches 0x300 { walk 0xA3EFF000 true 0x0050 0x0AB9 with ssp := 0x012348 } 0x0AB33F = false
    ∧ noDevice user.platform (ivtEntryAddr user.psr 0x06) 4 = true := by decide

/-- The page of the first push present, that of the second absent. -/
def stackEdge : State :=
  { walk 0xA3EFF000 true 0x0050 0 with main := Memory.writeVal [] .big .half 0x5026 0x0AB9, ssp := 0x013004 }

theorem witness_FailedPushHaltsWithoutAFrame : accessRaises (pushFrame 0x300 (Work.start noStack)) = true
    ∧ accessRaises (pushFrame 0x300 (Work.start stackEdge)) = true
    ∧ dirtyTouches 0x013000 (Work.movePointer { Work.start stackEdge with cur := stackEdge.raiseMode }) 0x5027 = true
    ∧ dirtyTouches 0x013000 (Work.movePointer { Work.start stackEdge with cur := stackEdge.raiseMode }) 0x5028 = false
    ∧ (frameAddr1 stackEdge).extractLsb' 0 24 = 0x013000#24
    ∧ psrMmu t0.psr = false ∧ t0.platform.mmuSetsDirty = false := by decide

theorem witness_ExceptionEntersItsHandler : user.platform.frame = .default ∧ frameFits user = true
    ∧ handlerAt user (excVector .privilegeViolation) 0x400 = true
    ∧ excPriorityOf user.platform (excVector .privilegeViolation) (psrP user.psr) = some 2
    ∧ excKindOf user.platform (excVector .privilegeViolation) = some .fault ∧ user.faultDepth = 0
    ∧ excKindOf { user.platform with excKind := .table [(0x06, .trap)] } (excVector .privilegeViolation) = some .trap
    ∧ hasNext { user with pc := 0xFFFFF8 } = true ∧ hasNext { user with pc := 0xFFFFFC } = false := by decide

theorem witness_SecondFaultGoesByTheScope : excKindOf user.platform (excVector .privilegeViolation) = some .fault
    ∧ { user with faultDepth := 1 }.faultDepth ≠ 0 ∧ user.platform.faultScope = none
    ∧ { user.platform with faultScope := some .untilReturn }.faultScope = some .untilReturn := by decide

theorem witness_HaltedMachineHasNoStep : (rich.haltWith .byEntry).status = .halted .byEntry
    ∧ rich.halt.status = .halted .doubleFault := by decide

/-- The state of V76 with a map that has the return. -/
def inHandler (psr c : Word) : State :=
  { rich with psr := 0xCFEFF000, ssp := 0x3FF8, main := mem [(0x3FFC, psr), (0x3FF8, c)] }

theorem witness_TrapReturnRestores : findSys (inHandler 0 0).platform.opmap 2 0 0 = .entry ⟨"RETURN", true, .trapReturn⟩
    ∧ (inHandler 0 0).supervisor = true ∧ (inHandler 0 0).platform.frame = .default
    ∧ mainPlain (inHandler 0 0) .word 0x3FF8 = true ∧ mainPlain (inHandler 0 0) .word 0x3FFC = true
    ∧ (inHandler 0x4BEFF000 0xFFFFFF).main.readVal .big .word 0x3FF8 = 0xFFFFFF ∧ psrRes 0x4BEFF000 = 0
    ∧ 2 ^ 24 ≤ ((inHandler 0x4BEFF000 0x01000000).main.readVal .big .word 0x3FF8).toNat
    ∧ psrRes ((inHandler 0x4BEFF001 0xFFFFFF).main.readVal .big .word 0x3FFC) ≠ 0 := by decide

theorem witness_ReturnUndoesEntry : frameFits user = true ∧ handlerAt user 0x06 0x400 = true ∧ psrRes user.psr = 0
    ∧ Memory.wf mainSize user.main = true
    ∧ frameFits { user with platform := { user.platform with frame := ⟨.up, .after, .pcFirst⟩ } } = true := by decide

theorem witness_InterruptChoice : (irqStart 0x4BEFF000 [⟨0x0F, 3⟩]).chooseRequest = some (⟨0x0F, 3⟩, 0)
    ∧ psrIrq 0x4BEFF000 = true ∧ (psrP 0x4BEFF000).toNat < (3 : BitVec 3).toNat := by decide

theorem witness_InterruptsHeldBack : psrIrq (irqStart 0x0BEFF000 [⟨0x0F, 3⟩]).psr = false
    ∧ psrP (irqStart 0xDFEFF000 [⟨0x0F, 7⟩]).psr = 7
    ∧ ∀ r ∈ (irqStart 0x43EFF000 [⟨0x0F, 0⟩]).pending, r.prio = 0 := by decide

theorem witness_AcknowledgeEntersTheHandler : (irqStart 0x4BEFF000 [⟨0x0F, 3⟩]).platform.frame = .default
    ∧ frameFits (irqStart 0x4BEFF000 [⟨0x0F, 3⟩]) = true ∧ handlerAt (irqStart 0x4BEFF000 [⟨0x0F, 3⟩]) 0x0F 0x500 = true := by
  decide

theorem witness_ResetSequence : allInstalled (Platform.t0 6 false).dataInstalled 0xF800 4 = true
    ∧ noDevice (Platform.t0 6 false) 0xF800 4 = true ∧ ((mem [(0xF800, 0xFFFFFF)]).readVal .big .word 0xF800).toNat < 2 ^ 24
    ∧ 2 ^ 24 ≤ ((mem [(0xF800, 0x01000000)]).readVal .big .word 0xF800).toNat := by decide

theorem witness_StepKeepsInvariant : (at_ t0 0xC0308800).Inv ∧ goesTo (step (at_ t0 0xC0308800)) (fun _ => true) = true :=
  ⟨⟨by decide, by decide, by decide, by decide⟩, by decide⟩

/-- T0 with one buffer, the last byte of main memory. -/
def buffered (acts : List DeviceAction) : State :=
  { at_ t0 0xC0308800 with
    platform := { t0.platform with deviceBuffers := [⟨.main, ⟨0xFFFFFF, 1⟩⟩] }, schedule := [acts, []] }

theorem witness_StepKeepsThePlatformAndDevicesStayInTheirBuffers :
    goesTo (step (buffered [.bufferWrite .main 0xFFFFFF 7])) (fun t =>
      t.schedule == [[]] && t.main.read 0xFFFFFF == 7) = true
    ∧ inBuffers (buffered []).platform .main 0xFFFFFE = false ∧ inBuffers (buffered []).platform .data 0xFFFF = false
    ∧ .bufferWrite .main 0xFFFFFE 7 ∈ (buffered [.request 3, .bufferWrite .main 0xFFFFFE 7]).schedule.headD []
    ∧ (buffered []).status = .running
    ∧ refusal? (step (buffered [.bufferWrite .main 0xFFFFFE 7])) = some .deviceOutsideBuffers := by decide

theorem witness_StepRunsTheDecodedInstruction : (at_ t0 0xC0308800).status = .running
    ∧ (at_ t0 0xC0308800).deviceTurn = .ok (at_ t0 0xC0308800) ∧ (at_ t0 0xC0308800).chooseRequest = none
    ∧ accessOk (fetch (Work.start (at_ t0 0xC0308800))) = true ∧ accessRaises (fetch (Work.start noStack)) = true
    ∧ (irqStart 0x4BEFF000 [⟨0x0F, 3⟩]).chooseRequest = some (⟨0x0F, 3⟩, 0)
    ∧ (at_ t0 0xC0308800).schedule = [] ∧ mainPlain (at_ t0 0xC0308800) .word ((at_ t0 0xC0308800).pc.zeroExtend 32) = true
    ∧ decodeBytes ((at_ t0 0xC0308800).main.readList 0x100 4 ++ []) = .ok (.arithReg 0 3 1 2 0, []) :=
  ⟨rfl, rfl, by decide, by decide, by decide, by decide, rfl, by decide, by decide⟩

theorem witness_PsrWrite : findSys rich.platform.opmap 0 0 0 = .entry ⟨"WRITE_PSR", true, .writePsr⟩ ∧ rich.supervisor = true
    ∧ { rich with psr := 0x0BEFF000 }.supervisor = false
    ∧ psrRes ((rich.writeReg 5 0xFFFFF000).readReg 5) = 0 ∧ hasNext rich = true
    ∧ psrRes ((rich.writeReg 5 0x00000001).readReg 5) ≠ 0 := by decide

theorem witness_PsrRead : findSys rich.platform.opmap 1 0 0 = .entry ⟨"READ_PSR", false, .readPsr⟩ ∧ mayRun rich false = true
    ∧ hasNext rich = true := by decide

theorem witness_RequestedTrap : findSys rich.platform.opmap 3 0 0xFF = .entry ⟨"CALL", false, .requestTrap .field .keep⟩
    ∧ mayRun rich false = true ∧ hasNext rich = true ∧ rich.platform.frame = .default ∧ frameFits rich = true
    ∧ handlerAt rich (trapVectorValue .field [0xFF, rich.readReg 0] 0xFF) 0x700 = true := by decide

/-- Its second clause: what the program writes to the psr is 0 in the reserved bits, or, with another last operation, not. -/
theorem witness_RequestedTrap_goes_on :
    let t := entryState (trapPrioValue .keep [0xFF] (psrP rich.psr)) (rich.pc + 4) 0x700 rich
    let f := Expr.bin .and (.opnd 1) (.lit 0xBFFFFFFF)
    let g := Expr.bin .or (.opnd 1) (.lit 1)
    findSys rich.platform.opmap 7 0 0xFF = .entry ⟨"CALL_MASKED", false, .prog maskedCall⟩
    ∧ rich.supervisor = true ∧ handlerAt rich 0xFF 0x700 = true
    ∧ TrapPrio.keep.exprs.any (dividesByZero [0xFF]) = false ∧ dividesByZero [0xFF, t.psr] f = false
    ∧ dividesByZero [0xFF, t.psr] g = false ∧ psrRes (evalExpr [0xFF, t.psr] f) = 0 ∧ psrRes (evalExpr [0xFF, t.psr] g) ≠ 0
    ∧ findSys { richMap with sys := [(9, ⟨"X", false, .prog (.op (.requestTrap (.opnd 0) .keep) (.op .readPsr
        (.op (.writePsr g) .done)))⟩)] } 9 0 0xFF
      = .entry ⟨"X", false, .prog (.op (.requestTrap (.opnd 0) .keep) (.op .readPsr (.op (.writePsr g) .done)))⟩ := by decide

/-- A program with a data memory load. -/
def dataProgram : Prog := .op (.load .data .byte .zero (.lit 0xF818)) .done

/-- User mode, with a supervisor-only entry in every group that may have one, and entries that are programs. -/
def guarded : State :=
  { user with platform := { user.platform with opmap :=
    { sys := [(0, ⟨"A", false, .writePsr⟩), (1, ⟨"B", false, .trapReturn⟩), (2, ⟨"C", true, .readPsr⟩),
        (3, ⟨"M", false, .prog dataProgram⟩)]
      bulk := [(0, ⟨"D", true, ⟨.three, .done⟩⟩), (1, ⟨"N", false, ⟨.three, dataProgram⟩⟩)]
      uj := [(0, ⟨"E", true, .u .done⟩), (1, ⟨"O", false, .u dataProgram⟩), (2, ⟨"P", false, .j none⟩)]
      branch := [(0, ⟨"F", false, .differ⟩)]
      load := [(0, ⟨"G", true, .load .main .word .zero⟩), (1, ⟨"H", false, .load .data .byte .zero⟩),
        (2, ⟨"Q", false, .alignedOffset dataProgram⟩)]
      arithImm := [(0, ⟨"I", true, .add⟩)]
      arithReg := [(0, ⟨"J", true, .three .add⟩)]
      store := [(0, ⟨"K", true, ⟨.main, .word⟩⟩), (1, ⟨"L", false, ⟨.data, .byte⟩⟩)]
      rest := .declaredPartial } } }

theorem witness_UserModePrivilegeViolations : guarded.supervisor = false
    ∧ findSys guarded.platform.opmap 0 0 0 = .entry ⟨"A", false, .writePsr⟩
    ∧ findSys guarded.platform.opmap 1 0 0 = .entry ⟨"B", false, .trapReturn⟩
    ∧ findSys guarded.platform.opmap 2 0 0 = .entry ⟨"C", true, .readPsr⟩
    ∧ findSys guarded.platform.opmap 3 0 0 = .entry ⟨"M", false, .prog dataProgram⟩
    ∧ dataProgram.needsSupervisor = true
    ∧ findBulk guarded.platform.opmap 0 = .entry ⟨"D", true, ⟨.three, .done⟩⟩ ∧ (0x7C00 : BitVec 15).extractLsb' 0 10 = 0#10
    ∧ findBulk guarded.platform.opmap 1 = .entry ⟨"N", false, ⟨.three, dataProgram⟩⟩
    ∧ findUJ guarded.platform.opmap 0 = .entry ⟨"E", true, .u .done⟩
    ∧ findUJ guarded.platform.opmap 1 = .entry ⟨"O", false, .u dataProgram⟩
    ∧ findUJ guarded.platform.opmap 2 = .entry ⟨"P", false, .j none⟩
    ∧ findBranch guarded.platform.opmap 0 = .entry ⟨"F", false, .differ⟩
    ∧ findLoad guarded.platform.opmap 0 = .entry ⟨"G", true, .load .main .word .zero⟩
    ∧ findLoad guarded.platform.opmap 1 = .entry ⟨"H", false, .load .data .byte .zero⟩
    ∧ findLoad guarded.platform.opmap 2 = .entry ⟨"Q", false, .alignedOffset dataProgram⟩
    ∧ findArithImm guarded.platform.opmap 0 = .entry ⟨"I", true, .add⟩
    ∧ findArithReg guarded.platform.opmap 0 = .entry ⟨"J", true, .three .add⟩
    ∧ findStore guarded.platform.opmap 0 = .entry ⟨"K", true, ⟨.main, .word⟩⟩
    ∧ findStore guarded.platform.opmap 1 = .entry ⟨"L", false, ⟨.data, .byte⟩⟩ := by decide

theorem witness_JumpGoesToItsTarget : findUJ t0.platform.opmap 0 = .entry ⟨"T0_J", false, .j none⟩
    ∧ findUJ { OpMap.t0 with uj := [(0, ⟨"J", false, .j (some (.op (.writeReg (.field .r1) (.opnd 0)) .done))⟩)] } 0
      = .entry ⟨"J", false, .j (some (.op (.writeReg (.field .r1) (.opnd 0)) .done))⟩
    ∧ { t0.platform with relBase := none }.relBase = none ∧ t0.platform.relBase = some .zero
    ∧ (0 : Int) ≤ ({ t0 with pc := 4 } : State).pc.toNat + relBaseBytes .zero + 4 * (0xFFFFF : BitVec 20).toInt
    ∧ ({ t0 with pc := 0 } : State).pc.toNat + relBaseBytes .zero + 4 * (0xFFFFF : BitVec 20).toInt < 0
    ∧ 0xFFFFFF < ({ t0 with pc := 0xFFFFFC } : State).pc.toNat + relBaseBytes .zero + 4 * (1 : BitVec 20).toInt := by decide

theorem witness_EntriesWriteFunctionsOfTheirOperands : mayRun rich false = true ∧ hasNext rich = true
    ∧ findUJ rich.platform.opmap 1
      = .entry ⟨"UPPER", false, .u (.op (.writeReg (.field .r1) (.bin .shl (.opnd 0) (.lit 12))) .done)⟩
    ∧ findLoad rich.platform.opmap 2 = .entry ⟨"ADD_OFFSET", false, .alignedOffset
      (.op (.readReg (.field .r2)) (.op (.writeReg (.field .r1) AluOp.add.value) .done))⟩
    ∧ findBulk rich.platform.opmap 2 = .entry ⟨"ADD_IMM", false,
      ⟨.two, .op (.readReg (.field .r2)) (.op (.writeReg (.field .r1) AluOp.add.value) .done)⟩⟩
    ∧ findBulk rich.platform.opmap 3 = .entry ⟨"ADD_REGS", false, ⟨.three, .op (.readReg (.field .r2))
      (.op (.readReg (.field .r3)) (.op (.writeReg (.field .r1) AluOp.add.value) .done))⟩⟩
    ∧ (0x7C00 : BitVec 15).extractLsb' 0 10 = 0#10
    ∧ dividesByZero [0xFF, 0] AluOp.add.value = false ∧ dividesByZero [0xFF, 0] (.bin .divU (.opnd 0) (.opnd 1)) = true
    ∧ findSys { richMap with sys := [(4, ⟨"DIV_VECTOR", false, .prog (.op (.readReg (.field .r1))
        (.op (.writeReg (.field .r1) (.bin .divU (.opnd 0) (.opnd 1))) .done))⟩)] } 4 1 0xFF
      = .entry ⟨"DIV_VECTOR", false, .prog (.op (.readReg (.field .r1))
        (.op (.writeReg (.field .r1) (.bin .divU (.opnd 0) (.opnd 1))) .done))⟩
    ∧ findSys rich.platform.opmap 4 1 0xFF = .entry ⟨"ADD_VECTOR", false,
      .prog (.op (.readReg (.field .r1)) (.op (.writeReg (.field .r1) AluOp.add.value) .done))⟩ := by decide

theorem witness_RegisterProgramsComplete : hasNext rich = true ∧ mayRun rich false = true
    ∧ findBulk rich.platform.opmap 0 = .entry ⟨"NOTHING", false, ⟨.two, .done⟩⟩ ∧ Prog.registerOnly .done = true
    ∧ findUJ rich.platform.opmap 1
      = .entry ⟨"UPPER", false, .u (.op (.writeReg (.field .r1) (.bin .shl (.opnd 0) (.lit 12))) .done)⟩
    ∧ Prog.registerOnly (.op (.writeReg (.field .r1) (.bin .shl (.opnd 0) (.lit 12))) .done) = true
    ∧ Prog.registerOnly (.op (.readReg (.field .r1)) (.op (.writeReg (.field .r1) AluOp.add.value) .done)) = true
    ∧ Prog.registerOnly (.op (.readReg (.field .r2)) (.op (.writeReg (.field .r1) AluOp.add.value) .done)) = true
    ∧ progWrites ⟨3, 1, 0, 0⟩ (.op (.readReg (.field .r2)) (.op (.writeReg (.field .r1) AluOp.add.value) .done)) 1 = false := by
  decide

theorem witness_BulkStoresThroughARegister : findBulk rich.platform.opmap 1 = .entry ⟨"STORE", false, ⟨.three,
      .op (.readReg (.field .r1)) (.op (.readReg (.field .r2)) (.op (.store .main .word (.opnd 0) (.opnd 1)) .done))⟩⟩
    ∧ mayRun rich false = true ∧ hasNext rich = true ∧ (0x7C00 : BitVec 15).extractLsb' 0 10 = 0#10
    ∧ mainPlain (rich.writeReg 1 0xFFFFFC) .word ((rich.writeReg 1 0xFFFFFC).readReg 1) = true := by decide

/-- The entries of `rich` with the MMU on and every page but one absent (a Page Fault of the store, whose entry ends in a
double fault because the frame's page is absent too). -/
def faulting : State := { noStack with platform := { (Platform.t0 6 true) with opmap := richMap } }

/-- Going on; an exception of an entry that commits nothing; one of an entry that commits its pointer, where the platform
lets it and where not. -/
theorem witness_BulkGoesOnOrRaises : findBulk rich.platform.opmap 0 = .entry ⟨"NOTHING", false, ⟨.two, .done⟩⟩
    ∧ goesTo (exec (.bulk 0 0 0 0) rich) (fun t => t.pc == 0x104) = true
    ∧ findBulk faulting.platform.opmap 1 = .entry ⟨"STORE", false, ⟨.three,
      .op (.readReg (.field .r1)) (.op (.readReg (.field .r2)) (.op (.store .main .word (.opnd 0) (.opnd 1)) .done))⟩⟩
    ∧ Prog.commits (.op (.readReg (.field .r1)) (.op (.readReg (.field .r2))
      (.op (.store .main .word (.opnd 0) (.opnd 1)) .done))) = false
    ∧ goesTo (exec (.bulk 1 2 0 0) faulting) (fun t => t.pc == 0x012340 && t.ssp == 0x012348) = true
    ∧ faulting.platform.bulkKeeps = false
    ∧ goesTo (exec (.bulk 4 2 0 0) faulting) (fun t => t.pc == 0x012340 && t.ssp == 0x012348) = true
    ∧ goesTo (exec (.bulk 4 2 0 0) { faulting with platform := { faulting.platform with bulkKeeps := true } })
      (fun t => t.pc == 0x012340 && t.ssp == 0x012344) = true := by decide

theorem witness_BranchGoesByItsCondition : findBranch t0.platform.opmap 0 = .entry ⟨"T0_BNE", false, .differ⟩
    ∧ exprHolds [5, 0] Expr.differ = true ∧ exprHolds [0, 0] Expr.differ = false
    ∧ hasNext { t0 with pc := 0xFFFFF8 } = true ∧ hasNext { t0 with pc := 0xFFFFFB } = true
    ∧ 0xFFFFFB < ({ t0 with pc := 0xFFFFFC } : State).pc.toNat ∧ { t0.platform with relBase := none }.relBase = none
    ∧ (0 : Int) ≤ ({ t0 with pc := 65536 } : State).pc.toNat + relBaseBytes .zero + 4 * (0x4000 : BitVec 15).toInt
    ∧ ({ t0 with pc := 0 } : State).pc.toNat + relBaseBytes .zero + 4 * (0x4000 : BitVec 15).toInt < 0 := by decide

theorem witness_LoadFromMain : findLoad t0.platform.opmap 0 = .entry ⟨"T0_LW", false, .load .main .word .zero⟩
    ∧ mayRun t0 false = true ∧ hasNext t0 = true
    ∧ mainPlain (t0.writeReg 1 0xFFFFF4) .word ((t0.writeReg 1 0xFFFFF4).readReg 1 + (8 : BitVec 15).signExtend 32) = true := by
  decide

/-- V103's walk for the store, and the same page absent for the load; of the primitives translated, one word at the end of
that page. -/
theorem witness_MainAccessesGoThroughThePrimitives :
    psrMmu (walk 0xA3EFF000 true 0x0050 0x0AB9).psr = true ∧ (0x012FFC : Word).toNat < mainSize
    ∧ walked (mmuTranslate .read 0x012FFC (Work.start (walk 0xA3EFF000 true 0x0050 0x0AB9)))
      = some (0x0ABFFC, [(0x5024, 0x0A), (0x5025, 0xB9)])
    ∧ walked (mmuTranslate .fetch 0x012FFC (Work.start (walk 0xA3EFF000 true 0x0050 0x0AB9)))
      = some (0x0ABFFC, [(0x5024, 0x0A), (0x5025, 0xB9)])
    ∧ walked (mmuTranslate .write 0x012FFC (Work.start (walk 0xA3EFF000 true 0x0050 0x0AB9)))
      = some (0x0ABFFC, [(0x5024, 0x0A), (0x5025, 0xBB)])
    ∧ accessRaises (mmuTranslate .fetch 0x012FFC (Work.start noStack)) = true
    ∧ accessOk (mmuTranslate .read 0x012FFC (Work.start (walk 0xA3EFF000 true 0x0051 0x0AB9))) = false
    ∧ accessRaises (mmuTranslate .read 0x012FFC (Work.start (walk 0xA3EFF000 true 0x0051 0x0AB9))) = false
    ∧ (0x012FFC : Word).toNat % widthBytes .word = 0 ∧ (0x012FFE : Word).toNat % widthBytes .word ≠ 0
    ∧ 0xFFFFFC % widthBytes .word = 0 ∧ 0xFFFFFE % widthBytes .word ≠ 0
    ∧ allInstalled t0.platform.mainInstalled 0xFFFFFC (widthBytes .word) = true
    ∧ allInstalled (.regions [⟨0, 0xFFFFFE⟩]) 0xFFFFFC (widthBytes .word) = false
    ∧ hasNext t0 = true
    ∧ findLoad t0.platform.opmap 0 = .entry ⟨"T0_LW", false, .load .main .word .zero⟩
    ∧ findStore t0.platform.opmap 0 = .entry ⟨"T0_SW", false, ⟨.main, .word⟩⟩ ∧ mayRun t0 false = true
    ∧ accessOk (memRead .word 0x012344 (Work.start (walk 0x23EFF000 true 0x0050 0x0AB9))) = true
    ∧ accessOk (memWrite .word 0x012344 1 (Work.start (walk 0x23EFF000 true 0x0050 0x0AB9))) = true
    ∧ accessRaises (memRead .word 0x012344 (Work.start noStack)) = true
    ∧ accessRaises (memWrite .word 0x012344 1 (Work.start (walk 0x23EFF000 true 0x0050 0x0AB1))) = true
    ∧ writeTouches .word 0x012344 (Work.start (walk 0x23EFF000 true 0x0050 0x0AB9)) 0x0AB347 = true
    ∧ writeTouches .word 0x012344 (Work.start (walk 0x23EFF000 true 0x0050 0x0AB9)) 0x5024 = true
    ∧ writeTouches .word 0x012344 (Work.start (walk 0x23EFF000 true 0x0050 0x0AB9)) 0x0AB348 = false := by decide

theorem witness_LoadFromData : findLoad t0.platform.opmap 1 = .entry ⟨"T0_LBUD", true, .load .data .byte .zero⟩
    ∧ t0.supervisor = true ∧ user.supervisor = false ∧ hasNext t0 = true ∧ dataPlain t0 .byte 0xFFFF = true
    ∧ accessOk (dataRead .byte 0xFFFF (Work.start t0)) = true
    ∧ noDevice t0.platform 0x0110 1 = true ∧ dataPlain t0 .byte 0x010F = true ∧ allDevice t0.platform 0x010F 1 = true
    ∧ dataPlain t0 .word 0x010C = true ∧ allDevice t0.platform 0x010C 4 = true := by decide

theorem witness_ArithmeticWithAnImmediate : findArithImm t0.platform.opmap 0 = .entry ⟨"T0_ADDI", false, .add⟩
    ∧ mayRun t0 false = true ∧ exprHolds [0, 1] AluOp.add.defined = true ∧ hasNext t0 = true
    ∧ 0xFFFFFB < ({ t0 with pc := 0xFFFFFC } : State).pc.toNat
    ∧ aluDividesByZero AluOp.add [0, 1] = false ∧ aluDividesByZero ({ AluOp.add with divides := true } : AluOp) [0, 0] = true
    ∧ BinOp.divides .divU = true
    ∧ ({ AluOp.add with divides := true } : AluOp).divides = true
    ∧ exprHolds [0, 1] ({ AluOp.add with defined := .lit 0 } : AluOp).defined = false := by decide

theorem witness_ThreeRegisterArithmetic : findArithReg rich.platform.opmap 3
      = .entry ⟨"DIV", false, .three ⟨true, .lit 1, .bin .divU (.opnd 0) (.opnd 1)⟩⟩
    ∧ mayRun rich false = true ∧ (1 : RegIx) ≠ 0 ∧ rich.readReg 2 ≠ 0 ∧ exprHolds [0, 1] (.lit 1) = true
    ∧ hasNext rich = true ∧ rich.readReg 0 = 0 ∧ exprHolds [0, 1] (.lit 0) = false
    ∧ aluDividesByZero ⟨true, .lit 1, .bin .divU (.opnd 0) (.opnd 1)⟩ [0, 0] = true
    ∧ aluDividesByZero ⟨true, .lit 1, .bin .divU (.opnd 0) (.opnd 1)⟩ [0, 1] = false := by decide

theorem witness_FourRegisterArithmetic : findArithReg rich.platform.opmap 1 = .entry ⟨"ADD3", false,
      .fourSource ⟨false, .lit 1, .bin .add (.bin .add (.opnd 0) (.opnd 1)) (.opnd 2)⟩⟩
    ∧ findArithReg rich.platform.opmap 2 = .entry ⟨"ADD_BOTH", false, .fourDest .add .add⟩ ∧ mayRun rich false = true
    ∧ exprHolds [0, 0, 0] (.lit 1) = true ∧ hasNext rich = true
    ∧ pickField rich.platform.roles.four.rd 1 0 0 2 ≠ pickField rich.platform.roles.four.fourth 1 0 0 2
    ∧ pickField rich.platform.roles.four.rd 1 0 0 1 = pickField rich.platform.roles.four.fourth 1 0 0 1
    ∧ findArithReg rich.platform.opmap 4 = .entry ⟨"DIV_REM", false, .fourDest
      ⟨true, .lit 1, .bin .divU (.opnd 0) (.opnd 1)⟩ ⟨true, .opnd 0, .bin .remU (.opnd 0) (.opnd 1)⟩⟩
    ∧ findArithReg rich.platform.opmap 6 = .entry ⟨"DIV3", false, .fourSource
      ⟨true, .opnd 0, .bin .divU (.opnd 0) (.opnd 1)⟩⟩
    ∧ findArithReg rich.platform.opmap 5 = .entry ⟨"ADD_IN_PROGRAM", false, .fourProg (.op (.readReg (.field .r2))
      (.op (.readReg (.field .r3)) (.op (.readReg (.field .r4)) (.op (.writeReg (.field .r1) AluOp.add.value) .done))))⟩
    ∧ rich.readReg 2 ≠ 0 ∧ rich.readReg 0 = 0 ∧ exprHolds [0, 0x4000] (.opnd 0) = false
    ∧ exprHolds [0x4000, 0] (.opnd 0) = true
    ∧ aluDividesByZero ⟨true, .opnd 0, .bin .divU (.opnd 0) (.opnd 1)⟩ [0x4000, 0, 0] = true
    ∧ aluDividesByZero ⟨true, .opnd 0, .bin .divU (.opnd 0) (.opnd 1)⟩ [0, 0x4000, 0] = false
    ∧ dividesByZero [0, 0, 0] AluOp.add.value = false
    ∧ dividesByZero [0, 0, 0] (.bin .divU (.opnd 0) (.opnd 1)) = true := by decide

theorem witness_StoreToMain : findStore t0.platform.opmap 0 = .entry ⟨"T0_SW", false, ⟨.main, .word⟩⟩
    ∧ mayRun t0 false = true ∧ hasNext t0 = true ∧ Memory.wf mainSize t0.main = true
    ∧ mainPlain (t0.writeReg 1 0xFFFFF4) .word ((t0.writeReg 1 0xFFFFF4).readReg 1 + (8 : BitVec 15).signExtend 32) = true := by
  decide

theorem witness_StoreToData : findStore rich.platform.opmap 1 = .entry ⟨"SBD", true, ⟨.data, .byte⟩⟩ ∧ rich.supervisor = true
    ∧ { rich with psr := 0x0BEFF000 }.supervisor = false ∧ accessOk (dataWrite .byte 0xFFFF 1 (Work.start rich)) = true
    ∧ hasNext rich = true ∧ Memory.wf dataSize rich.data = true ∧ dataPlain rich .byte 0xFFFF = true
    ∧ noDevice rich.platform 0xFFFF 1 = true ∧ dataPlain rich .byte 0 = true ∧ allDevice rich.platform 0 1 = true
    ∧ dataPlain { rich with platform := { rich.platform with opmap := { richMap with store := [(1, ⟨"SHD", true,
      ⟨.data, .half⟩⟩)] } } } .half 0xFE = true ∧ allDevice rich.platform 0xFE 2 = true := by decide

theorem witness_UnassignedOpcodes : t0.platform.opmap.sys.lookup 0 = none ∧ t0.platform.opmap.bulk.lookup 15 = none
    ∧ t0.platform.opmap.uj.lookup 1 = none ∧ t0.platform.opmap.branch.lookup 1 = none
    ∧ t0.platform.opmap.load.lookup 2 = none ∧ t0.platform.opmap.arithImm.lookup 1 = none
    ∧ t0.platform.opmap.arithReg.lookup 1 = none ∧ t0.platform.opmap.store.lookup 1 = none
    ∧ t0.platform.opmap.rest = .declaredPartial
    ∧ { t0.platform.opmap with rest := .declaredComplete }.rest = .declaredComplete := by decide

theorem witness_UserModeCannotChangeDataMemory : user.supervisor = false
    ∧ goesTo (exec (.arithImm 0 1 0 1) user) (fun t => t.readReg 1 == 1) = true := by decide

/-- Both cases: an addition, and the privilege violation of a data memory load. -/
theorem witness_UserModeChangesThePsrByTrapEntryOnly : user.supervisor = false
    ∧ goesTo (exec (.arithImm 0 1 0 1) user) (fun t => t.psr == user.psr) = true
    ∧ goesTo (exec (.load 1 3 0 0x100) user) (fun t => t.psr == 0x8BEFF000) = true
    ∧ entersLast user.platform.opmap (.load 1 3 0 0x100) = true ∧ entersLast richMap (.sys 7 0 0) = false := by decide

theorem witness_PlainInstructionsStayInSupervisorMode : rich.supervisor = true
    ∧ goesTo (exec (.store 0 0 0 0x10) rich) (fun t => t.supervisor) = true
    ∧ goesTo (exec (.uj 0 0 3) rich) (fun t => t.supervisor) = true
    ∧ findUJ rich.platform.opmap 0 = .entry ⟨"T0_J", false, .j none⟩ := by decide

end Sys2Proof.Tests
end

section
/-! PROOFS. The stack pointer's two copies (10_state.md R12) and the positions of the vector table (R21). -/

namespace Sys2Proof.Machine

/-! ## The two copies of x2

What the two copies are after a write of x2, and what a psr that is put in makes of a read. -/

/-- A write of x2 reaches the supervisor's copy in supervisor mode only. -/
theorem writeReg_sp_ssp (s : State) (v : Word) :
    (s.writeReg spIx v).ssp = if psrS s.psr then v else s.ssp := by
  rw [writeReg_sp]
  split <;> rfl

/-- A write of x2 reaches the user's copy in user mode only. -/
theorem writeReg_sp_usp (s : State) (v : Word) :
    (s.writeReg spIx v).usp = if psrS s.psr then s.usp else v := by
  rw [writeReg_sp]
  split <;> rfl

/-- A read of x2 chooses by the psr at the moment of the access, so by the one put in. -/
theorem readReg_sp_withPsr (s : State) (p : Word) :
    ({ s with psr := p } : State).readReg spIx = if psrS p then s.ssp else s.usp :=
  readReg_sp _

/-- Nothing is copied: after a write of x2 the mode that did not write finds its own copy as it was. -/
theorem readReg_sp_otherMode (s : State) (v p : Word) (hp : psrS p ≠ psrS s.psr) :
    ({ s.writeReg spIx v with psr := p } : State).readReg spIx = ({ s with psr := p } : State).readReg spIx := by
  rw [readReg_sp_withPsr, readReg_sp_withPsr, writeReg_sp_ssp, writeReg_sp_usp]
  cases hs : psrS s.psr with
  | true =>
    have hp : psrS p = false := Bool.eq_false_iff.mpr (hs ▸ hp)
    simp [hp]
  | false =>
    have hp : psrS p = true := Bool.eq_true_of_not_eq_false (hs ▸ hp)
    simp [hp]

/-- Settles O9: a case per mode for the first two clauses, and that nothing is copied for the third. -/
theorem stackPointerFollowsTheMode : Obligations.StackPointerFollowsTheMode := by
  intro s v
  refine ⟨fun (hs : psrS s.psr = true) => ?_, fun (hs : psrS s.psr = false) => ?_, readReg_sp_otherMode s v⟩
  · exact ⟨(readReg_sp s).trans (if_pos hs), (writeReg_sp s v).trans (if_pos hs)⟩
  · have hs := Bool.eq_false_iff.mp hs
    exact ⟨(readReg_sp s).trans (if_neg hs), (writeReg_sp s v).trans (if_neg hs)⟩

/-! ## The vector table -/

/-- The ivt of a psr built from its fields is the one given, so every position is some psr's. -/
theorem psrIvt_psrOf (s irq mmu : Bool) (p : BitVec 3) (ivt : BitVec 6) (pdt : BitVec 8) (res : BitVec 12) :
    psrIvt (psrOf s irq mmu p ivt pdt res) = ivt := by
  unfold psrIvt psrOf
  ext i hi
  have hres : ¬ 20 + i < 12 := by omega
  have hpdt : ¬ 20 + i - 12 < 8 := by omega
  have hivt : 20 + i - 12 - 8 = i := by omega
  rw [BitVec.getElem_extractLsb', BitVec.getLsbD_cast, BitVec.getLsbD_append, if_neg hres, BitVec.getLsbD_append,
    if_neg hpdt, BitVec.getLsbD_append, hivt, if_pos hi, BitVec.getLsbD_eq_getElem hi]

/-- Position and vector are the two digits, base 256, of the number of an entry in data memory. -/
theorem ivtEntryAddr_eq_entryNumber (w : Word) (v : Byte) :
    ivtEntryAddr w v = 4 * (256 * (psrIvt w).toNat + v.toNat) := by
  unfold ivtEntryAddr ivtBase
  omega

/-- Entries of two positions or of two vectors have different numbers, so they share no byte. -/
theorem ivtEntryAddr_disjoint {a b : Word} {u v : Byte} (h : psrIvt a ≠ psrIvt b ∨ u ≠ v) :
    ivtEntryAddr a u + 4 ≤ ivtEntryAddr b v ∨ ivtEntryAddr b v + 4 ≤ ivtEntryAddr a u := by
  have hu := u.isLt
  have hv := v.isLt
  have hne : (psrIvt a).toNat ≠ (psrIvt b).toNat ∨ u.toNat ≠ v.toNat :=
    h.imp BitVec.toNat_ne.mp BitVec.toNat_ne.mp
  rw [ivtEntryAddr_eq_entryNumber, ivtEntryAddr_eq_entryNumber]
  omega

/-- The entry an address of data memory lies in: the position is the address by 1024, the vector its word in the table. -/
theorem exists_ivtEntryAddr_covering {x : Nat} (hx : x < dataSize) :
    ∃ (a : Word) (v : Byte), ivtEntryAddr a v ≤ x ∧ x < ivtEntryAddr a v + 4 := by
  have hx : x < 65536 := hx
  refine ⟨psrOf false false false 0 (BitVec.ofNat 6 (x / 1024)) 0 0, BitVec.ofNat 8 (x / 4 % 256), ?_⟩
  rw [ivtEntryAddr_eq_entryNumber, psrIvt_psrOf, BitVec.toNat_ofNat, BitVec.toNat_ofNat]
  omega

/-- psr.ivt = 62 is the default location 0xf800. -/
theorem ivtBase_default {w : Word} (h : psrIvt w = 62) : ivtBase w = 0xF800 := by
  rw [ivtBase, h]
  rfl

/-- Settles O12: the addresses are the model's definitions, and entry numbers, being two digits base 256, neither meet nor
leave a gap. -/
theorem vectorTablePositions : Obligations.VectorTablePositions :=
  ⟨fun a v => ⟨rfl, rfl, ivtEntryAddr_lt a v, ivtBase_default⟩,
    fun _ _ _ _ => ivtEntryAddr_disjoint,
    fun _ => exists_ivtEntryAddr_covering⟩

end Sys2Proof.Machine
end

section
/-! PROOFS. The offsets of a scaled imm15 (30_encoding.md R91). -/

namespace Sys2Proof.Machine

/-! ## The offset of a field -/

/-- Sign extension to 32 bits leaves a field of at most 30 bits the room that the scaling by 4 needs, so nothing wraps. -/
theorem toInt_signExtend_shiftLeft_two {n : Nat} (hn : n ≤ 30) (imm : BitVec n) :
    (imm.signExtend 32 <<< 2).toInt = 4 * imm.toInt := by
  have hext : (imm.signExtend 32).toInt = imm.toInt := BitVec.toInt_signExtend_of_le (by omega)
  have hpow : (2 : Int) ^ n ≤ 2 ^ 30 := pow_le_pow_right₀ (by decide) hn
  have hlo : -2 ^ n ≤ 2 * imm.toInt := BitVec.le_two_mul_toInt
  have hhi : 2 * imm.toInt < 2 ^ n := BitVec.two_mul_toInt_lt
  have hfour : (BitVec.twoPow 32 2).toInt = 4 := by decide
  rw [BitVec.shiftLeft_eq_mul_twoPow, BitVec.toInt_mul, hext, hfour, Int.mul_comm]
  exact Int.bmod_eq_of_le (by omega) (by omega)

theorem branchOffset_eq_four_mul (imm : BitVec 15) : branchOffset imm = 4 * imm.toInt :=
  toInt_signExtend_shiftLeft_two (by decide) imm

theorem branchOffset_bounds (imm : BitVec 15) : -65536 ≤ branchOffset imm ∧ branchOffset imm ≤ 65532 := by
  have hlo : -16384 ≤ imm.toInt := imm.le_toInt
  have hhi : imm.toInt ≤ 16383 := BitVec.toInt_le
  rw [branchOffset_eq_four_mul]
  omega

/-! ## The field of an offset -/

theorem imm15OfScaledOffset_eq_none_iff (n : Int) :
    imm15OfScaledOffset n = none ↔ n % 4 ≠ 0 ∨ n < -65536 ∨ 65532 < n := by
  have houtside : (n % 4 ≠ 0 ∨ n < -65536 ∨ 65532 < n) ↔ ¬ (n % 4 = 0 ∧ -65536 ≤ n ∧ n ≤ 65532) := by omega
  rw [houtside]
  simp only [imm15OfScaledOffset, ite_eq_right_iff, reduceCtorEq, imp_false]

/-- The field of an offset is the one whose value is a quarter of it. -/
theorem imm15OfScaledOffset_four_mul {k : Int} (hlo : -16384 ≤ k) (hhi : k ≤ 16383) :
    imm15OfScaledOffset (4 * k) = some (BitVec.ofInt 15 k) := by
  have hquarter : 4 * k / 4 = k := by omega
  rw [imm15OfScaledOffset, if_pos (by omega), hquarter]

theorem imm15OfScaledOffset_branchOffset (imm : BitVec 15) :
    imm15OfScaledOffset (branchOffset imm) = some imm := by
  rw [branchOffset_eq_four_mul, imm15OfScaledOffset_four_mul imm.le_toInt BitVec.toInt_le, BitVec.ofInt_toInt]

theorem branchOffset_ofInt {k : Int} (hlo : -16384 ≤ k) (hhi : k ≤ 16383) :
    branchOffset (BitVec.ofInt 15 k) = 4 * k := by
  rw [branchOffset_eq_four_mul, BitVec.toInt_ofInt_eq_self (by decide) hlo (Int.lt_of_le_sub_one hhi)]

/-- Settles O5: a field and its offset determine each other, because a multiple of 4 in the range is 4 times a number
that 15 bits hold. -/
theorem branchOffsetsAreTheMultiplesOfFour : Obligations.BranchOffsetsAreTheMultiplesOfFour := by
  refine ⟨fun imm => ⟨branchOffset_eq_four_mul imm, imm15OfScaledOffset_branchOffset imm, branchOffset_bounds imm⟩,
    fun n hfour hlo hhi => ?_, fun n => (imm15OfScaledOffset_eq_none_iff n).mpr⟩
  obtain ⟨k, rfl⟩ := Int.dvd_of_emod_eq_zero hfour
  have hklo : -16384 ≤ k := by omega
  have hkhi : k ≤ 16383 := by omega
  exact ⟨_, imm15OfScaledOffset_four_mul hklo hkhi, branchOffset_ofInt hklo hkhi⟩

end Sys2Proof.Machine
end

section
/-! PROOFS. The vectors of the hardware exceptions (60_exceptions.md R160). -/

namespace Sys2Proof.Machine

/-- The vector an exception enters and the table's row of its name are written down apart; they agree on each of the five
exceptions an instruction can raise. -/
theorem excVector_eq_hardwareVector (e : Exc) : excVector e = hardwareVector (excHardwareVector e) := by
  cases e with
  | illegalInstruction => rfl
  | divisionByZero => rfl
  | privilegeViolation => rfl
  | pageFault => rfl
  | accessViolation => rfl

/-- Settles O21: the table's eight rows are the definition's own, and each exception enters the row of its name. -/
theorem exceptionVectorsAreTheTable : Obligations.ExceptionVectorsAreTheTable :=
  ⟨rfl, rfl, rfl, rfl, rfl, rfl, rfl, rfl, excVector_eq_hardwareVector⟩

end Sys2Proof.Machine
end
section
/-! PROOFS. The decoder and the encoder are inverse to each other (30_encoding.md R80 to R87, R94). -/

namespace Sys2Proof.Machine

open BitVec (extractLsb'_append_eq_of_le extractLsb'_append_eq_right extractLsb'_append_extractLsb'_eq_extractLsb'
  extractLsb'_eq_self)

/-! ## The fields of an encoded word

The group code and the opcode are `group_encode` and `opcode_encode`. Any other field is reached by going past the parts
below it. -/

/-- ENCODING V (30_encoding.md R86). -/
theorem fields_encode_sys (op : Opcode) (r1 : RegIx) (v : Byte) :
    let w := encode (.sys op r1 v)
    wordR1 w = r1 ∧ wordZero12 w = 0#12 ∧ wordVector w = v := by
  simp (disch := decide) only [encode, wordR1, wordZero12, wordVector, BitVec.cast_eq, extractLsb'_append_eq_of_le,
    extractLsb'_append_eq_right, Nat.reduceSub, and_self]

/-- ENCODING I (30_encoding.md R82). -/
theorem fields_encode_uj (op : Opcode) (r1 : RegIx) (imm : BitVec 20) :
    let w := encode (.uj op r1 imm)
    wordR1 w = r1 ∧ wordImm20 w = imm := by
  simp (disch := decide) only [encode, wordR1, wordImm20, BitVec.cast_eq, extractLsb'_append_eq_of_le,
    extractLsb'_append_eq_right, Nat.reduceSub, and_self]

/-- ENCODING II (30_encoding.md R83), of whichever group. -/
theorem fields_encodingII (g : BitVec 3) (op : Opcode) (r1 r2 : RegIx) (imm : BitVec 15) :
    let w : Word := (g ++ op ++ r1 ++ r2 ++ imm).cast rfl
    wordR1 w = r1 ∧ wordR2 w = r2 ∧ wordImm15 w = imm := by
  simp (disch := decide) only [wordR1, wordR2, wordImm15, BitVec.cast_eq, extractLsb'_append_eq_of_le,
    extractLsb'_append_eq_right, Nat.reduceSub, and_self]

/-- ENCODING III and IV (30_encoding.md R84, R85). -/
theorem fields_encode_arithReg (op : Opcode) (r1 r2 r3 r4 : RegIx) :
    let w := encode (.arithReg op r1 r2 r3 r4)
    wordR1 w = r1 ∧ wordR2 w = r2 ∧ wordR3 w = r3 ∧ wordR4 w = r4 ∧ wordZero5 w = 0#5 := by
  simp (disch := decide) only [encode, wordR1, wordR2, wordR3, wordR4, wordZero5, BitVec.cast_eq,
    extractLsb'_append_eq_of_le, extractLsb'_append_eq_right, Nat.reduceSub, and_self]

/-! ## Decoding an encoded word -/

theorem decodeWord_encode (i : Instr) : decodeWord (encode i) = .ok i := by
  unfold decodeWord
  rw [group_encode, opcode_encode]
  cases i with
  | sys op r1 v =>
    obtain ⟨h1, hz, hv⟩ := fields_encode_sys op r1 v
    simp [Instr.group, Instr.opcode, h1, hz, hv]
  | uj op r1 imm =>
    obtain ⟨h1, hi⟩ := fields_encode_uj op r1 imm
    simp [Instr.group, Instr.opcode, h1, hi]
  | arithReg op r1 r2 r3 r4 =>
    obtain ⟨h1, h2, h3, h4, hz⟩ := fields_encode_arithReg op r1 r2 r3 r4
    simp [Instr.group, Instr.opcode, h1, h2, h3, h4, hz]
  | bulk op r1 r2 imm | branch op r1 r2 imm | load op r1 r2 imm | arithImm op r1 r2 imm | store op r1 r2 imm =>
    simp only [Instr.group, Instr.opcode, BitVec.reduceEq, ↓reduceIte, Except.ok.injEq, Instr.bulk.injEq, Instr.branch.injEq,
      Instr.load.injEq, Instr.arithImm.injEq, Instr.store.injEq, true_and]
    exact fields_encodingII _ op r1 r2 imm

/-- Settles O1: the bytes of a word put together are the word, and every field of an encoded word is the instruction's. -/
theorem decodeEncodeRoundTrip : Obligations.DecodeEncodeRoundTrip := by
  intro i rest
  simp [encodeBytes, bytesOfWord, decodeBytes, wordOfBytes_bytesOfWord, decodeWord_encode]

/-! ## Encoding a decoded word

The fields of each figure, put together, are the whole word. -/

theorem encodingV_fields {w : Word} (hz : wordZero12 w = 0) :
    ((wordGroup w ++ wordOpcode w ++ wordR1 w ++ 0#12 ++ wordVector w).cast rfl : Word) = w := by
  rw [← show wordZero12 w = 0#12 from hz]
  simp only [wordGroup, wordOpcode, wordR1, wordZero12, wordVector, extractLsb'_append_extractLsb'_eq_extractLsb']
  exact extractLsb'_eq_self

theorem encodingI_fields (w : Word) :
    ((wordGroup w ++ wordOpcode w ++ wordR1 w ++ wordImm20 w).cast rfl : Word) = w := by
  simp only [wordGroup, wordOpcode, wordR1, wordImm20, extractLsb'_append_extractLsb'_eq_extractLsb']
  exact extractLsb'_eq_self

theorem encodingII_fields (w : Word) :
    ((wordGroup w ++ wordOpcode w ++ wordR1 w ++ wordR2 w ++ wordImm15 w).cast rfl : Word) = w := by
  simp only [wordGroup, wordOpcode, wordR1, wordR2, wordImm15, extractLsb'_append_extractLsb'_eq_extractLsb']
  exact extractLsb'_eq_self

theorem encodingIV_fields {w : Word} (hz : wordZero5 w = 0) :
    ((wordGroup w ++ wordOpcode w ++ wordR1 w ++ wordR2 w ++ wordR3 w ++ wordR4 w ++ 0#5).cast rfl : Word) = w := by
  rw [← show wordZero5 w = 0#5 from hz]
  simp only [wordGroup, wordOpcode, wordR1, wordR2, wordR3, wordR4, wordZero5,
    extractLsb'_append_extractLsb'_eq_extractLsb']
  exact extractLsb'_eq_self

/-- Settles O2: a case per group code, in each of which the fields of the figure are the whole word. -/
theorem encodeDecodeRoundTrip : Obligations.EncodeDecodeRoundTrip := by
  intro w i h
  have lastGroup : ∀ g : BitVec 3, g ≠ 0 → g ≠ 1 → g ≠ 2 → g ≠ 3 → g ≠ 4 → g ≠ 5 → g ≠ 6 → g = 7 := by bv_omega
  unfold decodeWord at h
  split_ifs at h with h0 hz h1 h2 h3 h4 h5 h6 hz <;> cases h
  · exact (h0 ▸ encodingV_fields hz :)
  · exact (h1 ▸ encodingII_fields w :)
  · exact (h2 ▸ encodingI_fields w :)
  · exact (h3 ▸ encodingII_fields w :)
  · exact (h4 ▸ encodingII_fields w :)
  · exact (h5 ▸ encodingII_fields w :)
  · exact (h6 ▸ encodingIV_fields hz :)
  · exact (lastGroup _ h0 h1 h2 h3 h4 h5 h6 ▸ encodingII_fields w :)

/-! ## What the decoder refuses, and words of the figures -/

/-- Settles O3: of the eight groups two have zero bits that the word alone shows, and only those can fail. -/
theorem decodeRefusesExactlyTheZeroBits : Obligations.DecodeRefusesExactlyTheZeroBits := by
  intro w
  show decodeWord w = _ ↔ (wordGroup w = 0 ∧ wordZero12 w ≠ 0) ∨ (wordGroup w = 6 ∧ wordZero5 w ≠ 0)
  unfold decodeWord
  split_ifs with h0 hz h1 h2 h3 h4 h5 h6 hz <;> simp_all

/-- Settles O4, by running the decoder on the nine words. -/
theorem wordsOfTheFieldTableDecode : Obligations.WordsOfTheFieldTableDecode :=
  ⟨rfl, rfl, rfl, rfl, rfl, rfl, rfl, rfl, rfl⟩

end Sys2Proof.Machine
end

section
/-! PROOFS. The offsets of J (30_encoding.md R92) and of byte quantities (R90). -/

namespace Sys2Proof.Machine

/-! ## J's scaled imm20 -/

theorem jumpOffset_eq_four_mul (imm : BitVec 20) : jumpOffset imm = 4 * imm.toInt :=
  toInt_signExtend_shiftLeft_two (by decide) imm

theorem imm20OfScaledOffset_eq_none_iff (n : Int) :
    imm20OfScaledOffset n = none ↔ n % 4 ≠ 0 ∨ n < -2097152 ∨ 2097148 < n := by
  simp only [imm20OfScaledOffset, ite_eq_right_iff, reduceCtorEq, imp_false]
  omega

/-- The field of an offset is the one whose value is a quarter of it. -/
theorem imm20OfScaledOffset_four_mul {k : Int} (hlo : -524288 ≤ k) (hhi : k ≤ 524287) :
    imm20OfScaledOffset (4 * k) = some (BitVec.ofInt 20 k) := by
  have hquarter : 4 * k / 4 = k := by omega
  rw [imm20OfScaledOffset, if_pos (by omega), hquarter]

/-- Settles O6: 20 bits hold just the quarters of the multiples of 4 in the range. -/
theorem jumpOffsetsAreTheMultiplesOfFour : Obligations.JumpOffsetsAreTheMultiplesOfFour := by
  refine ⟨fun imm => ?_, fun n hfour hlo hhi => ?_, fun n => (imm20OfScaledOffset_eq_none_iff n).mpr⟩
  · have hlo : -524288 ≤ imm.toInt := imm.le_toInt
    have hhi : imm.toInt ≤ 524287 := BitVec.toInt_le
    rw [jumpOffset_eq_four_mul, imm20OfScaledOffset_four_mul hlo hhi, BitVec.ofInt_toInt]
    exact ⟨rfl, rfl, by omega, by omega⟩
  · obtain ⟨k, rfl⟩ := Int.dvd_of_emod_eq_zero hfour
    have hklo : -524288 ≤ k := by omega
    have hkhi : k < 524288 := by omega
    refine ⟨_, imm20OfScaledOffset_four_mul hklo (by omega), ?_⟩
    rw [jumpOffset_eq_four_mul, BitVec.toInt_ofInt_eq_self (by decide) hklo hkhi]

/-! ## A byte quantity's imm15 -/

theorem byteImm_toInt (imm : BitVec 15) : (byteImm imm).toInt = imm.toInt :=
  BitVec.toInt_signExtend_of_le (by decide)

/-- Settles O7: sign extension keeps the signed value, and 15 bits hold the numbers of the range. -/
theorem byteImmediatesAreSignExtended : Obligations.ByteImmediatesAreSignExtended := by
  refine ⟨fun imm => ?_, fun n hlo hhi => ⟨BitVec.ofInt 15 n, if_pos ⟨hlo, hhi⟩, ?_⟩⟩
  · rw [byteImm_toInt]
    exact ⟨rfl, rfl, imm.le_toInt, BitVec.toInt_le⟩
  · rw [byteImm_toInt, BitVec.toInt_ofInt_eq_self (by decide) hlo (by omega)]

end Sys2Proof.Machine
end

section
/-! PROOFS. Registers (10_state.md R10 to R13) and the fields of the psr (R16). -/

namespace Sys2Proof.Machine

/-! ## Registers -/

/-- Settles O8, by evaluation. -/
theorem registerZeroIsConstant : Obligations.RegisterZeroIsConstant := fun s v => ⟨rfl, writeReg_zero s v⟩

theorem readReg_of_slot {s : State} {i : RegIx} {k : Fin 30} (h : regSlot i = some k) : s.readReg i = s.regs[k] := by
  simp only [State.readReg, h]

theorem writeReg_of_slot {s : State} {i : RegIx} {k : Fin 30} (v : Word) (h : regSlot i = some k) :
    s.writeReg i v = { s with regs := s.regs.set k v } := by
  simp only [State.writeReg, h]

theorem readReg_writeReg_self (s : State) {i : RegIx} (v : Word) (hi : i ≠ 0) : (s.writeReg i v).readReg i = v := by
  cases hk : regSlot i with
  | some k => simp [writeReg_of_slot v hk, readReg_of_slot hk]
  | none =>
    obtain rfl := (regSlot_eq_none hk).resolve_left hi
    rw [readReg_sp, writeReg_psr, writeReg_sp_ssp, writeReg_sp_usp]
    split <;> rfl

theorem readReg_writeReg_of_ne (s : State) {i j : RegIx} (v : Word) (hij : j ≠ i) :
    (s.writeReg i v).readReg j = s.readReg j := by
  cases hi : regSlot i with
  | some k =>
    rw [writeReg_of_slot v hi]
    cases hj : regSlot j with
    | some l =>
      have hkl : k ≠ l := fun h => hij (regSlot_inj hj (h ▸ hi))
      rw [readReg_of_slot hj, readReg_of_slot hj]
      exact Vector.getElem_set_ne k.isLt l.isLt (Fin.val_ne_of_ne hkl)
    | none => simp only [State.readReg, hj]
  | none =>
    rcases regSlot_eq_none hi with rfl | rfl
    · rw [writeReg_zero]
    · cases hj : regSlot j with
      | some l =>
        rw [readReg_of_slot hj, readReg_of_slot hj, writeReg_sp]
        split <;> rfl
      | none =>
        obtain rfl := (regSlot_eq_none hj).resolve_right hij
        rfl

/-- Settles O10: the register written, which reads back unless it is x0, and every other one. -/
theorem registerWriteThenRead : Obligations.RegisterWriteThenRead := by
  intro s i j v
  split
  · next h => rw [h.1, readReg_writeReg_self s v h.2]
  · next h =>
    by_cases hij : j = i
    · have hi : i = 0 := by tauto
      rw [hi, writeReg_zero]
    · exact readReg_writeReg_of_ne s v hij

/-! ## The psr's fields -/

open BitVec (extractLsb'_append_eq_of_le extractLsb'_append_eq_right extractLsb'_append_extractLsb'_eq_extractLsb'
  extractLsb'_eq_self)

/-- A bit as a field of one bit, the form in which the fields of a word are put together. -/
theorem ofBool_getLsbD (w : Word) (i : Nat) : BitVec.ofBool (w.getLsbD i) = w.extractLsb' i 1 := by
  ext k hk
  obtain rfl : k = 0 := by omega
  simp

theorem getLsbD_of_field {w : Word} {i : Nat} {b : Bool} (h : w.extractLsb' i 1 = BitVec.ofBool b) : w.getLsbD i = b :=
  BitVec.ofBool_eq_iff_eq.1 ((ofBool_getLsbD w i).trans h)

theorem psrOf_fields (w : Word) :
    psrOf (psrS w) (psrIrq w) (psrMmu w) (psrP w) (psrIvt w) (psrPdt w) (psrRes w) = w := by
  simp only [psrOf, psrS, psrIrq, psrMmu, psrP, psrIvt, psrPdt, psrRes, ofBool_getLsbD,
    extractLsb'_append_extractLsb'_eq_extractLsb']
  exact extractLsb'_eq_self

/-- Each field of a psr built of fields is reached by going past the fields below it. -/
theorem fields_psrOf (s irq mmu : Bool) (p : BitVec 3) (ivt : BitVec 6) (pdt : BitVec 8) (res : BitVec 12) :
    let w := psrOf s irq mmu p ivt pdt res
    psrS w = s ∧ psrIrq w = irq ∧ psrMmu w = mmu ∧ psrP w = p ∧ psrIvt w = ivt ∧ psrPdt w = pdt ∧ psrRes w = res := by
  refine ⟨getLsbD_of_field ?_, getLsbD_of_field ?_, getLsbD_of_field ?_, ?_, ?_, ?_, ?_⟩ <;>
    simp (disch := decide) only [psrOf, psrP, psrIvt, psrPdt, psrRes, BitVec.cast_eq, extractLsb'_append_eq_of_le,
      extractLsb'_append_eq_right, extractLsb'_eq_self, Nat.reduceSub]

/-- Settles O11: a field is a quotient and a remainder of the word, and the fields in the figure's order are the word. -/
theorem psrFieldsTileTheWord : Obligations.PsrFieldsTileTheWord := by
  have field (w : Word) (i n : Nat) : (w.extractLsb' i n).toNat = w.toNat / 2 ^ i % 2 ^ n := by
    rw [BitVec.extractLsb'_toNat, Nat.shiftRight_eq_div_pow]
  refine ⟨fun w => ⟨rfl, rfl, rfl, field w 26 3, field w 20 6, field w 12 8, ?_⟩, psrOf_fields, fields_psrOf⟩
  exact (field w 0 12).trans (by simp)
end Sys2Proof.Machine
end

section
/-! PROOFS. Memory: the bytes of a stored value, untranslated accesses, the refused ones (20_memory.md R44 to R57). -/

namespace Sys2Proof.Machine

/-! ## The bytes of a stored value -/

/-- Byte k from the top of an n-byte value is the one above its n - 1 - k lowest bytes. -/
theorem bigBytes_getD (w : Width) (v : Word) {k : Nat} (hk : k < widthBytes w) :
    (bigBytes w v).getD k 0 = v.extractLsb' (8 * (widthBytes w - 1 - k)) 8 := by
  cases w <;> simp only [widthBytes] at hk <;> interval_cases k <;> rfl

/-- Settles O13: the stored bytes are in address order, most significant first. -/
theorem bigEndianByteOrder : Obligations.BigEndianByteOrder := by
  intro m w a k v hm ha hk
  have hlen : (toBytes .big w v).length = widthBytes w := toBytes_length ..
  rw [Memory.writeVal, Memory.read_writeList hm a _ (by omega), if_pos (by omega), Nat.add_sub_cancel_left]
  exact bigBytes_getD w v hk

theorem widthBytes_le (w : Width) : widthBytes w ≤ 4 := by cases w <;> decide

/-- The number of the low 8n bits. -/
theorem lowBits_toNat (w : Width) (v : Word) : (lowBits w v).toNat = v.toNat % 2 ^ (8 * widthBytes w) := by
  have hv := v.isLt
  cases w with
  | byte => simp [lowBits, widthBytes]; omega
  | half => simp [lowBits, widthBytes]; omega
  | word => exact (Nat.mod_eq_of_lt hv).symm

theorem lowBits_eq_and (w : Width) (v : Word) : lowBits w v = v &&& BitVec.ofNat 32 (2 ^ (8 * widthBytes w) - 1) := by
  apply BitVec.eq_of_toNat_eq
  have hmask : 2 ^ (8 * widthBytes w) - 1 < 2 ^ 32 := by cases w <;> decide
  rw [lowBits_toNat, BitVec.toNat_and, BitVec.toNat_ofNat, Nat.mod_eq_of_lt hmask, Nat.and_two_pow_sub_one_eq_mod]

/-- Settles O14: the run of stored bytes read back, the bytes outside it, the canonical form. -/
theorem storedValueReadsBack : Obligations.StoredValueReadsBack := fun _ e w a v hm ha =>
  ⟨(Memory.readVal_writeVal hm e w a v ha).trans (lowBits_eq_and w v),
    fun _ hb => Memory.read_writeVal_of_outside _ e w a v hb, Memory.wf_writeVal hm e w a v ha⟩

/-! ## Untranslated and refused accesses -/

/-- Settles O15, at the start of an instruction. -/
theorem untranslatedAccesses : Obligations.UntranslatedAccesses := fun s _ _ v h =>
  ⟨memRead_plain (k := Work.start s) h, memWrite_plain (k := Work.start s) v h⟩

theorem inMainAligned_wide {α : Type} {w : Width} {a : Word} (f : Pc → Access α) (h : mainSize ≤ a.toNat) :
    inMainAligned w a f = .refused .addressTooWide := inMain_wide _ h

theorem dataCheck_wide (p : Platform) (w : Width) {a : Word} (h : dataSize ≤ a.toNat) :
    dataCheck p w a = some .addressTooWide := if_pos fun h' => absurd (top16_eq_zero.1 h') (by omega)

theorem dataCheck_misaligned (p : Platform) {w : Width} {a : Word} (h : a.toNat < dataSize)
    (ha : a.toNat % widthBytes w ≠ 0) : dataCheck p w a = some .misaligned :=
  (if_neg (not_not.2 (top16_eq_zero.2 h))).trans (if_pos ha)

theorem dataRead_refused {k : Work} {w : Width} {a : Word} {r : Refusal} (h : dataCheck k.cur.platform w a = some r) :
    dataRead w a k = .refused r := by
  simp only [dataRead, h]

theorem dataWrite_refused {k : Work} {w : Width} {a : Word} (v : Word) {r : Refusal}
    (h : dataCheck k.cur.platform w a = some r) : dataWrite w a v k = .refused r := by
  simp only [dataWrite, h]

/-- Settles O16: the width of the address is looked at first, then its alignment, both before any translation. -/
theorem addressesThatAreRefused : Obligations.AddressesThatAreRefused := fun _ _ _ v =>
  ⟨fun h => ⟨inMainAligned_wide _ h, inMainAligned_wide _ h⟩,
    fun h => ⟨dataRead_refused (dataCheck_wide _ _ h), dataWrite_refused v (dataCheck_wide _ _ h)⟩,
    fun ha h => ⟨inMainAligned_misaligned _ h ha, inMainAligned_misaligned _ h ha⟩,
    fun ha h => ⟨dataRead_refused (dataCheck_misaligned _ h ha), dataWrite_refused v (dataCheck_misaligned _ h ha)⟩,
    fun _ h => if_pos h, fun h => if_pos h⟩

end Sys2Proof.Machine
end

section
/-! PROOFS. The MMU's walk (20_memory.md R60 to R68). -/

namespace Sys2Proof.Machine

/-! ## What a walk is made of -/

/-- A sequence that answers: so did its first part, and the second answered from there. -/
theorem Access.andThen_ok {α β : Type} {x : Access α} {f : α → Work → Access β} {v : β} {k : Work}
    (h : x.andThen f = .ok v k) : ∃ a k1, x = .ok a k1 ∧ f a k1 = .ok v k := by
  cases x with
  | ok a k1 => exact ⟨a, k1, rfl, h⟩
  | raised e k1 => cases h
  | refused r => cases h

/-- One that raises: its first part has, or the second has from where that answered. -/
theorem Access.andThen_raised {α β : Type} {x : Access α} {f : α → Work → Access β} {e : Exc} {k : Work}
    (h : x.andThen f = .raised e k) : x = .raised e k ∨ ∃ a k1, x = .ok a k1 ∧ f a k1 = .raised e k := by
  cases x with
  | ok a k1 => exact .inr ⟨a, k1, rfl, h⟩
  | raised e k1 => cases h; exact .inl rfl
  | refused r => cases h

/-- A read of data memory answers the bytes read one by one. -/
theorem dataRead_ok {w : Width} {a v : Word} {k k' : Work} (h : dataRead w a k = .ok v k') :
    dataCheck k.cur.platform w a = none ∧ v = ofBytes k.cur.platform.endian (dataReadList a.toNat (widthBytes w) k).1
      ∧ k' = (dataReadList a.toNat (widthBytes w) k).2 := by
  unfold dataRead at h
  split at h
  · cases h
  · next hc => cases h; exact ⟨hc, rfl, rfl⟩

theorem readPde_ok {va : Pc} {k k' : Work} {pde : Word} (h : readPde va k = .ok pde k') :
    pdeAddr k.cur va ≤ 0xFFFF ∧ k' = (dataReadList (pdeAddr k.cur va) 2 k).2 := by
  unfold readPde at h
  split at h
  · cases h
  · next hle =>
    have hle : pdeAddr k.cur va ≤ 0xFFFF := Nat.not_lt.mp hle
    obtain ⟨v, k1, hx, h⟩ := Access.andThen_ok h
    split at h
    · cases h
    · cases h
      obtain ⟨-, -, hk⟩ := dataRead_ok hx
      rw [BitVec.toNat_ofNat, Nat.mod_eq_of_lt (by omega)] at hk
      exact ⟨hle, hk⟩

/-- A translation that answers: both entries were read, the page passed the check, and the answer is the page's address plus
the offset, with the dirty bit set if need be. -/
theorem mmuTranslate_ok {kind : AccessKind} {va : Pc} {pa : Nat} {k k' : Work} (h : mmuTranslate kind va k = .ok pa k') :
    ∃ pde pte k1, readPde va k = .ok pde k1 ∧ readPte va pde k1 = .ok pte k1 ∧ pteCheck k1.cur.supervisor kind pte = none
      ∧ pa = entryAddr pte + vaOffset va ∧ k' = setDirtyIfNeeded kind (pteAddr k1.cur va pde) pte k1 := by
  obtain ⟨pde, k1, h1, h⟩ := Access.andThen_ok h
  obtain ⟨pte, k2, h2, hlast⟩ := Access.andThen_ok h
  obtain ⟨rfl, -⟩ := (readPte_sat va pde k1).ok h2
  split at hlast
  · cases hlast
  · next hc => cases hlast; exact ⟨pde, pte, k2, h1, h2, hc, rfl, rfl⟩

/-- A translation that raises has read both entries, and the page has failed the check. -/
theorem mmuTranslate_raised {kind : AccessKind} {va : Pc} {e : Exc} {k k' : Work} (h : mmuTranslate kind va k = .raised e k') :
    ∃ pde pte, readPde va k = .ok pde k' ∧ readPte va pde k' = .ok pte k' ∧ pteCheck k'.cur.supervisor kind pte = some e := by
  rcases Access.andThen_raised h with h | ⟨pde, k1, h1, h⟩
  · exact ((readPde_sat va k).raised h).elim
  rcases Access.andThen_raised h with h | ⟨pte, k2, h2, hlast⟩
  · exact ((readPte_sat va pde k1).raised h).elim
  obtain ⟨rfl, -⟩ := (readPte_sat va pde k1).ok h2
  split at hlast
  · next hc => cases hlast; exact ⟨pde, pte, h1, h2, hc⟩
  · cases hlast

/-! ## A walk that nothing refuses -/

theorem walkPlain_iff {s : State} {va : Pc} : walkPlain s va = true ↔
    pdeAddr s va ≤ 0xFFFF ∧ allInstalled s.platform.dataInstalled (pdeAddr s va) 2 = true
      ∧ noDevice s.platform (pdeAddr s va) 2 = true ∧ (walkPde s va).extractLsb' 0 4 = 0#4
      ∧ pteAddr s va (walkPde s va) ≤ 0xFFFFFF
      ∧ allInstalled s.platform.mainInstalled (pteAddr s va (walkPde s va)) 2 = true := by
  simp only [walkPlain, Bool.and_eq_true, decide_eq_true_eq, and_assoc]

theorem pdeAddr_even (s : State) (va : Pc) : pdeAddr s va % 2 = 0 := by
  unfold pdeAddr pdtBase
  omega

theorem pteAddr_even (s : State) (va : Pc) (pde : Word) : pteAddr s va pde % 2 = 0 := by
  unfold pteAddr entryAddr
  omega

theorem readPde_plain {s : State} {va : Pc} (h : walkPlain s va = true) :
    readPde va (Work.start s) = .ok (walkPde s va) (Work.start s) := by
  obtain ⟨hle, hi, hd, hz, -, -⟩ := walkPlain_iff.1 h
  have hnat : (BitVec.ofNat 32 (pdeAddr s va)).toNat = pdeAddr s va := by
    rw [BitVec.toNat_ofNat, Nat.mod_eq_of_lt (by omega)]
  have hplain : dataPlain s .half (BitVec.ofNat 32 (pdeAddr s va)) = true := by
    simp only [dataPlain, hnat, Bool.and_eq_true, decide_eq_true_eq]
    exact ⟨⟨by unfold dataSize; omega, pdeAddr_even s va⟩, hi⟩
  have hr := dataRead_storage (k := Work.start s) hplain (by rw [hnat]; exact hd)
  rw [hnat] at hr
  unfold readPde
  rw [if_neg (by simpa [Work.start] using hle)]
  show Access.andThen (dataRead .half (BitVec.ofNat 32 (pdeAddr s va)) _) _ = _
  rw [hr]
  exact if_neg (not_not.2 hz)

theorem readPte_plain {s : State} {va : Pc} (h : walkPlain s va = true) :
    readPte va (walkPde s va) (Work.start s) = .ok (walkPte s va) (Work.start s) := by
  obtain ⟨-, -, -, -, hle, hi⟩ := walkPlain_iff.1 h
  have hc : physCheck s.platform .half (pteAddr s va (walkPde s va)) = none :=
    (if_neg (not_not.2 (pteAddr_even ..))).trans (if_pos hi)
  unfold readPte physRead
  rw [if_neg (by simpa [Work.start] using hle)]
  simp only [Work.start, hc]
  rfl

/-- The check decides what a walk that nothing refuses answers. -/
theorem mmuTranslate_plain {s : State} {va : Pc} (h : walkPlain s va = true) (kind : AccessKind) :
    (∀ e, pteCheck s.supervisor kind (walkPte s va) = some e → mmuTranslate kind va (Work.start s) = .raised e (Work.start s)) ∧
    (pteCheck s.supervisor kind (walkPte s va) = none → mmuTranslate kind va (Work.start s)
      = .ok (entryAddr (walkPte s va) + vaOffset va)
          (setDirtyIfNeeded kind (pteAddr s va (walkPde s va)) (walkPte s va) (Work.start s))) := by
  unfold mmuTranslate
  rw [readPde_plain h]
  dsimp only [Access.andThen]
  rw [readPte_plain h]
  exact ⟨fun e hc => by simp only [Work.start, hc], fun hc => by simp only [Work.start, hc]⟩

/-- Settles O18: the page fails its check before the walk has changed anything. -/
theorem walkRaisesWithNothingChanged : Obligations.WalkRaisesWithNothingChanged := fun _ kind _ e h hc =>
  (mmuTranslate_plain h kind).1 e hc

/-- The directory index is what is left above the offset and the table index (20_memory.md R61). -/
theorem vaDirIndex_eq (p : Platform) (va : Pc) : vaDirIndex p va = va.toNat / 4096 / 2 ^ p.ptIndexBits.val := by
  rw [vaDirIndex, pow_add, ← Nat.div_div_eq_div_mul]
  rfl

/-- Settles O17: the walk that nothing refuses, its addresses read off the definitions. -/
theorem walkGivesThePhysicalAddress : Obligations.WalkGivesThePhysicalAddress := by
  intro s kind va h hc off pti pdi pteAt dirty t
  refine ⟨?_, rfl, ((mmuTranslate_plain h kind).2 hc).trans ?_⟩
  · rw [pdeAddr, pdtBase, vaDirIndex_eq]
  · have ht : setDirtyIfNeeded kind (pteAddr s va (walkPde s va)) (walkPte s va) (Work.start s) = { cur := t, base := t } := by
      have hdirty : dirty = true ↔ kind = .write ∧ s.platform.mmuSetsDirty = true ∧ pteDirty (walkPte s va) = false := by
        simp [dirty, pteDirty, and_assoc]
      unfold setDirtyIfNeeded
      split
      · next hn => simp only [t, if_pos (hdirty.2 hn)]; rfl
      · next hn => simp only [t, if_neg (mt hdirty.1 hn)]; rfl
    rw [ht]
    rfl

/-! ## The check -/

theorem pteCheck_absent {pte : Word} (h : ptePresent pte = false) (sup : Bool) (kind : AccessKind) :
    pteCheck sup kind pte = some .pageFault := if_pos h

theorem pteCheck_supervisor {pte : Word} (h : ptePresent pte = true) (kind : AccessKind) : pteCheck true kind pte = none := by
  simp [pteCheck, h]

theorem pteCheck_user {pte : Word} (h : ptePresent pte = true) (kind : AccessKind) : pteCheck false kind pte =
    match kind with
    | .read => none
    | .write => if pteWritable pte then none else some .accessViolation
    | .fetch => if pteExec pte then none else some .accessViolation := by
  cases kind <;> simp [pteCheck, h]

/-- Settles O19: an absent page faults whatever the rest, a present one is checked by mode and kind. -/
theorem pageChecks : Obligations.PageChecks := by
  intro sup kind pte
  refine ⟨fun h => pteCheck_absent h sup kind, fun h hs => hs ▸ pteCheck_supervisor h kind, fun h hk => ?_,
    fun h hs hk => ?_, fun h hs hk => ?_⟩
  · subst hk
    cases sup with
    | true => exact pteCheck_supervisor h .read
    | false => exact pteCheck_user h .read
  · rw [hs, hk]
    exact pteCheck_user h .write
  · rw [hs, hk]
    exact pteCheck_user h .fetch

/-! ## Every translation, whatever the tables hold -/

/-- Device reads are made of both states alike, so states that are one stay one. -/
theorem dataReadList_base {a n : Nat} {k : Work} (h : k.base = k.cur) :
    (dataReadList a n k).2.base = (dataReadList a n k).2.cur := by
  induction n generalizing a k with
  | zero => exact h
  | succ n ih =>
    refine ih (k := (dataReadByte a k).2) ?_
    unfold dataReadByte
    split
    · dsimp only; rw [h]
    · exact h

theorem setDirtyIfNeeded_base {kind : AccessKind} {a : Nat} {pte : Word} {k : Work} (h : k.base = k.cur) :
    (setDirtyIfNeeded kind a pte k).base = (setDirtyIfNeeded kind a pte k).cur := by
  unfold setDirtyIfNeeded
  split
  · dsimp only; rw [h]
  · exact h

/-- Whether a dirty bit is set or not, that of the entry is all of it. -/
theorem setDirtyIfNeeded_cur (kind : AccessKind) (a : Nat) (pte : Word) (k : Work) :
    (setDirtyIfNeeded kind a pte k).cur = k.cur ∨
    (kind = .write ∧ k.cur.platform.mmuSetsDirty = true ∧ (setDirtyIfNeeded kind a pte k).cur = k.cur.setDirty a) := by
  unfold setDirtyIfNeeded
  split
  · next h => exact .inr ⟨h.1, h.2.1, rfl⟩
  · exact .inl rfl

theorem setDirty_main_congr {s t : State} (hm : t.main = s.main) (hp : t.platform = s.platform) (a : Nat) :
    (t.setDirty a).main = (s.setDirty a).main := by
  simp only [State.setDirty, hm, hp]

/-- A directory entry that is storage is read without a trace. -/
theorem readPde_storage {va : Pc} {k k' : Work} {pde : Word} (h : readPde va k = .ok pde k')
    (hd : noDevice k.cur.platform (pdeAddr k.cur va) 2 = true) : k' = k := by
  rw [(readPde_ok h).2, dataReadList_storage hd]

/-- Settles O20: the directory entry's read leaves device reads, the page's check nothing, and a dirty bit is set last. -/
theorem translationChangesDirtyBitsAndDeviceReadsOnly : Obligations.TranslationChangesDirtyBitsAndDeviceReadsOnly := by
  intro s kind va
  refine ⟨fun pa w h => ?_, fun e w h => ?_⟩
  · obtain ⟨hq, hpa⟩ := (translate_sat kind va (Work.start s)).ok h
    have hnoted := (hq.notes (Work.start_level s)).noted
    obtain ⟨pde, pte, k, h1, h2, -, -, rfl⟩ := mmuTranslate_ok h
    have hread := (readPde_sat va (Work.start s)).ok h1
    have hin := ((readPte_sat va pde k).ok h2).2
    have hk : k.base = k.cur := by rw [(readPde_ok h1).2]; exact dataReadList_base rfl
    have hbase := setDirtyIfNeeded_base (kind := kind) (a := pteAddr k.cur va pde) (pte := pte) hk
    have hpte : pteAddr k.cur va pde = pteAddr s va pde := pteAddr_platform hread.cur.platform va pde
    rw [hbase] at hnoted
    refine ⟨hpa, hbase, hnoted, hnoted.eq, fun hd => ?_, ?_⟩
    · have hks := readPde_storage h1 hd
      rcases setDirtyIfNeeded_cur kind (pteAddr k.cur va pde) pte k with hc | ⟨-, -, hc⟩ <;> rw [hc, hks] <;> exact ⟨rfl, rfl⟩
    · rcases setDirtyIfNeeded_cur kind (pteAddr k.cur va pde) pte k with hc | ⟨hw, hm, hc⟩
      · exact .inl (by rw [hc]; exact hread.cur.main)
      · refine .inr ⟨hw, hread.cur.platform ▸ hm, pde, k, h1, hpte ▸ hin, ?_⟩
        rw [hc, hpte, setDirty_main_congr hread.cur.main hread.cur.platform]
        rfl
  · obtain ⟨pde, pte, h1, -, -⟩ := mmuTranslate_raised h
    have hread := (readPde_sat va (Work.start s)).ok h1
    refine ⟨by rw [(readPde_ok h1).2]; exact dataReadList_base rfl, hread.cur.eq, fun hd => ?_⟩
    rw [readPde_storage h1 hd]
    rfl

end Sys2Proof.Machine
end

section
/-! PROOFS. The meaning of each group, down to what its entry's body does (00_scope.md R5). -/

namespace Sys2Proof.Machine

theorem exec_sys (op : Opcode) (r1 : RegIx) (v : Byte) (s : State) :
    exec (.sys op r1 v) s
      = withEntry (findSys s.platform.opmap op r1 v) (fun _ => true) sysNeedsSupervisor s fun b => execSysBody b r1 v s := by
  rfl

theorem exec_bulk (op : Opcode) (r1 r2 : RegIx) (low : BitVec 15) (s : State) :
    exec (.bulk op r1 r2 low) s
      = withEntry (findBulk s.platform.opmap op) (bulkZeroOk low) (fun b => b.prog.needsSupervisor) s fun b =>
        execProg b.prog (bulkFields b.enc r1 r2 low) (bulkOperands b.enc low) s := by
  rfl

theorem exec_uj (op : Opcode) (r1 : RegIx) (imm : BitVec 20) (s : State) :
    exec (.uj op r1 imm) s
      = withEntry (findUJ s.platform.opmap op) (fun _ => true) ujNeedsSupervisor s fun b => execUJBody b r1 imm s := by
  rfl

theorem exec_branch (op : Opcode) (r1 r2 : RegIx) (imm : BitVec 15) (s : State) :
    exec (.branch op r1 r2 imm) s
      = withEntry (findBranch s.platform.opmap op) (fun _ => true) (fun _ => false) s fun cond =>
        execBranchOn cond (pairRoles s.platform.roles.b r1 r2).1 (pairRoles s.platform.roles.b r1 r2).2 imm s := by
  rfl

theorem exec_load (op : Opcode) (r1 r2 : RegIx) (imm : BitVec 15) (s : State) :
    exec (.load op r1 r2 imm) s
      = withEntry (findLoad s.platform.opmap op) (fun _ => true) loadNeedsSupervisor s fun b => execLoadBody b r1 r2 imm s := by
  rfl

theorem exec_arithImm (op : Opcode) (r1 r2 : RegIx) (imm : BitVec 15) (s : State) :
    exec (.arithImm op r1 r2 imm) s
      = withEntry (findArithImm s.platform.opmap op) (fun _ => true) (fun _ => false) s fun f =>
        execImmOp f (pairRoles s.platform.roles.i r1 r2).1 (pairRoles s.platform.roles.i r1 r2).2 imm s := by
  rfl

theorem exec_arithReg (op : Opcode) (r1 r2 r3 r4 : RegIx) (s : State) :
    exec (.arithReg op r1 r2 r3 r4) s
      = withEntry (findArithReg s.platform.opmap op) (regZeroOk r4) (fun _ => false) s fun b =>
        execRegBody b ⟨r1, r2, r3, r4⟩ s := by
  rfl

theorem exec_store (op : Opcode) (r1 r2 : RegIx) (imm : BitVec 15) (s : State) :
    exec (.store op r1 r2 imm) s
      = withEntry (findStore s.platform.opmap op) (fun _ => true) storeNeedsSupervisor s fun b =>
        execStoreTo b.space b.width (pairRoles s.platform.roles.s r1 r2).1 (pairRoles s.platform.roles.s r1 r2).2 imm s := by
  rfl

end Sys2Proof.Machine
end

section
/-! PROOFS. What every step keeps (10_state.md R23, R28), and the devices' turn (20_memory.md R50). -/

namespace Sys2Proof.Machine

/-! ## The next states of exceptions and instructions -/

theorem enterException_next {pc : ExcKind → Option Pc} {e : Exc} {s t : State} (h : enterException pc e s = .next t) :
    s.Halted t ∨ ∃ k q saved u, t = u.countFault k ∧ s.Entered q u ∧ trapEnter (excVector e) q saved s = .entered u := by
  rcases enterException_cases pc e s with ⟨r, hr⟩ | ⟨u, hu, hh⟩ | ⟨k, q, saved, u, hu, he, hx⟩
  · rw [hr] at h; cases h
  · rw [hu] at h; cases h; exact .inl hh
  · rw [hu] at h; cases h; exact .inr ⟨k, q, saved, u, rfl, he, hx⟩

/-- An instruction that goes on has reached its next state, or halted in it, or taken an exception to it. -/
theorem Answers.next {B G : State → Prop} {o : Result} {t : State} (h : Answers B G o) (ho : o = .next t) :
    G t ∨ (∃ r b, B b ∧ t = b.haltWith r) ∨ ∃ e b, B b ∧ takeException e b = .next t := by
  cases h with
  | goes u hu => cases ho; exact .inl hu
  | ends o he =>
    cases he with
    | refused r => cases ho
    | exception e b hb => exact .inr (.inr ⟨e, b, hb, ho⟩)
    | halts r b hb => cases ho; exact .inr (.inl ⟨r, b, hb, rfl⟩)

/-! ## What a step keeps once the devices have had their turn -/

/-- `t` comes of `s` by an acknowledgement or an instruction, exceptions and halts included. -/
structure State.Stepped (s t : State) : Prop where
  schedule : t.schedule = s.schedule
  platform : t.platform = s.platform
  res : psrRes s.psr = 0 → psrRes t.psr = 0
  mainWf : Memory.wf mainSize s.main = true → Memory.wf mainSize t.main = true
  dataWf : Memory.wf dataSize s.data = true → Memory.wf dataSize t.data = true
  pendingWf : pendingWf s.pending = true → pendingWf t.pending = true

theorem State.Stepped.trans {s t u : State} (a : s.Stepped t) (b : t.Stepped u) : s.Stepped u :=
  ⟨b.schedule.trans a.schedule, b.platform.trans a.platform, fun h => b.res (a.res h), fun h => b.mainWf (a.mainWf h),
    fun h => b.dataWf (a.dataWf h), fun h => b.pendingWf (a.pendingWf h)⟩

theorem State.Ran.stepped {s t : State} (h : s.Ran t) : s.Stepped t :=
  ⟨h.schedule, h.platform, h.res, h.mainWf, h.dataWf, fun hp => by rw [h.pending]; exact hp⟩

theorem State.Halted.stepped {s t : State} (h : s.Halted t) : s.Stepped t :=
  ⟨h.schedule, h.platform, fun hr => by rw [h.psr]; exact hr, h.mainWf, fun hd => by rw [h.data]; exact hd,
    fun hp => by rw [h.pending]; exact hp⟩

theorem haltWith_stepped (s : State) (r : HaltReason) : s.Stepped (s.haltWith r) := ⟨rfl, rfl, id, id, id, id⟩

theorem countFault_stepped (s : State) (k : ExcKind) : s.Stepped (s.countFault k) := by
  constructor <;> simp

theorem dropRequest_stepped (s : State) (r : Request) (n : Nat) :
    s.Stepped { s with pending := dropRequest r s.pending, freeCount := n } :=
  ⟨rfl, rfl, id, id, id, pendingWf_dropRequest r⟩

theorem enterException_stepped {pc : ExcKind → Option Pc} {e : Exc} {s t : State} (h : enterException pc e s = .next t) :
    s.Stepped t := by
  rcases enterException_next h with hh | ⟨k, q, saved, u, rfl, he, -⟩
  · exact hh.stepped
  · exact he.ran.stepped.trans (countFault_stepped u k)

theorem exec_stepped {i : Instr} {s t : State} (h : exec i s = .next t) : s.Stepped t := by
  rcases (exec_ran i s).next h with ht | ⟨r, b, hb, rfl⟩ | ⟨e, b, hb, hx⟩
  · exact ht.stepped
  · exact hb.stepped.trans (haltWith_stepped b r)
  · exact hb.stepped.trans (enterException_stepped hx)

theorem acknowledge_stepped {r : Request} {n : Nat} {s t : State} (h : acknowledge r { s with freeCount := n } = .next t) :
    s.Stepped t := by
  refine (dropRequest_stepped s r n).trans ?_
  rcases acknowledge_cases r { s with freeCount := n } with ⟨e, hr⟩ | ⟨u, hu, hh⟩ | ⟨u, hu, he, -⟩
  · rw [hr] at h; cases h
  · rw [hu] at h; cases h; exact hh.stepped
  · rw [hu] at h; cases h; exact he.ran.stepped

theorem fetchAndRun_stepped {s t : State} (h : fetchAndRun s = .next t) : s.Stepped t := by
  unfold fetchAndRun at h
  split at h
  · next w k hf =>
    have hk := ((fetch_sat (Work.start s)).ok hf).cur.ranPlain.toRan.stepped
    unfold runWord at h
    split at h
    · exact hk.trans (exec_stepped h)
    · cases h
  · next e k hf =>
    exact ((fetch_sat (Work.start s)).raised hf).base.toMainFrame.ranPlain.toRan.stepped.trans (enterException_stepped h)
  · cases h

theorem interruptOrRun_stepped {s t : State} (h : interruptOrRun s = .next t) : s.Stepped t := by
  unfold interruptOrRun at h
  split at h
  · exact acknowledge_stepped h
  · exact fetchAndRun_stepped h

/-- A step that goes on is the devices' turn, then an acknowledgement or an instruction. -/
theorem step_next {s t : State} (h : step s = .next t) : ∃ u, s.deviceTurn = .ok u ∧ interruptOrRun u = .next t := by
  unfold step at h
  split at h
  · cases h
  · split at h
    · cases h
    · next u hu => exact ⟨u, hu, h⟩

/-- Settles O35: the devices' turn and what comes after it each keep the four parts of the invariant. -/
theorem stepKeepsInvariant : Obligations.StepKeepsInvariant := by
  intro s t hs h
  obtain ⟨u, hu, ht⟩ := step_next h
  have hd := deviceTurn_frame hu
  have hk := interruptOrRun_stepped ht
  exact ⟨hk.mainWf (hd.mainWf hs.main), hk.dataWf (hd.dataWf hs.data), hk.res (by rw [hd.psr]; exact hs.psr),
    hk.pendingWf (hd.pendingWf hs.pending)⟩

/-! ## The devices' turn -/

/-- What the actions of one gap may have changed: storage inside the buffers, and requests that one of them sends. -/
structure State.DeviceMade (as : List DeviceAction) (s t : State) : Prop where
  main : ∀ b, inBuffers s.platform .main b = false → t.main.read b = s.main.read b
  data : ∀ b, inBuffers s.platform .data b = false → t.data.read b = s.data.read b
  pending : ∀ r ∈ t.pending, r ∈ s.pending ∨ (.request r.vector ∈ as ∧ r.prio = irqPriorityOf s.platform r.vector)

theorem State.DeviceMade.refl (as : List DeviceAction) (s : State) : s.DeviceMade as s :=
  ⟨fun _ _ => rfl, fun _ _ => rfl, fun _ => .inl⟩

theorem deviceAct_made {s t : State} {a : DeviceAction} (h : s.deviceAct a = .ok t) : s.DeviceMade [a] t := by
  cases a with
  | request v =>
    cases h
    refine ⟨fun _ _ => rfl, fun _ _ => rfl, fun r hr => ?_⟩
    rcases mem_addRequest.1 hr with rfl | hr
    · exact .inr ⟨List.mem_singleton.2 rfl, rfl⟩
    · exact .inl hr
  | withdraw r =>
    cases h
    exact ⟨fun _ _ => rfl, fun _ _ => rfl, fun r hr => .inl (mem_dropRequest.1 hr).1⟩
  | bufferWrite sp addr v =>
    unfold State.deviceAct at h
    dsimp only at h
    split at h
    · next hb =>
      have out : ∀ (m : Memory) b, inBuffers s.platform sp b = false → (m.write addr v).read b = m.read b := fun m b hn =>
        Memory.read_write_of_ne m v fun he => by rw [he, hb.1] at hn; cases hn
      cases sp <;> cases h
      · exact ⟨fun b hn => out _ b hn, fun _ _ => rfl, fun _ => .inl⟩
      · exact ⟨fun _ _ => rfl, fun b hn => out _ b hn, fun _ => .inl⟩
    · cases h

theorem deviceActs_made {s t : State} {as : List DeviceAction} (h : s.deviceActs as = .ok t) : s.DeviceMade as t := by
  induction as generalizing s with
  | nil => cases h; exact .refl _ _
  | cons a as ih =>
    unfold State.deviceActs at h
    split at h
    · next u hu =>
      have h1 := deviceAct_made hu
      have h2 := ih h
      have hp := (deviceAct_frame hu).platform
      refine ⟨fun b hn => (h2.main b (hp ▸ hn)).trans (h1.main b hn), fun b hn => (h2.data b (hp ▸ hn)).trans (h1.data b hn),
        fun r hr => ?_⟩
      rcases h2.pending r hr with hr | ⟨hm, hq⟩
      · rcases h1.pending r hr with hr | ⟨hm, hq⟩
        · exact .inl hr
        · exact .inr ⟨by rw [List.mem_singleton.1 hm]; exact List.mem_cons_self, hq⟩
      · exact .inr ⟨List.mem_cons_of_mem _ hm, hp ▸ hq⟩
    · cases h

/-- Only a write outside the buffers has no run. -/
theorem deviceAct_error {s : State} {a : DeviceAction} {r : Refusal} (h : s.deviceAct a = .error r) :
    r = .deviceOutsideBuffers := by
  cases a with
  | request v => cases h
  | withdraw q => cases h
  | bufferWrite sp b v =>
    unfold State.deviceAct at h
    dsimp only at h
    split at h
    · cases sp <;> cases h
    · cases h; rfl

theorem deviceAct_outside {s : State} {sp : Space} {b : Nat} (v : Byte)
    (h : inBuffers s.platform sp b = false ∨ spaceSize sp ≤ b) :
    s.deviceAct (.bufferWrite sp b v) = .error .deviceOutsideBuffers := by
  refine if_neg fun hin => ?_
  rcases h with h | h
  · rw [h] at hin; cases hin.1
  · omega

/-- Such a write in a gap leaves the gap no run: an action before it fails, or it does. -/
theorem deviceActs_outside {s : State} {as : List DeviceAction} {sp : Space} {b : Nat} {v : Byte}
    (hm : .bufferWrite sp b v ∈ as) (ho : inBuffers s.platform sp b = false ∨ spaceSize sp ≤ b) :
    s.deviceActs as = .error .deviceOutsideBuffers := by
  induction as generalizing s with
  | nil => cases hm
  | cons a as ih =>
    unfold State.deviceActs
    cases hx : s.deviceAct a with
    | error r => exact congrArg _ (deviceAct_error hx)
    | ok u =>
      rcases List.mem_cons.1 hm with rfl | hm
      · rw [deviceAct_outside v ho] at hx; cases hx
      · exact ih hm ((deviceAct_frame hx).platform ▸ ho)

theorem deviceTurn_made {s t : State} (h : s.deviceTurn = .ok t) : s.DeviceMade (s.schedule.headD []) t := by
  unfold State.deviceTurn at h
  split at h
  · cases h; exact .refl _ _
  · next as rest hs =>
    have hm := deviceActs_made h
    rw [hs]
    exact ⟨hm.main, hm.data, hm.pending⟩

theorem deviceTurn_outside {s : State} {sp : Space} {b : Nat} {v : Byte} (hm : .bufferWrite sp b v ∈ s.schedule.headD [])
    (ho : inBuffers s.platform sp b = false ∨ spaceSize sp ≤ b) : s.deviceTurn = .error .deviceOutsideBuffers := by
  unfold State.deviceTurn
  cases hs : s.schedule with
  | nil => rw [hs] at hm; cases hm
  | cons as rest =>
    rw [hs] at hm
    exact deviceActs_outside (s := { s with schedule := rest }) hm ho

/-- The fields devices may have changed. -/
theorem State.DeviceFrame.eq {s t : State} (h : s.DeviceFrame t) :
    t = { s with pending := t.pending, main := t.main, data := t.data } := by
  obtain ⟨h1, h2, h3, h4, h5, h6, h7, h8, h9, h10, h11, -, -, -⟩ := h
  cases t
  cases s
  simp_all

/-- Settles O36: the step from `step_next`, the turn from its frame and from what its actions made. -/
theorem stepKeepsThePlatformAndDevicesStayInTheirBuffers :
    Obligations.StepKeepsThePlatformAndDevicesStayInTheirBuffers := by
  intro s
  refine ⟨fun t h => ?_, fun t h => ⟨(deviceTurn_frame h).eq, ?_⟩, fun sp b v hm ho => ?_⟩
  · obtain ⟨u, hu, ht⟩ := step_next h
    have hd := deviceTurn_frame hu
    have hk := interruptOrRun_stepped ht
    exact ⟨hk.platform.trans hd.platform, hk.schedule.trans hd.schedule⟩
  · have hm := deviceTurn_made h
    exact ⟨hm.main, hm.data, hm.pending⟩
  · have ht := deviceTurn_outside hm ho
    exact ⟨ht, fun hr => by simp only [step, hr, ht]⟩

end Sys2Proof.Machine
end

section
/-! PROOFS. The two modes (10_state.md R24, 20_memory.md R51, 60_exceptions.md R185, R187): what no instruction does in user
mode, and what leaves supervisor mode. -/

namespace Sys2Proof.Machine

/-! ## User mode -/

/-- What the answers of an instruction in user mode come to: the next state's psr, supervisor's stack pointer and data memory
are those of a state reached by primitives that need no supervisor, trap entries among them. -/
theorem exec_user_next {i : Instr} {s t : State} (hs : s.supervisor = false) (h : exec i s = .next t) :
    ∃ u, s.Went u ∧ t.psr = u.psr ∧ t.ssp = u.ssp ∧ t.data = u.data := by
  rcases (exec_went i hs).next h with ht | ⟨r, b, hb, rfl⟩ | ⟨e, b, hb, hx⟩
  · exact ⟨t, ht, rfl, rfl, rfl⟩
  · exact ⟨b, hb, rfl, rfl, rfl⟩
  · rcases enterException_next hx with hh | ⟨k, q, saved, u, rfl, he, hu⟩
    · exact ⟨b, hb, hh.psr, hh.ssp, hh.data⟩
    · obtain ⟨w, hw, rfl⟩ := trapEnter_in hu
      exact ⟨w.cur, State.Went.entered (w := Work.start b) hb hw he, by simp, by simp, by simp⟩

/-- Settles O58: none of the primitives that user mode may use stores to data memory, nor does a trap entry. -/
theorem userModeCannotChangeDataMemory : Obligations.UserModeCannotChangeDataMemory := by
  intro i s t hs h
  obtain ⟨u, hu, -, -, hd⟩ := exec_user_next hs h
  exact hd.trans hu.data

/-- Where nothing comes after a trap entry: none has been made, or the next state is the entry's, its fault counted or
not. -/
theorem exec_user_last {i : Instr} {s t : State} (hs : s.supervisor = false) (hl : entersLast s.platform.opmap i = true)
    (h : exec i s = .next t) : (t.psr = s.psr ∧ t.ssp = s.ssp) ∨
    ∃ w w' v q saved k, s.RanPlain w.cur ∧ trapEnterIn v q saved w = .entered w' ∧ w.cur.Entered q w'.cur
      ∧ t = w'.cur.countFault k := by
  have plain : ∀ {u : State}, s.RanPlain u → u.psr = s.psr ∧ u.ssp = s.ssp := fun hu => ⟨hu.psr, hu.ssp hs⟩
  rcases (exec_last i hs hl).next h with (ht | ⟨w, w', v, q, saved, hw, hx, he, ht⟩) | ⟨r, b, hb, rfl⟩ | ⟨e, b, hb, hx⟩
  · exact .inl (plain ht)
  · exact .inr ⟨w, w', v, q, saved, .trap, hw, hx, he, ht⟩
  · have hp := plain hb
    exact .inl ⟨hp.1, hp.2⟩
  · rcases enterException_next hx with hh | ⟨k, q, saved, u, rfl, he, hu⟩
    · exact .inl ⟨hh.psr.trans (plain hb).1, hh.ssp.trans (plain hb).2⟩
    · obtain ⟨w, hw, rfl⟩ := trapEnter_in hu
      exact .inr ⟨Work.start b, w, _, q, saved, k, hb, hw, he, rfl⟩

/-- Settles O59: the first trap entry of the instruction, if it makes one, is from a state that plain primitives have
reached. -/
theorem userModeChangesThePsrByTrapEntryOnly : Obligations.UserModeChangesThePsrByTrapEntryOnly := by
  intro i s t hs h
  cases hl : entersLast s.platform.opmap i with
  | true =>
    rcases exec_user_last hs hl h with hp | ⟨w, w', v, q, saved, k, hw, hx, he, rfl⟩
    · exact .inl hp
    · have hpsr := he.psr
      rw [hw.psr] at hpsr
      exact .inr ⟨w, w', v, q, saved, hw.psr, hw.ssp hs, hw.data, hw.platform, hx, hpsr,
        by rw [countFault_psr, psrWithP_self], by simp [State.supervisor, hpsr], fun _ => ⟨k, rfl⟩⟩
  | false =>
    obtain ⟨u, hu, hp, hsp, -⟩ := exec_user_next hs h
    rcases hu with hu | ⟨w, w', v, q, saved, hw, hx, he, hlate⟩
    · exact .inl ⟨hp.trans hu.psr, hsp.trans (hu.ssp hs)⟩
    · have hpsr := he.psr
      rw [hw.psr] at hpsr
      refine .inr ⟨w, w', v, q, saved, hw.psr, hw.ssp hs, hw.data, hw.platform, hx, hpsr, by rw [hp]; exact hlate.psr, ?_,
        fun h => by cases h⟩
      rw [State.supervisor, hp, hlate.psr, hpsr]
      simp

/-! ## Supervisor mode -/

theorem State.RanPlain.supervisor {s t : State} (hs : s.supervisor = true) (h : s.RanPlain t) : t.supervisor = true := by
  rw [State.supervisor, h.psr]; exact hs

theorem State.Entered.supervisor {q : BitVec 3} {s t : State} (h : s.Entered q t) : t.supervisor = true := by
  simp [State.supervisor, h.psr]

theorem State.Went.supervisor {s t : State} (hs : s.supervisor = true) (h : s.Went t) : t.supervisor = true := by
  rcases h with h | ⟨w, w', v, q, saved, -, -, he, hl⟩
  · exact h.supervisor hs
  · have := he.supervisor
    rw [State.supervisor, hl.psr]
    simpa [State.supervisor] using this

/-- The answers of an instruction that stays in supervisor mode until it ends. -/
abbrev StaysSupervisor : Result → Prop := Answers (fun t => t.supervisor = true) (fun t => t.supervisor = true)

theorem AnswersPlain.stays {s : State} (hs : s.supervisor = true) {o : Result} (h : AnswersPlain s o) : StaysSupervisor o :=
  h.mono (fun _ => State.RanPlain.supervisor hs) fun _ => State.RanPlain.supervisor hs

theorem went_stays {s : State} (hs : s.supervisor = true) {o : Result} (h : Answers s.Went s.Went o) : StaysSupervisor o :=
  h.mono (fun _ => State.Went.supervisor hs) fun _ => State.Went.supervisor hs

/-- A program of registers and memory, a store to data memory included, leaves the psr. -/
theorem execProg_memory_stays {s : State} (hs : s.supervisor = true) {p : Prog} (hp : p.memoryOnly = true) (f : Fields)
    (env : List Word) : StaysSupervisor (execProg p f env s) := by
  have keep : ∀ t, s.RanBulk false t → t.supervisor = true := fun t h => by rw [State.supervisor, h.psr]; exact hs
  have h := runProg_memory s p hp f env
  unfold execProg
  cases hr : runProg p (Ctx.start s f env) with
  | stop o =>
    rw [hr] at h
    cases h with
    | refused r => exact .refused r
    | exception e b hb => exact .exception (keep b hb) e
  | go c =>
    rw [hr] at h
    exact endProg_answers (r := .go c) (fun _ _ => id) ⟨keep _ h.1.cur, keep _ h.1.base, h.1.level⟩

theorem execStoreTo_stays {s : State} (hs : s.supervisor = true) (sp : Space) (w : Width) (value base : RegIx)
    (imm : BitVec 15) : StaysSupervisor (execStoreTo sp w value base imm s) :=
  finish_answers (fun _ => State.RanPlain.supervisor hs) (storeTo_sat sp w _ _ (Work.start s)) fun _ k h =>
    advance_answers (fun _ _ => id) (by rw [State.supervisor, h.1.cur.psr]; exact hs)

theorem execSysBody_stays {s : State} (hs : s.supervisor = true) {b : SysBody} (hb : sysNeedsSupervisor b = false)
    (r1 : RegIx) (v : Byte) : StaysSupervisor (execSysBody b r1 v s) := by
  cases b with
  | writePsr => cases hb
  | readPsr => exact (advance_plain (writeReg_ranPlain _ _ _)).stays hs
  | trapReturn => cases hb
  | requestTrap tv tp => exact went_stays hs (requestTrap_went _ _ s)
  | prog p => exact went_stays hs (execProg_went hb _ _ s)

/-- An exception from supervisor mode, and a halt, are in it too. -/
theorem StaysSupervisor.next {o : Result} {t : State} (h : StaysSupervisor o) (ho : o = .next t) : t.supervisor = true := by
  rcases Answers.next h ho with ht | ⟨r, b, hb, rfl⟩ | ⟨e, b, hb, hx⟩
  · exact ht
  · exact hb
  · rcases enterException_next hx with hh | ⟨k, q, saved, u, rfl, he, -⟩
    · rw [State.supervisor, hh.psr]; exact hb
    · rw [State.supervisor, countFault_psr]; exact he.supervisor

/-- Settles O60: a case per family, none of which has a psr write or a trap return to run. -/
theorem plainInstructionsStayInSupervisorMode : Obligations.PlainInstructionsStayInSupervisorMode := by
  intro s t i hs h hi
  have href : ∀ r, StaysSupervisor (.refused r) := fun r => .refused r
  have hexc : ∀ e, StaysSupervisor (takeException e s) := fun e => .exception (B := fun t => t.supervisor = true) hs e
  refine StaysSupervisor.next ?_ h
  cases i with
  | sys op r1 v =>
    rw [exec_sys]
    exact withEntry_of href hexc fun e he _ => execSysBody_stays hs (hi e he) r1 v
  | bulk op r1 r2 low =>
    rw [exec_bulk]
    exact withEntry_of href hexc fun e he _ => execProg_memory_stays hs (findBulk_memoryOnly he) _ _
  | uj op r1 imm =>
    rw [exec_uj]
    refine withEntry_of href hexc fun e he _ => ?_
    cases hb : e.body with
    | u p => exact went_stays hs (execProg_went (hi e p he hb) _ _ s)
    | j link => exact (execJump_plain (fun p hp => findUJ_link he (hp ▸ hb)) r1 imm s).stays hs
  | branch op r1 r2 imm =>
    rw [exec_branch]
    exact withEntry_of href hexc fun e _ _ => (execBranchOn_plain e.body _ _ imm s).stays hs
  | load op r1 r2 imm =>
    rw [exec_load]
    refine withEntry_of href hexc fun e he _ => ?_
    cases hb : e.body with
    | load sp w x => exact (execLoadFrom_plain ..).stays hs
    | alignedOffset p => exact went_stays hs (execProg_went (hi e p he hb) _ _ s)
  | arithImm op r1 r2 imm =>
    rw [exec_arithImm]
    exact withEntry_of href hexc fun e _ _ => (finishAlu_plain _ fun _ => writeReg_ranPlain _ _ _).stays hs
  | arithReg op r1 r2 r3 r4 =>
    rw [exec_arithReg]
    exact withEntry_of href hexc fun e he _ => (execRegBody_plain (fun _ => findArithReg_arithOnly he) _ s).stays hs
  | store op r1 r2 imm =>
    rw [exec_store]
    exact withEntry_of href hexc fun e _ _ => execStoreTo_stays hs _ _ _ _ imm

end Sys2Proof.Machine
end

section
/-! PROOFS. Trap entry (60_exceptions.md R171 to R173, R183): the state it makes, its frame, and the push that fails. -/

namespace Sys2Proof.Machine

/-! ## An entry whose pushes go through, whatever the layout -/

theorem frameFits_iff {s : State} : frameFits s = true ↔
    mainPlain s .word (frameAddr1 s) = true ∧ mainPlain s .word (frameAddr2 s) = true := by
  simp only [frameFits, Bool.and_eq_true]

/-- A plain access looks at the platform and at psr.mmu only. -/
theorem mainPlain_congr {s t : State} (hp : t.platform = s.platform) (hm : psrMmu t.psr = psrMmu s.psr) (w : Width) (a : Word) :
    mainPlain t w a = mainPlain s w a := by
  simp only [mainPlain, hp, hm]

theorem push32_plain {k : Work} (v : Word) (hs : psrS k.cur.psr = true)
    (h : mainPlain k.cur .word (pushAddr k.cur.platform.frame k.cur.ssp) = true) :
    push32 v k = .ok () { k with cur := { k.cur with
      ssp := spAfterPush k.cur.platform.frame k.cur.ssp
      main := k.cur.main.writeVal k.cur.platform.endian .word (pushAddr k.cur.platform.frame k.cur.ssp).toNat v } } := by
  unfold push32 Work.movePointer
  rw [readReg_sp, writeReg_sp, if_pos hs, if_pos hs, memWrite_plain]
  exact h

/-- Main memory with the two words of the frame in it. -/
def framedMain (saved : Pc) (s : State) : Memory :=
  (s.main.writeVal s.platform.endian .word (frameAddr1 s).toNat
      (frameWords s.platform.frame.order s.psr (saved.zeroExtend 32)).1).writeVal s.platform.endian .word (frameAddr2 s).toNat
    (frameWords s.platform.frame.order s.psr (saved.zeroExtend 32)).2

/-- `entryState` for any layout of the frame. -/
def enteredState (q : BitVec 3) (saved h : Pc) (s : State) : State :=
  { s with
    psr := psrWithP (psrWithS s.psr true) q
    ssp := spAfterPush s.platform.frame (spAfterPush s.platform.frame s.ssp)
    main := framedMain saved s
    pc := h }

theorem spAfterPush_default {f : TrapFrame} (hf : f = .default) (sp : Word) : spAfterPush f sp = sp - 4 := by
  rw [hf]; rfl

theorem enteredState_default (q : BitVec 3) (saved h : Pc) {s : State} (hf : s.platform.frame = .default) :
    enteredState q saved h s = entryState q saved h s := by
  have h8 : s.ssp - 4 - 4 = s.ssp - 8 := by bv_omega
  simp only [enteredState, entryState, framedMain, frameAddr1, frameAddr2, hf, TrapFrame.default, pushAddr, frameWords,
    spAfterPush, h8]

theorem pushFrame_plain (saved : Pc) {s : State} (h : frameFits s = true) :
    pushFrame saved (Work.start s) = .ok () { cur := { s.raiseMode with
      ssp := spAfterPush s.platform.frame (spAfterPush s.platform.frame s.ssp), main := framedMain saved s }, base := s } := by
  obtain ⟨h1, h2⟩ := frameFits_iff.1 h
  have plain : ∀ (t : State) (a : Word), t.platform = s.platform → t.psr = psrWithS s.psr true →
      mainPlain s .word a = true → mainPlain t .word a = true := fun t a hp hq hm => by
    rw [← hm]
    exact mainPlain_congr hp (by rw [hq, psrWithS_mmu]) .word a
  have hs : psrS (psrWithS s.psr true) = true := psrWithS_s _ _
  have first := push32_plain (k := { cur := s.raiseMode, base := s })
    (frameWords s.platform.frame.order s.psr (saved.zeroExtend 32)).1 hs (plain s.raiseMode (frameAddr1 s) rfl rfl h1)
  refine (congrArg (Access.andThen · _) first).trans ?_
  exact push32_plain (k := { cur := { s.raiseMode with ssp := spAfterPush s.platform.frame s.ssp, main := _ }, base := s })
    (frameWords s.platform.frame.order s.psr (saved.zeroExtend 32)).2 hs (plain _ (frameAddr2 s) rfl rfl h2)

theorem handlerAt_iff {s : State} {v : Byte} {h : Pc} : handlerAt s v h = true ↔
    allInstalled s.platform.dataInstalled (ivtEntryAddr s.psr v) 4 = true
      ∧ noDevice s.platform (ivtEntryAddr s.psr v) 4 = true
      ∧ s.data.readVal s.platform.endian .word (ivtEntryAddr s.psr v) = h.zeroExtend 32 := by
  simp only [handlerAt, Bool.and_eq_true, beq_iff_eq, and_assoc]

theorem ivtEntryAddr_aligned (p : Word) (v : Byte) : ivtEntryAddr p v % 4 = 0 := by
  unfold ivtEntryAddr ivtBase
  omega

theorem ivtEntryAddr_toNat (p : Word) (v : Byte) : (BitVec.ofNat 32 (ivtEntryAddr p v)).toNat = ivtEntryAddr p v := by
  have h := ivtEntryAddr_lt p v
  unfold dataSize at h
  rw [BitVec.toNat_ofNat, Nat.mod_eq_of_lt (by omega)]

theorem low24_zeroExtend (p : Pc) : (p.zeroExtend 32).extractLsb' 0 24 = p := by
  ext i hi
  simp [hi]
  omega

theorem zeroExtend_low24 {a : Word} (h : a.toNat < mainSize) : (a.extractLsb' 0 24).zeroExtend 32 = a := by
  apply BitVec.eq_of_toNat_eq
  rw [BitVec.toNat_setWidth, low24_toNat h, Nat.mod_eq_of_lt a.isLt]

theorem zeroExtend_lt (p : Pc) : (p.zeroExtend 32).toNat < mainSize := by
  rw [BitVec.toNat_setWidth]
  exact lt_of_le_of_lt (Nat.mod_le _ _) p.isLt

theorem loadHandler_plain {v : Byte} {h : Pc} {k : Work} (hh : handlerAt k.cur v h = true) :
    loadHandler v k = .entered { k with cur := { k.cur with pc := h } } := by
  obtain ⟨hi, hd, he⟩ := handlerAt_iff.1 hh
  have hlt := ivtEntryAddr_lt k.cur.psr v
  have hr := dataRead_storage (k := k) (w := .word) (a := BitVec.ofNat 32 (ivtEntryAddr k.cur.psr v))
    (by
      simp only [dataPlain, ivtEntryAddr_toNat, Bool.and_eq_true, decide_eq_true_eq]
      exact ⟨⟨by omega, ivtEntryAddr_aligned _ _⟩, hi⟩)
    (by rw [ivtEntryAddr_toNat]; exact hd)
  rw [ivtEntryAddr_toNat, he] at hr
  unfold loadHandler
  rw [hr]
  dsimp only
  rw [if_neg (not_not.2 (top8_eq_zero.2 (zeroExtend_lt h))), low24_zeroExtend]

theorem trapEnterIn_plain (v : Byte) (q : BitVec 3) (saved : Pc) {h : Pc} {s : State} (hf : frameFits s = true)
    (hh : handlerAt s v h = true) :
    trapEnterIn v q saved (Work.start s) = .entered { cur := enteredState q saved h s, base := s } := by
  unfold trapEnterIn
  rw [pushFrame_plain saved hf]
  refine loadHandler_plain ?_
  simpa only [handlerAt, State.setPriority, State.raiseMode, ivtEntryAddr_withP, ivtEntryAddr_withS] using hh

theorem trapEnter_plain (v : Byte) (q : BitVec 3) (saved : Pc) {h : Pc} {s : State} (hf : frameFits s = true)
    (hh : handlerAt s v h = true) : trapEnter v q saved s = .entered (enteredState q saved h s) := by
  unfold trapEnter
  rw [trapEnterIn_plain v q saved hf hh]

/-- With the layout of R172 the state entered is the pseudocode's. -/
theorem trapEnter_default (v : Byte) (q : BitVec 3) (saved : Pc) {h : Pc} {s : State} (hd : s.platform.frame = .default)
    (hf : frameFits s = true) (hh : handlerAt s v h = true) : trapEnter v q saved s = .entered (entryState q saved h s) := by
  rw [trapEnter_plain v q saved hf hh, enteredState_default q saved h hd]

/-- Settles O22: two pushes that go through, and a handler that is there. -/
theorem trapEntryMakesTheStateOfThePseudocode : Obligations.TrapEntryMakesTheStateOfThePseudocode :=
  fun _ v q saved _ hd hf hh => trapEnter_default v q saved hd hf hh

/-! ## The frame of an entry, translated or not -/

/-- The handler's pc is the vector's entry, where that is storage. -/
theorem loadHandler_pc {v : Byte} {k k' : Work} (h : loadHandler v k = .entered k')
    (hd : noDevice k.cur.platform (ivtEntryAddr k.cur.psr v) 4 = true) :
    k'.cur.pc.zeroExtend 32 = k.cur.data.readVal k.cur.platform.endian .word (ivtEntryAddr k.cur.psr v) := by
  unfold loadHandler at h
  split at h
  · next e k1 hx =>
    split at h
    · cases h
    · next htop =>
      cases h
      obtain ⟨-, he, -⟩ := dataRead_ok hx
      rw [ivtEntryAddr_toNat] at he
      rw [show dataReadList _ (widthBytes .word) k = _ from dataReadList_storage hd] at he
      have he : e = k.cur.data.readVal k.cur.platform.endian .word (ivtEntryAddr k.cur.psr v) := he
      rw [← he]
      exact zeroExtend_low24 (top8_eq_zero.1 (not_not.1 htop))
  · cases h
  · cases h

/-- An entry's end leaves main memory. -/
theorem loadHandler_main {v : Byte} {k k' : Work} (h : loadHandler v k = .entered k') : k'.cur.main = k.cur.main := by
  rcases loadHandler_cases v k with ⟨r, hr⟩ | ⟨k1, hk, -, -, -, -, -, -, hm, -⟩
  · rw [hr] at h; cases h
  · rw [hk] at h; cases h; exact hm

theorem push32_untouched {v : Word} {k k' : Work} (h : push32 v k = .ok () k') {b : Nat} (hb : pushTouches k b = false) :
    k'.cur.main.read b = k.cur.main.read b :=
  (memWrite_untouched h hb).trans (by rw [Work.movePointer, writeReg_main])

theorem pushFrame_untouched {saved : Pc} {s : State} {k : Work} (h : pushFrame saved (Work.start s) = .ok () k) {b : Nat}
    (hb : frameTouches saved s b = false) : k.cur.main.read b = s.main.read b := by
  obtain ⟨_, k1, h1, h2⟩ := Access.andThen_ok h
  obtain ⟨hb1, hb2⟩ := Bool.or_eq_false_iff.1 hb
  have h1 : push32 (frameWords s.platform.frame.order s.psr (saved.zeroExtend 32)).1
    { Work.start s with cur := s.raiseMode } = .ok () k1 := h1
  rw [h1] at hb2
  exact (push32_untouched h2 hb2).trans (push32_untouched h1 hb1)

/-- Settles O23: the fields from what every entry makes, the pc from its end, main memory from its pushes. -/
theorem trapEntryFrame : Obligations.TrapEntryFrame := by
  intro s t v q saved h
  obtain ⟨k, hk, rfl⟩ := trapEnter_in h
  have he : s.Entered q k.cur := by
    rcases trapEnterIn_cases v q saved (Work.start s) with ⟨r, hr⟩ | ⟨b, hr, -⟩ | ⟨k', hr, he, -⟩ <;> rw [hr] at hk <;> cases hk
    exact he
  unfold trapEnterIn at hk
  cases hp : pushFrame saved (Work.start s) with
  | raised e k1 => rw [hp] at hk; cases hk
  | refused r => rw [hp] at hk; cases hk
  | ok u k1 =>
    rw [hp] at hk
    obtain ⟨hf, -, -⟩ := (pushFrame_sat saved (Work.start s)).ok hp
    refine ⟨he.psr, he.supervisor, by simp [he.psr], by simp [he.psr], by simp [he.psr], by simp [he.psr], by simp [he.psr],
      he.ssp, fun hd => ?_, he.regs, he.usp, he.data, he.pending, he.faultDepth, he.status, he.schedule, he.platform,
      fun b hb => ?_⟩
    · have haddr : ivtEntryAddr (k1.cur.setPriority q).psr v = ivtEntryAddr s.psr v := by
        simp [State.setPriority, hf.psr, State.raiseMode, Work.start]
      have hpc := loadHandler_pc hk (by rw [haddr]; exact hf.platform ▸ hd)
      rw [haddr] at hpc
      rw [hpc]
      show k1.cur.data.readVal k1.cur.platform.endian _ _ = _
      rw [hf.data, hf.platform]
      rfl
    · rw [loadHandler_main hk]
      exact pushFrame_untouched hp hb

/-! ## A push that raises -/

/-- A main memory write that raises has left no more than device reads. -/
theorem push32_raised {v : Word} {k k' : Work} {e : Exc} (h : push32 v k = .raised e k') : k'.base.main = k.base.main :=
  ((memWrite_sat _ _ _ _).raised h).base.main

theorem pushFrame_raised_main {saved : Pc} {s : State} {e : Exc} {k : Work} (h : pushFrame saved (Work.start s) = .raised e k)
    {b : Nat} (hb : dirtyTouches (low24 (frameAddr1 s)) (Work.movePointer { Work.start s with cur := s.raiseMode }) b = false) :
    k.base.main.read b = s.main.read b := by
  rcases Access.andThen_raised h with h1 | ⟨_, k1, h1, h2⟩
  · rw [push32_raised h1]
    rfl
  · rw [push32_raised h2]
    have hsp : s.raiseMode.readReg spIx = s.ssp := (readReg_sp _).trans (if_pos (psrWithS_s s.psr true))
    refine memWrite_base_untouched h1 ?_
    show dirtyTouches (low24 (pushAddr s.platform.frame (s.raiseMode.readReg spIx))) _ b = false
    rw [hsp]
    exact hb

/-- Settles O24: the entry halts in what the pushes have noted in the state before it. -/
theorem failedPushHaltsWithoutAFrame : Obligations.FailedPushHaltsWithoutAFrame := by
  intro s v q saved e w h
  have hn := ((pushFrame_sat saved (Work.start s)).raised h (Work.start_level s)).noted
  refine ⟨w.base, ?_, hn, hn.eq, fun hc => ?_, fun x hx => pushFrame_raised_main h hx⟩
  · unfold trapEnter trapEnterIn
    rw [h]
    rfl
  · rcases hc with hc | hc
    · exact hn.baseFrame.clean hc
    · exact hn.main_eq fun _ _ hw => by
        have : psrMmu s.psr = true := hw.2.1
        rw [hc] at this
        cases this

end Sys2Proof.Machine
end

section
/-! PROOFS. Exceptions (60_exceptions.md R170, R178, R183) and the return (R180). -/

namespace Sys2Proof.Machine

/-! ## Exceptions -/

/-- An exception whose parameters are set enters its handler, the fault counted. -/
theorem enterException_entered {saved : ExcKind → Option Pc} {e : Exc} {s t : State} {k : ExcKind} {pc : Pc} {q : BitVec 3}
    (hk : excKindOf s.platform (excVector e) = some k) (hpc : saved k = some pc) (hd : doubleFaultCheck k s = .goOn)
    (hq : excPriorityOf s.platform (excVector e) (psrP s.psr) = some q)
    (ht : trapEnter (excVector e) q pc s = .entered t) : enterException saved e s = .next (t.countFault k) := by
  simp only [enterException, hk, hpc, hd, hq, ht]

/-- Settles O25: the pc saved is what the kind says, and the handler's first state is the pseudocode's. -/
theorem exceptionEntersItsHandler : Obligations.ExceptionEntersItsHandler := by
  refine ⟨fun p => ⟨rfl, rfl⟩, fun s e q h hdef hfits hh hq => ⟨fun hk hd => ?_, fun hk => ⟨?_, fun hn => ?_⟩⟩⟩
  · have hgo : doubleFaultCheck .fault s = .goOn := by
      rcases hd with hd | hd <;> simp [doubleFaultCheck, hd]
    exact ⟨enterException_entered hk rfl hgo hq (trapEnter_default _ q s.pc hdef hfits hh),
      enterException_entered hk rfl hgo hq (trapEnter_default _ q s.pc hdef hfits hh)⟩
  · exact enterException_entered hk rfl rfl hq (trapEnter_default _ q s.pc hdef hfits hh)
  · exact enterException_entered hk (nextPc_of_hasNext hn rfl) rfl hq (trapEnter_default _ q (s.pc + 4) hdef hfits hh)

/-- A second fault that does not go on never gets to its entry. -/
theorem enterException_doubleFault {saved : ExcKind → Option Pc} {e : Exc} {s : State} {pc : Pc}
    (hk : excKindOf s.platform (excVector e) = some .fault) (hpc : saved .fault = some pc) :
    (doubleFaultCheck .fault s = .halts → enterException saved e s = .next s.halt) ∧
    (doubleFaultCheck .fault s = .unset → enterException saved e s = .refused .faultScopeUnset) :=
  ⟨fun hd => by simp only [enterException, hk, hpc, hd], fun hd => by simp only [enterException, hk, hpc, hd]⟩

/-- Settles O26, by the check for a double fault. -/
theorem secondFaultGoesByTheScope : Obligations.SecondFaultGoesByTheScope := by
  intro s e hk hd
  refine ⟨fun hs => ?_, fun hs => ?_⟩
  · have hc : doubleFaultCheck .fault s = .halts := by simp [doubleFaultCheck, hd, hs]
    exact ⟨(enterException_doubleFault hk rfl).1 hc, (enterException_doubleFault hk rfl).1 hc⟩
  · have hc : doubleFaultCheck .fault s = .unset := by simp [doubleFaultCheck, hd, hs]
    exact ⟨(enterException_doubleFault hk rfl).2 hc, (enterException_doubleFault hk rfl).2 hc⟩

/-! ## The return -/

theorem pop32_plain {sp : Word} {k : Work} (h : mainPlain k.cur .word (popAddr k.cur.platform.frame sp) = true) :
    pop32 sp k = .ok (k.cur.main.readVal k.cur.platform.endian .word (popAddr k.cur.platform.frame sp).toNat,
      spAfterPop k.cur.platform.frame sp) k := by
  unfold pop32
  rw [memRead_plain h]
  rfl

/-- The two words on the stack come back in the reverse order of the pushes. -/
theorem trapReturnIn_plain {s : State} {psr pc : Word} (hs : s.supervisor = true)
    (h1 : mainPlain s .word (popAddr s.platform.frame s.ssp) = true)
    (h2 : mainPlain s .word (popAddr s.platform.frame (spAfterPop s.platform.frame s.ssp)) = true)
    (hw1 : s.main.readVal s.platform.endian .word (popAddr s.platform.frame s.ssp).toNat
      = (frameWords s.platform.frame.order psr pc).2)
    (hw2 : s.main.readVal s.platform.endian .word (popAddr s.platform.frame (spAfterPop s.platform.frame s.ssp)).toNat
      = (frameWords s.platform.frame.order psr pc).1) :
    trapReturnIn (Work.start s)
      = restore pc psr (spAfterPop s.platform.frame (spAfterPop s.platform.frame s.ssp)) (Work.start s) := by
  have hsp : s.readReg spIx = s.ssp := (readReg_sp s).trans (if_pos hs)
  have e1 := pop32_plain (k := Work.start s) h1
  have e2 := pop32_plain (k := Work.start s) h2
  unfold trapReturnIn
  rw [if_neg (by simpa [Work.start] using hs)]
  show Access.andThen (pop32 (s.readReg spIx) _) _ = _
  rw [hsp, e1]
  show Access.andThen (pop32 (spAfterPop s.platform.frame s.ssp) _) _ = _
  rw [e2]
  show (match s.platform.frame.order with | .psrFirst => _ | .pcFirst => _) = _
  simp only [Work.start, hw1, hw2]
  cases s.platform.frame.order <;> rfl

theorem restore_ok {c r sp : Word} {s : State} (hs : s.supervisor = true) (hc : c.toNat < mainSize) (hr : psrRes r = 0) :
    restore c r sp (Work.start s) = .ok () { cur := { s with
      ssp := sp, psr := r, pc := c.extractLsb' 0 24, faultDepth := s.faultDepth - 1 }, base := s } := by
  unfold restore
  rw [if_neg (not_not.2 (top8_eq_zero.2 hc)), if_neg (not_not.2 hr), writeReg_sp, if_pos (by exact hs)]
  rfl

theorem restore_wide {c : Word} (r sp : Word) (k : Work) (hc : mainSize ≤ c.toNat) :
    restore c r sp k = .refused .savedPcTopByte := if_pos fun h => absurd (top8_eq_zero.1 h) (by omega)

theorem restore_reserved {c r : Word} (sp : Word) (k : Work) (hc : c.toNat < mainSize) (hr : psrRes r ≠ 0) :
    restore c r sp k = .refused .psrReserved :=
  (if_neg (not_not.2 (top8_eq_zero.2 hc))).trans (if_pos hr)

/-- Settles O28: the entry may run, the two words are at ssp and ssp + 4, and `restore` decides. -/
theorem trapReturnRestores : Obligations.TrapReturnRestores := by
  intro s op r1 v e he hb hs hd h1 h2 c r
  have hexec : exec (.sys op r1 v) s = trapReturn (Work.start s) := by
    rw [exec_sys, he, withEntry_run rfl (mayRun_of_supervisor hs _) (.inl hs), hb]
    rfl
  have hin : trapReturnIn (Work.start s) = restore c r (s.ssp + 8) (Work.start s) := by
    have h8 : s.ssp + 4 + 4 = s.ssp + 8 := by bv_omega
    have := trapReturnIn_plain (psr := r) (pc := c) hs (by rw [hd]; exact h1) (by rw [hd]; exact h2) (by rw [hd]; rfl)
      (by rw [hd]; rfl)
    rw [this, hd]
    exact congrArg (restore c r · _) h8
  rw [hexec]
  unfold trapReturn
  rw [hin]
  refine ⟨rfl, fun hc hr => ?_, fun hc => ?_, fun hc hr => ?_⟩
  · have hpc : c.extractLsb' 0 24 = BitVec.ofNat 24 c.toNat := rfl
    rw [restore_ok hs hc hr, hpc]
    rfl
  · rw [restore_wide _ _ _ hc]
    rfl
  · rw [restore_reserved _ _ hc hr]
    rfl

/-! ## A return right after an entry -/

theorem spAfterPop_spAfterPush (f : TrapFrame) (sp : Word) : spAfterPop f (spAfterPush f sp) = sp := by
  unfold spAfterPop spAfterPush
  cases f.growth
  · exact BitVec.sub_add_cancel _ _
  · exact BitVec.add_sub_cancel _ _

/-- A pop reads where the push before it wrote. -/
theorem popAddr_spAfterPush (f : TrapFrame) (sp : Word) : popAddr f (spAfterPush f sp) = pushAddr f sp := by
  unfold popAddr pushAddr
  cases f.move
  · rfl
  · exact spAfterPop_spAfterPush f sp

/-- The two words of a frame are four bytes apart, so where both are aligned they do not meet. -/
theorem frameAddr_disjoint {s : State} (h1 : (frameAddr1 s).toNat % 4 = 0) (h2 : (frameAddr2 s).toNat % 4 = 0) :
    (frameAddr1 s).toNat + 4 ≤ (frameAddr2 s).toNat ∨ (frameAddr2 s).toNat + 4 ≤ (frameAddr1 s).toNat := by
  have hne : frameAddr1 s ≠ frameAddr2 s := by
    unfold frameAddr1 frameAddr2 pushAddr spAfterPush
    cases s.platform.frame.growth <;> cases s.platform.frame.move <;> intro h <;> bv_omega
  have : (frameAddr1 s).toNat ≠ (frameAddr2 s).toNat := fun h => hne (BitVec.eq_of_toNat_eq h)
  omega

theorem readVal_writeVal_of_disjoint (m : Memory) (e : Endian) (w : Width) {a b : Nat} (v : Word)
    (hd : a + widthBytes w ≤ b ∨ b + widthBytes w ≤ a) : (m.writeVal e w b v).readVal e w a = m.readVal e w a := by
  unfold Memory.readVal
  rw [Memory.readList_congr fun c h1 h2 => Memory.read_writeVal_of_outside m e w b v (by omega)]

/-- What the two words of the frame read as after the entry. -/
theorem framedMain_words {s : State} (saved : Pc) (hf : frameFits s = true) (hw : Memory.wf mainSize s.main = true) :
    (framedMain saved s).readVal s.platform.endian .word (frameAddr1 s).toNat
      = (frameWords s.platform.frame.order s.psr (saved.zeroExtend 32)).1 ∧
    (framedMain saved s).readVal s.platform.endian .word (frameAddr2 s).toNat
      = (frameWords s.platform.frame.order s.psr (saved.zeroExtend 32)).2 := by
  obtain ⟨h1, h2⟩ := frameFits_iff.1 hf
  obtain ⟨-, hlt1, ha1, -⟩ := mainPlain_iff.1 h1
  obtain ⟨-, hlt2, ha2, -⟩ := mainPlain_iff.1 h2
  have fits : ∀ {a : Nat}, a % widthBytes .word = 0 → a < mainSize → a + widthBytes .word ≤ mainSize := fun h hl =>
    aligned_fits h hl (by decide)
  have hw1 := Memory.wf_writeVal hw s.platform.endian .word (frameAddr1 s).toNat
    (frameWords s.platform.frame.order s.psr (saved.zeroExtend 32)).1 (fits ha1 hlt1)
  constructor
  · refine (readVal_writeVal_of_disjoint _ _ _ _ (frameAddr_disjoint ha1 ha2)).trans ?_
    exact Memory.readVal_writeVal hw _ .word _ _ (fits ha1 hlt1)
  · exact Memory.readVal_writeVal hw1 _ .word _ _ (fits ha2 hlt2)

theorem framedMain_outside (saved : Pc) (s : State) {b : Nat} (h1 : b < (frameAddr1 s).toNat ∨ (frameAddr1 s).toNat + 4 ≤ b)
    (h2 : b < (frameAddr2 s).toNat ∨ (frameAddr2 s).toNat + 4 ≤ b) : (framedMain saved s).read b = s.main.read b :=
  (Memory.read_writeVal_of_outside _ _ .word _ _ h2).trans (Memory.read_writeVal_of_outside _ _ .word _ _ h1)

/-- The return finds what the entry has pushed. -/
theorem trapReturn_enteredState (q : BitVec 3) (saved h : Pc) {s : State} (hf : frameFits s = true)
    (hr : psrRes s.psr = 0) (hw : Memory.wf mainSize s.main = true) :
    trapReturn (Work.start (enteredState q saved h s)) = .next { s with
      main := framedMain saved s, pc := saved, faultDepth := s.faultDepth - 1 } := by
  obtain ⟨h1, h2⟩ := frameFits_iff.1 hf
  obtain ⟨hw1, hw2⟩ := framedMain_words saved hf hw
  have hs : (enteredState q saved h s).supervisor = true := by simp [enteredState, State.supervisor]
  have plain : ∀ a, mainPlain (enteredState q saved h s) .word a = mainPlain s .word a := fun a =>
    mainPlain_congr (s := s) (t := enteredState q saved h s) rfl (by simp [enteredState]) .word a
  have ha2 : popAddr s.platform.frame (enteredState q saved h s).ssp = frameAddr2 s := popAddr_spAfterPush _ _
  have ha1 : popAddr s.platform.frame (spAfterPop s.platform.frame (enteredState q saved h s).ssp) = frameAddr1 s := by
    refine (congrArg _ (spAfterPop_spAfterPush _ _)).trans (popAddr_spAfterPush _ _)
  have hsp : spAfterPop (enteredState q saved h s).platform.frame
      (spAfterPop (enteredState q saved h s).platform.frame (enteredState q saved h s).ssp) = s.ssp :=
    (congrArg _ (spAfterPop_spAfterPush _ _)).trans (spAfterPop_spAfterPush _ _)
  have hin := trapReturnIn_plain (s := enteredState q saved h s) (psr := s.psr) (pc := saved.zeroExtend 32) hs
    (by rw [plain]; exact ha2 ▸ h2) (by rw [plain]; exact ha1 ▸ h1) (by exact ha2 ▸ hw2) (by exact ha1 ▸ hw1)
  unfold trapReturn
  rw [hin, hsp, restore_ok hs (zeroExtend_lt saved) hr, low24_zeroExtend]
  rfl

/-- Settles O29: the entry as computed, and the return on its frame. -/
theorem returnUndoesEntry : Obligations.ReturnUndoesEntry := fun s v q saved h hf hh hr hw =>
  ⟨enteredState q saved h s, _, trapEnter_plain v q saved hf hh, rfl, trapReturn_enteredState q saved h hf hr hw,
    rfl, rfl, rfl, rfl, rfl, rfl, rfl, rfl, rfl, fun _ h1 h2 => framedMain_outside saved s h1 h2⟩

end Sys2Proof.Machine
end

section
/-! PROOFS. Interrupts (60_exceptions.md R165 to R167), reset (70_reset_and_hazards.md R200), the step (00_scope.md R5). -/

namespace Sys2Proof.Machine

/-! ## Interrupts -/

/-- Settles O30: the request chosen is a candidate of the greatest priority, and no candidate is passed over. -/
theorem interruptChoice : Obligations.InterruptChoice := by
  intro s
  refine ⟨fun r n h => ?_, fun hirq ⟨r, hr, hp⟩ hnone => ?_⟩
  · obtain ⟨hc, hmax⟩ := mem_topCandidates.1 (chooseRequest_mem h)
    obtain ⟨hirq, hpend, hp⟩ := mem_candidates.1 hc
    refine ⟨hirq, hpend, hp, fun x hx => ?_⟩
    by_cases hxp : (psrP s.psr).toNat < x.prio.toNat
    · exact hmax x (mem_candidates.2 ⟨hirq, hx, hxp⟩)
    · omega
  · have hc := mem_candidates.2 ⟨hirq, hr, hp⟩
    rw [chooseRequest_none hnone] at hc
    cases hc

/-- Settles O31: a request that was chosen would be pending and above psr.p while psr.irq is 1. -/
theorem interruptsHeldBack : Obligations.InterruptsHeldBack := by
  intro s h
  unfold interruptOrRun
  cases hc : s.chooseRequest with
  | none => rfl
  | some x =>
    obtain ⟨hirq, hpend, hp, -⟩ := (interruptChoice s).1 x.1 x.2 hc
    have hlt := x.1.prio.isLt
    exfalso
    rcases h with h | h | h
    · rw [h] at hirq; cases hirq
    · rw [h] at hp; simp at hp; omega
    · rw [h _ hpend] at hp; simp at hp

theorem dropRequest_eq (r : Request) (rs : List Request) : dropRequest r rs = rs.filter (fun p => decide (p ≠ r)) := by
  unfold dropRequest
  exact List.filter_congr fun x _ => by simp [bne, BEq.beq]

/-- Settles O32: the entry of the request's vector, from the state without the request. -/
theorem acknowledgeEntersTheHandler : Obligations.AcknowledgeEntersTheHandler := by
  intro s r h hd hf hh
  unfold acknowledge enterTrap
  rw [dropRequest_eq, trapEnter_default r.vector r.prio s.pc (h := h)]
  · exact hd
  · exact hf
  · exact hh

/-! ## Reset -/

/-- The reset sequence where the reset entry is storage: its low 24 bits are the pc, unless the rest is not 0. -/
theorem resetSequence_storage {r : ResetParams} (hi : allInstalled r.platform.dataInstalled 0xF800 4 = true)
    (hd : noDevice r.platform 0xF800 4 = true) :
    let e := r.data.readVal r.platform.endian .word 0xF800
    (e.toNat < mainSize → resetSequence r = .ok { resetBase r with pc := e.extractLsb' 0 24 }) ∧
    (mainSize ≤ e.toNat → resetSequence r = .error .ivtTopByte) := by
  intro e
  have hplain : dataPlain (resetBase r) .word (BitVec.ofNat 32 0xF800) = true := by
    simp only [dataPlain, Bool.and_eq_true, decide_eq_true_eq]
    exact ⟨⟨by decide, by decide⟩, hi⟩
  have hr : dataRead .word (BitVec.ofNat 32 0xF800) (Work.start (resetBase r)) = .ok e (Work.start (resetBase r)) :=
    dataRead_storage (k := Work.start (resetBase r)) hplain hd
  unfold resetSequence
  rw [hr]
  exact ⟨fun h => if_neg (not_not.2 (top8_eq_zero.2 h)), fun h => if_pos fun h' => absurd (top8_eq_zero.1 h') (by omega)⟩

/-- Settles O33: the state before the entry is read is known, and so is the psr built of fields. -/
theorem resetSequence_obligation : Obligations.ResetSequence := by
  intro r hi hd e
  obtain ⟨hok, herr⟩ := resetSequence_storage hi hd
  obtain ⟨h1, h2, h3, h4, h5, h6, h7⟩ := fields_psrOf true false false r.p 62 255 0
  exact ⟨fun h => ⟨_, hok h, h1, h2, h3, h4, h5, h6, h7, low24_toNat h, rfl, rfl, rfl, rfl, rfl⟩, herr⟩

/-- The chip's device map ends before the default vector table (20_memory.md R41). -/
theorem isDevice_reset {a : Nat} (h : 0xF800 ≤ a) : isDevice .reset a = false := by
  have hsize := Config.devmapSize.isLt
  simp only [isDevice, Platform.reset, regionHas, List.any_cons, List.any_nil, Bool.or_eq_false_iff, Bool.and_eq_false_iff]
  exact ⟨⟨.inr (decide_eq_false (by omega)), trivial⟩, .inr (decide_eq_false (by omega))⟩

/-- Settles O34: with nothing loaded the reset entry reads as 0. -/
theorem resetMeetsTheInvariant : Obligations.ResetMeetsTheInvariant := by
  have hd : noDevice .reset 0xF800 4 = true := by simp [noDevice, isDevice_reset]
  refine ⟨⟨rfl, rfl, by decide, rfl⟩, rfl, ?_⟩
  exact (resetSequence_storage rfl hd).1 (by decide)

/-! ## The step -/

theorem enterException_ne_fault (pc : ExcKind → Option Pc) (e : Exc) (s : State) (f : Fault) :
    enterException pc e s ≠ .fault f := by
  intro h
  rcases enterException_cases pc e s with ⟨r, hr⟩ | ⟨u, hu, -⟩ | ⟨k, q, saved, u, hu, -⟩
  · rw [hr] at h; cases h
  · rw [hu] at h; cases h
  · rw [hu] at h; cases h

theorem Answers.ne_fault {B G : State → Prop} {o : Result} (h : Answers B G o) (f : Fault) : o ≠ .fault f := by
  cases h with
  | goes u _ => nofun
  | ends o he =>
    cases he with
    | refused r => nofun
    | exception e b _ => exact enterException_ne_fault _ e b f
    | halts r b _ => nofun

theorem fetchAndRun_ne_fault (s : State) (f : Fault) : fetchAndRun s ≠ .fault f := by
  unfold fetchAndRun
  split
  · unfold runWord
    split
    · exact (exec_ran _ _).ne_fault f
    · nofun
  · exact enterException_ne_fault _ _ _ f
  · nofun

theorem acknowledge_ne_fault (r : Request) (s : State) (f : Fault) : acknowledge r s ≠ .fault f := by
  intro h
  rcases acknowledge_cases r s with ⟨e, hr⟩ | ⟨u, hu, -⟩ | ⟨u, hu, -⟩
  · rw [hr] at h; cases h
  · rw [hu] at h; cases h
  · rw [hu] at h; cases h

theorem step_running {s u : State} (hr : s.status = .running) (hu : s.deviceTurn = .ok u) : step s = interruptOrRun u := by
  simp only [step, hr, hu]

theorem step_ne_fault {s : State} (hr : s.status = .running) (f : Fault) : step s ≠ .fault f := by
  cases hu : s.deviceTurn with
  | error r => simp [step, hr, hu]
  | ok u =>
    rw [step_running hr hu]
    unfold interruptOrRun
    split
    · exact acknowledge_ne_fault _ _ f
    · exact fetchAndRun_ne_fault _ f

/-- Settles O27: no meaning faults, so only a halted machine does. -/
theorem haltedMachineHasNoStep : Obligations.HaltedMachineHasNoStep := by
  intro s
  have hfault : ∀ r, s.status = .halted r → step s = .fault (.halted r) := fun r hr => by simp only [step, hr]
  refine ⟨⟨fun ⟨f, hf⟩ hr => step_ne_fault hr f hf, fun hr => ?_⟩, hfault⟩
  cases hs : s.status with
  | running => exact absurd hs hr
  | halted r => exact ⟨_, hfault r hs⟩

theorem interruptOrRun_none {s : State} (h : s.chooseRequest = none) : interruptOrRun s = fetchAndRun s := by
  simp only [interruptOrRun, h]

theorem fetchAndRun_ok {s : State} {w : Word} {k : Work} (h : fetch (Work.start s) = .ok w k) :
    fetchAndRun s = runWord w k.cur := by
  simp only [fetchAndRun, h]

theorem runWord_ok {w : Word} {i : Instr} (h : decodeWord w = .ok i) (s : State) : runWord w s = exec i s := by
  simp only [runWord, h]

/-- A word read big-endian is the word the decoder makes of its bytes (20_memory.md R52). -/
theorem ofBigBytes_eq_wordOfBytes (b0 b1 b2 b3 : Byte) : ofBigBytes [b0, b1, b2, b3] = wordOfBytes b0 b1 b2 b3 := by
  have hbytes : bigBytes .word (wordOfBytes b0 b1 b2 b3) = [b0, b1, b2, b3] := by
    simp (disch := decide) only [bigBytes, wordOfBytes, BitVec.cast_eq, BitVec.extractLsb'_append_eq_of_le,
      BitVec.extractLsb'_append_eq_right, Nat.reduceSub, BitVec.extractLsb'_eq_self]
  rw [← hbytes, ofBigBytes_bigBytes]
  rfl

theorem decodeBytes_readList {m : Memory} {a : Nat} {rest : List Byte} {i : Instr}
    (h : decodeBytes (m.readList a 4 ++ rest) = .ok (i, rest)) : decodeWord (m.readVal .big .word a) = .ok i := by
  simp only [Memory.readList, List.cons_append, List.nil_append, decodeBytes] at h
  simp only [Memory.readVal, ofBytes, widthBytes, Memory.readList, ofBigBytes_eq_wordOfBytes]
  split at h
  · next j hj => cases h; exact hj
  · cases h

/-- A fetch that needs no translation and that nothing refuses. -/
theorem fetch_plain {s : State} (h : mainPlain s .word (s.pc.zeroExtend 32) = true) :
    fetch (Work.start s) = .ok (s.main.readVal .big .word s.pc.toNat) (Work.start s) := by
  obtain ⟨hmmu, -, ha, hi⟩ := mainPlain_iff.1 h
  have hpc : (s.pc.zeroExtend 32 : Word).toNat = s.pc.toNat := by
    simp only [BitVec.truncate_eq_setWidth, BitVec.toNat_setWidth]
    omega
  rw [hpc] at ha hi
  have hc : physCheck s.platform .word s.pc.toNat = none := by simp only [physCheck, ha, hi]; rfl
  have ha4 : ¬ (Work.start s).cur.pc.toNat % 4 ≠ 0 := not_not.2 ha
  have hoff : mainAddr .fetch s.pc (Work.start s) = .ok s.pc.toNat (Work.start s) := mainAddr_off (k := Work.start s) hmmu
  unfold fetch fetchAt
  rw [if_neg ha4, show (Work.start s).cur.pc = s.pc from rfl, hoff]
  simp only [Access.andThen, physRead, Work.start, hc]

/-- Settles O37: the step's cases by name, and the fetch of a plain pc. -/
theorem stepRunsTheDecodedInstruction : Obligations.StepRunsTheDecodedInstruction := by
  intro s u hr hu
  rw [step_running hr hu]
  refine ⟨fun r n h => by simp only [interruptOrRun, h], fun h => ?_⟩
  rw [interruptOrRun_none h]
  refine ⟨fun w k i hf hi => ?_, fun w k e hf he => ?_, fun e k hf => by simp only [fetchAndRun, hf],
    fun r hf => by simp only [fetchAndRun, hf], fun i rest hs hp hi => ?_⟩
  · rw [fetchAndRun_ok hf, runWord_ok hi]
  · rw [fetchAndRun_ok hf]
    simp only [runWord, he]
  · obtain rfl : s = u := by
      simp only [State.deviceTurn, hs] at hu
      exact Except.ok.inj hu
    rw [fetchAndRun_ok (fetch_plain hp), runWord_ok (decodeBytes_readList hi)]
    rfl

end Sys2Proof.Machine
end

section
/-! PROOFS. What no entry, or an entry that the mode does not allow, answers (30_encoding.md R95, 60_exceptions.md R177); branches
(42_b.md R120); arithmetic (43_i.md R130, R131, 45_r.md R140 to R143), with the small programs of registers it shares with other
groups. -/

namespace Sys2Proof.Machine

/-! ## Slots without an entry -/

/-- A slot that the map does not list is what the rest of the map says. -/
theorem withEntry_unlisted {β : Type} {rows chip : List (Opcode × Entry β)} {rest : MapRest} {keeps : Entry β → Bool} {op : Opcode}
    {z n : β → Bool} {s : State} {run : β → Result} (h : rows.lookup op = none) :
    (rest = .declaredPartial → withEntry (lookupSlot rows rest chip keeps op) z n s run = .refused .noOpmapEntry) ∧
    (rest = .declaredComplete →
      withEntry (lookupSlot rows rest chip keeps op) z n s run = takeException .illegalInstruction s) := by
  constructor
  · rintro rfl
    simp only [lookupSlot, h, withEntry]
  · rintro rfl
    simp only [lookupSlot, h, withEntry]

/-- The all-zero word is open only where the chip's own map stands behind the listed entries. -/
theorem findSys_of_declared {m : OpMap} {op : Opcode} {r1 : RegIx} {v : Byte} (h : m.rest ≠ .hardware) :
    findSys m op r1 v = lookupSlot m.sys m.rest Config.chipMap.map.sys sysContract op := by
  have hz : zeroWordOpen m op r1 v = false := by simp [zeroWordOpen, h]
  unfold findSys
  rw [if_neg (by simp [hz])]

/-- Settles O57, for each group by `withEntry_unlisted`. -/
theorem unassignedOpcodes : Obligations.UnassignedOpcodes := by
  intro s i h
  cases i with
  | sys op r1 v =>
    rw [exec_sys]
    refine ⟨fun hr => ?_, fun hr => ?_⟩
    · rw [findSys_of_declared (by rw [hr]; decide)]
      exact (withEntry_unlisted h).1 hr
    · rw [findSys_of_declared (by rw [hr]; decide)]
      exact (withEntry_unlisted h).2 hr
  | bulk op r1 r2 low => rw [exec_bulk]; exact withEntry_unlisted h
  | uj op r1 imm => rw [exec_uj]; exact withEntry_unlisted h
  | branch op r1 r2 imm => rw [exec_branch]; exact withEntry_unlisted h
  | load op r1 r2 imm => rw [exec_load]; exact withEntry_unlisted h
  | arithImm op r1 r2 imm => rw [exec_arithImm]; exact withEntry_unlisted h
  | arithReg op r1 r2 r3 r4 => rw [exec_arithReg]; exact withEntry_unlisted h
  | store op r1 r2 imm => rw [exec_store]; exact withEntry_unlisted h

/-! ## User mode -/

theorem bulkZeroOk_of {low : BitVec 15} {b : BulkBody} (h : b.enc = .three → low.extractLsb' 0 10 = 0#10) :
    bulkZeroOk low b = true := by
  cases hb : b.enc with
  | two => simp [bulkZeroOk, hb]
  | three => simp [bulkZeroOk, lowZeroBits, h hb]

theorem regZeroOk_of {r4 : RegIx} {b : RegBody} (h : (∃ f, b = .three f) → r4 = 0) : regZeroOk r4 b = true := by
  cases b with
  | three f => rw [h ⟨f, rfl⟩]; rfl
  | fourSource f => rfl
  | fourDest f g => rfl
  | fourProg p => rfl

/-- Settles O41: the zero bits hold, and the mark or the body asks for supervisor mode. -/
theorem userModePrivilegeViolations : Obligations.UserModePrivilegeViolations := by
  intro s op r1 r2 r3 r4 v imm imm20 hs
  refine ⟨fun e he h => ?_, fun e he hz h => ?_, fun e he h => ?_, fun e l he hb => findUJ_jump he hb,
    fun e he => findBranch_unmarked he, fun e he h => ?_, fun e he h => ?_, fun e he hz h => ?_, fun e he h => ?_⟩
  · rw [exec_sys, he]
    refine withEntry_user rfl hs ?_
    rcases h with h | h | ⟨p, h, hp⟩ | h
    · exact .inr (by rw [h]; rfl)
    · exact .inr (by rw [h]; rfl)
    · exact .inr (by rw [h]; exact hp)
    · exact .inl h
  · rw [exec_bulk, he]
    exact withEntry_user (bulkZeroOk_of hz) hs h.symm
  · rw [exec_uj, he]
    refine withEntry_user rfl hs ?_
    rcases h with ⟨p, h, hp⟩ | h
    · exact .inr (by rw [h]; exact hp)
    · exact .inl h
  · rw [exec_load, he]
    refine withEntry_user rfl hs ?_
    rcases h with ⟨w, x, h⟩ | ⟨p, h, hp⟩ | h
    · exact .inr (by rw [h]; rfl)
    · exact .inr (by rw [h]; exact hp)
    · exact .inl h
  · rw [exec_arithImm, he]
    exact withEntry_user rfl hs (.inl h)
  · rw [exec_arithReg, he]
    exact withEntry_user (regZeroOk_of hz) hs (.inl h)
  · rw [exec_store, he]
    refine withEntry_user rfl hs ?_
    rcases h with h | h
    · exact .inr (by simp [storeNeedsSupervisor, h])
    · exact .inl h

/-! ## Branches -/

theorem jumpTo_inRange {t : Int} (s : State) (h0 : 0 ≤ t) (h1 : t ≤ 0xFFFFFF) :
    jumpTo t s = .next { s with pc := BitVec.ofInt 24 t } := by
  unfold jumpTo targetPc
  rw [if_pos ⟨h0, h1⟩]

theorem jumpTo_outOfRange {t : Int} (s : State) (h : t < 0 ∨ 0xFFFFFF < t) : jumpTo t s = .refused .pcOutOfRange := by
  unfold jumpTo targetPc
  rw [if_neg]
  unfold pcMax
  omega

/-- Settles O47: the entry has no mark, and the condition chooses the pc. -/
theorem branchGoesByItsCondition : Obligations.BranchGoesByItsCondition := by
  refine ⟨⟨rfl, rfl⟩, fun s op r1 r2 imm e he => ?_⟩
  intro rs taken
  have hexec : exec (.branch op r1 r2 imm) s = if taken then takeBranch imm s else advance s := by
    rw [exec_branch, he, withEntry_run rfl (by simp [mayRun, findBranch_unmarked he]) (.inr rfl)]
    rfl
  rw [hexec]
  refine ⟨fun ht hn => ?_, fun ht hp => ?_, fun ht hr => ?_, fun b ht hr => ?_⟩
  · rw [if_neg (by simp [ht])]
    exact advance_of_hasNext hn rfl
  · rw [if_neg (by simp [ht])]
    exact advance_at_the_top hp
  · simp only [if_pos ht, takeBranch, hr]
  · have hgo : takeBranch imm s = jumpTo (s.pc.toNat + relBaseBytes b + 4 * imm.toInt) s := by
      simp only [takeBranch, hr, relTarget, branchOffset_eq_four_mul]
    rw [if_pos ht, hgo]
    exact ⟨jumpTo_inRange s, jumpTo_outOfRange s⟩

/-! ## Arithmetic -/

/-- The end of an arithmetic instruction, for what its operation states of the operands. -/
theorem finishAlu_value {f : AluOp} {env : List Word} {s : State} {g : Word → State} (hz : aluDividesByZero f env = false)
    (hd : exprHolds env f.defined = true) : finishAlu (runAlu f env) s g = advance (g (evalExpr env f.value)) := by
  rw [runAlu_value hz hd]
  rfl

theorem finishAlu_next {f : AluOp} {env : List Word} {s : State} {g : Word → State} (hz : aluDividesByZero f env = false)
    (hd : exprHolds env f.defined = true) (hn : hasNext s = true) (hpc : ∀ v, (g v).pc = s.pc) :
    finishAlu (runAlu f env) s g = .next { g (evalExpr env f.value) with pc := s.pc + 4 } :=
  (finishAlu_value hz hd).trans (advance_of_hasNext hn (hpc _))

theorem finishAlu_divides {f : AluOp} {env : List Word} {s : State} {g : Word → State} (hz : aluDividesByZero f env = true) :
    finishAlu (runAlu f env) s g = takeException .divisionByZero s := by
  rw [runAlu_divides hz]
  rfl

theorem finishAlu_silent {f : AluOp} {env : List Word} {s : State} {g : Word → State} (hz : aluDividesByZero f env = false)
    (hd : exprHolds env f.defined = false) : finishAlu (runAlu f env) s g = .refused .entrySilent := by
  rw [runAlu_silent hz hd]
  rfl

/-- Settles O51: the immediate is the second operand, so a divisor of imm 0 is 0. -/
theorem arithmeticWithAnImmediate : Obligations.ArithmeticWithAnImmediate := by
  intro s op r1 r2 imm e he hm rs env
  have hexec : exec (.arithImm op r1 r2 imm) s = finishAlu (runAlu e.body env) s fun v => s.writeReg rs.1 v := by
    rw [exec_arithImm, he, withEntry_run rfl hm (.inr rfl)]
    rfl
  rw [hexec]
  refine ⟨fun hz hd hn => finishAlu_next hz hd hn fun _ => writeReg_pc _ _ _, fun hz hd hp => ?_, fun h hi => ?_,
    finishAlu_divides, finishAlu_silent⟩
  · rw [finishAlu_value hz hd]
    exact advance_at_the_top (by rw [writeReg_pc]; exact hp)
  · refine finishAlu_divides (aluDividesByZero_operand h ?_)
    subst hi
    rfl

/-- Settles O52: the zero bits, then the operation. -/
theorem threeRegisterArithmetic : Obligations.ThreeRegisterArithmetic := by
  intro s op r1 r2 r3 r4 e f he hb hm rd a b
  have hexec : r4 = 0 → exec (.arithReg op r1 r2 r3 r4) s = finishAlu (runAlu f [a, b]) s fun v => s.writeReg rd v := fun hz => by
    rw [exec_arithReg, he, withEntry_run (regZeroOk_of fun _ => hz) hm (.inr rfl), hb]
    rfl
  refine ⟨fun hr => ?_, fun hr hz hd hn => ?_, fun hr h hb0 => ?_, fun hr hz => ?_, fun hr hz hd => ?_⟩
  · rw [exec_arithReg, he]
    exact if_pos (by simpa [hb, regZeroOk] using hr)
  · exact (hexec hr).trans (finishAlu_next hz hd hn fun _ => writeReg_pc _ _ _)
  · exact (hexec hr).trans (finishAlu_divides (aluDividesByZero_operand h hb0))
  · exact (hexec hr).trans (finishAlu_divides hz)
  · exact (hexec hr).trans (finishAlu_silent hz hd)

/-- Settles O54, from the library's facts on sums and differences of words. -/
theorem additionAndSubtractionWrap : Obligations.AdditionAndSubtractionWrap := by
  intro a b
  refine ⟨?_, ?_⟩
  · refine (runAlu_value rfl rfl).trans (congrArg _ ?_)
    exact BitVec.eq_of_toNat_eq (by simp [AluOp.add, evalExpr, evalBin])
  · refine (runAlu_value rfl rfl).trans (congrArg _ ?_)
    exact BitVec.eq_of_toInt_eq (by simp [evalExpr, evalBin])

/-! ## Programs that read registers and write one -/

/-- A read appends the register to the operands. -/
theorem runProg_readReg (r : RegSel) (rest : Prog) (f : Fields) (env : List Word) (s : State) :
    runProg (.op (.readReg r) rest) (Ctx.start s f env) = runProg rest (Ctx.start s f (env ++ [s.readReg (f.sel r)])) :=
  runProg_op (.inl rfl) rfl rfl

theorem runProg_writeReg {r : RegSel} {x : Expr} (f : Fields) {env : List Word} (s : State) (hz : dividesByZero env x = false) :
    runProg (.op (.writeReg r x) .done) (Ctx.start s f env)
      = .go ((Ctx.start s f env).withCur (s.writeReg (f.sel r) (evalExpr env x))) :=
  runProg_op (.inl rfl) (by simp [MicroOp.exprs, hz]) rfl

theorem execProg_readReg (r : RegSel) (rest : Prog) (f : Fields) (env : List Word) (s : State) :
    execProg (.op (.readReg r) rest) f env s = execProg rest f (env ++ [s.readReg (f.sel r)]) s :=
  congrArg endProg (runProg_readReg r rest f env s)

/-- A program that writes a function of its operands, and nothing else. -/
theorem execProg_writeReg (r : RegSel) (x : Expr) (f : Fields) (env : List Word) (s : State) :
    (dividesByZero env x = false → hasNext s = true → execProg (.op (.writeReg r x) .done) f env s
      = .next { s.writeReg (f.sel r) (evalExpr env x) with pc := s.pc + 4 }) ∧
    (dividesByZero env x = true →
      execProg (.op (.writeReg r x) .done) f env s = takeException .divisionByZero s) := by
  refine ⟨fun hz hn => ?_, fun hz => ?_⟩
  · unfold execProg
    rw [runProg_writeReg f s hz]
    exact advance_of_hasNext hn (writeReg_pc _ _ _)
  · unfold execProg
    rw [runProg_op_divides (.inl rfl) (by simp [MicroOp.exprs, hz])]
    rfl

/-- One field written is no clash (93_implementation_defined.md U15). -/
theorem distinctDestinations_of_one {p : Prog} {k : Field} (h : p.writtenFields = [k]) (f : Fields) :
    distinctDestinations p f = true := by simp [distinctDestinations, h]

/-- Settles O53: the roles name the registers; two results go one after the other. -/
theorem fourRegisterArithmetic : Obligations.FourRegisterArithmetic := by
  intro s op r1 r2 r3 r4 e he hm rd x a b c
  have hexec : ∀ body, e.body = body → (∀ f, body ≠ .three f) →
      exec (.arithReg op r1 r2 r3 r4) s = execRegBody body ⟨r1, r2, r3, r4⟩ s := fun body hb hn => by
    rw [exec_arithReg, he, withEntry_run (regZeroOk_of fun ⟨f, hf⟩ => absurd (hb.symm.trans hf) (hn f)) hm (.inr rfl), hb]
  refine ⟨fun f hb => ?_, fun f g hb => ?_, fun f hb => ?_⟩
  · have h : exec (.arithReg op r1 r2 r3 r4) s = finishAlu (runAlu f [a, b, c]) s fun v => s.writeReg rd v :=
      hexec _ hb nofun
    rw [h]
    exact ⟨fun hz hd hn => finishAlu_next hz hd hn fun _ => writeReg_pc _ _ _,
      fun h hb0 => finishAlu_divides (aluDividesByZero_operand h hb0), finishAlu_divides, finishAlu_silent⟩
  · have h : exec (.arithReg op r1 r2 r3 r4) s = if rd = x then .refused .sameDestination
        else finishTwo (runAlu f [a, b]) (runAlu g [a, b]) s rd x := hexec _ hb nofun
    rw [h]
    refine ⟨fun hx => if_pos hx, fun hx hf hg hdf hdg hn => ?_, fun hx hz hdf hdg => ?_, fun hx hf hg hd => ?_⟩
    · rw [if_neg hx, runAlu_value hf hdf]
      exact finishAlu_next hg hdg hn fun _ => by simp
    · rw [if_neg hx]
      cases hf : aluDividesByZero f [a, b] with
      | true => rw [runAlu_divides hf]; rfl
      | false =>
        rw [runAlu_value hf hdf]
        exact finishAlu_divides (hz.resolve_left (by simp [hf]))
    · rw [if_neg hx]
      cases hdf : exprHolds [a, b] f.defined with
      | false => rw [runAlu_silent hf hdf]; rfl
      | true =>
        rw [runAlu_value hf hdf]
        exact finishAlu_silent hg (hd.resolve_left (by simp [hdf]))
  · have h : exec (.arithReg op r1 r2 r3 r4) s = execProg (.op (.writeReg (.field .r1) f) .done)
        ((Fields.mk r1 r2 r3 r4).inRoles s.platform.roles.four) [a, b, c] s := by
      rw [hexec _ hb nofun]
      unfold execRegBody execFourProg
      dsimp only
      rw [if_pos (distinctDestinations_of_one (k := .r1) rfl _), execProg_readReg, execProg_readReg, execProg_readReg]
      rfl
    rw [h]
    exact execProg_writeReg _ _ _ _ _

end Sys2Proof.Machine
end

section
/-! PROOFS. Loads and stores of main memory without translation and of data memory (43_i.md R127 to R129, 44_s.md R135, R136). -/

namespace Sys2Proof.Machine

/-! ## The extended value -/

theorem extend_zero_eq_lowBits (w : Width) (v : Word) : extend .zero w v = lowBits w v := by
  cases w <;> rfl

/-- The signed number of the low k bits, filled by sign. -/
theorem toInt_signExtend_extractLsb' {k : Nat} (hk : k ≤ 32) (hk0 : 0 < k) (v : Word) :
    ((v.extractLsb' 0 k).signExtend 32).toInt
      = if v.toNat % 2 ^ k < 2 ^ (k - 1) then ((v.toNat % 2 ^ k : Nat) : Int) else ((v.toNat % 2 ^ k : Nat) : Int) - 2 ^ k := by
  have hpow : 2 ^ k = 2 * 2 ^ (k - 1) := by rw [← pow_succ', Nat.sub_add_cancel hk0]
  rw [BitVec.toInt_signExtend_of_le hk, BitVec.toInt_eq_toNat_cond, BitVec.extractLsb'_toNat, Nat.shiftRight_zero]
  simp only [hpow, Nat.mul_lt_mul_left (show 0 < 2 by decide), Nat.cast_mul, Nat.cast_pow, Nat.cast_ofNat,
    show (2 : Int) ^ k = 2 * 2 ^ (k - 1) by exact_mod_cast hpow]

theorem toInt_extend_sign (w : Width) (v : Word) :
    (extend .sign w v).toInt = if v.toNat % 2 ^ (8 * widthBytes w) < 2 ^ (8 * widthBytes w - 1)
      then ((v.toNat % 2 ^ (8 * widthBytes w) : Nat) : Int)
      else ((v.toNat % 2 ^ (8 * widthBytes w) : Nat) : Int) - 2 ^ (8 * widthBytes w) := by
  cases w with
  | byte => exact toInt_signExtend_extractLsb' (by decide) (by decide) v
  | half => exact toInt_signExtend_extractLsb' (by decide) (by decide) v
  | word =>
    have h := toInt_signExtend_extractLsb' (k := 32) (by decide) (by decide) v
    rwa [BitVec.extractLsb'_eq_self, BitVec.signExtend_eq] at h

/-! ## The instructions, down to their access -/

section
variable {s : State} {op : Opcode} {r1 r2 : RegIx} {imm : BitVec 15}

/-- A load that its entry and the mode allow. -/
theorem exec_load_run {e : Entry LoadBody} {sp : Space} {w : Width} {x : Ext} (he : findLoad s.platform.opmap op = .entry e)
    (hb : e.body = .load sp w x) (hm : mayRun s e.supervisorOnly = true) (hs : s.supervisor = true ∨ sp = .main) :
    exec (.load op r1 r2 imm) s
      = (loadFrom sp w (s.readReg (pairRoles s.platform.roles.i r1 r2).2 + imm.signExtend 32) (Work.start s)).finish
          fun v k => advance (k.cur.writeReg (pairRoles s.platform.roles.i r1 r2).1 (extend x w v)) := by
  rw [exec_load, he, withEntry_run rfl hm (hs.imp id fun h => by rw [hb, h]; rfl), hb]
  rfl

/-- A store that its entry and the mode allow. -/
theorem exec_store_run {e : Entry StoreBody} (he : findStore s.platform.opmap op = .entry e)
    (hm : mayRun s e.supervisorOnly = true) (hs : s.supervisor = true ∨ e.body.space = .main) :
    exec (.store op r1 r2 imm) s
      = (storeTo e.body.space e.body.width (s.readReg (pairRoles s.platform.roles.s r1 r2).2 + imm.signExtend 32)
          (s.readReg (pairRoles s.platform.roles.s r1 r2).1) (Work.start s)).finish fun _ k => advance k.cur := by
  rw [exec_store, he, withEntry_run rfl hm (hs.imp id fun h => by rw [storeNeedsSupervisor, h]; rfl)]
  rfl

end

/-! ## Main memory without translation -/

/-- Settles O48: the extensions as numbers, and the plain read. -/
theorem loadFromMain : Obligations.LoadFromMain := by
  refine ⟨fun w v => ⟨?_, toInt_extend_sign w v, fun x => rfl⟩, fun s op r1 r2 imm e w x he hb hm hn => ?_⟩
  · rw [extend_zero_eq_lowBits, lowBits_toNat]
  · intro rs a hp
    have hr : loadFrom .main w a (Work.start s) = .ok _ (Work.start s) := memRead_plain (k := Work.start s) hp
    rw [exec_load_run he hb hm (.inr rfl), hr]
    exact advance_of_hasNext hn (writeReg_pc _ _ _)

/-- Settles O55: the plain write, and what a stored value reads back as. -/
theorem storeToMain : Obligations.StoreToMain := by
  intro s op r1 r2 imm e he hsp hm hn hwf rs a hp
  obtain ⟨-, hlt, hal, -⟩ := mainPlain_iff.1 hp
  obtain ⟨hback, hout, -⟩ := storedValueReadsBack s.main s.platform.endian e.body.width a.toNat (s.readReg rs.1) hwf
    (aligned_fits hal hlt (by decide))
  refine ⟨_, ?_, hback, hout⟩
  have hw : storeTo .main e.body.width a (s.readReg rs.1) (Work.start s) = .ok () _ :=
    memWrite_plain (k := Work.start s) (s.readReg rs.1) hp
  rw [exec_store_run he hm (.inr hsp), hsp, hw]
  exact advance_of_hasNext hn rfl

/-! ## Data memory -/

/-- A register write and a record of device accesses do not meet. -/
theorem writeReg_deviceRecord (s : State) (i : RegIx) (v : Word) (log : List DeviceEvent) (n : Nat) :
    { s with deviceLog := log, freeCount := n }.writeReg i v = { s.writeReg i v with deviceLog := log, freeCount := n } := by
  cases hk : regSlot i with
  | some k => rw [writeReg_of_slot v hk, writeReg_of_slot v hk]
  | none =>
    rcases regSlot_eq_none hk with rfl | rfl
    · rfl
    · change State.writeReg _ spIx v = { s.writeReg spIx v with deviceLog := log, freeCount := n }
      rw [writeReg_sp, writeReg_sp]
      split <;> rfl

/-- Settles O50: in supervisor mode the instruction is its `DataRead`, which never raises and leaves device reads only. -/
theorem loadFromData : Obligations.LoadFromData := by
  intro s op r1 r2 imm e w x he hb hn rs a
  refine ⟨fun hs => ?_, fun hs => ?_⟩
  · rw [exec_load, he]
    exact withEntry_user rfl hs (.inr (by rw [hb]; rfl))
  have hexec : exec (.load op r1 r2 imm) s = (dataRead w a (Work.start s)).finish fun v k =>
      advance (k.cur.writeReg rs.1 (extend x w v)) := exec_load_run he hb (mayRun_of_supervisor hs _) (.inl hs)
  have hok : ∀ v k, dataRead w a (Work.start s) = .ok v k →
      k.cur = { s with deviceLog := k.cur.deviceLog, freeCount := k.cur.freeCount } ∧
      exec (.load op r1 r2 imm) s = .next { k.cur.writeReg rs.1 (extend x w v) with pc := s.pc + 4 } := fun v k h => by
    have hread : s.ReadFrame k.cur := ((dataRead_sat w a (Work.start s)).ok h).cur
    rw [hexec, h]
    exact ⟨hread.eq, advance_of_hasNext hn ((writeReg_pc _ _ _).trans hread.pc)⟩
  have href : ∀ r, dataRead w a (Work.start s) = .refused r → exec (.load op r1 r2 imm) s = .refused r := fun r h => by
    rw [hexec, h]
    rfl
  refine ⟨hok, href, fun h => href _ (dataRead_refused (dataCheck_wide _ _ h)),
    fun exc k h => (dataRead_sat w a (Work.start s)).raised h, fun hp hd => ?_, fun hp hd => ?_⟩
  · exact (hok _ _ (dataRead_storage (k := Work.start s) hp hd)).2
  · obtain ⟨hlen, hcur⟩ := dataReadList_device (k := Work.start s) hd
    have hr : dataRead w a (Work.start s) = .ok (ofBytes s.platform.endian (dataReadList a.toNat (widthBytes w) (Work.start s)).1)
        (dataReadList a.toNat (widthBytes w) (Work.start s)).2 := by
      simp only [dataRead, Work.start, dataCheck_plain hp]
    refine ⟨_, hlen, (hok _ _ hr).2.trans ?_⟩
    rw [hcur, writeReg_deviceRecord]
    rfl

/-- A write of data memory that answers has written its bytes one by one. -/
theorem dataWrite_ok {w : Width} {a v : Word} {k k' : Work} (h : dataWrite w a v k = .ok () k') :
    k'.cur = k.cur.dataWriteList a.toNat (toBytes k.cur.platform.endian w v) := by
  unfold dataWrite at h
  split at h
  · cases h
  · cases h; rfl

/-- The fields a write of data memory may have changed. -/
theorem State.Frame.eq_of_store {s t : State} (h : s.Frame t) (hm : t.main = s.main) (hf : t.freeCount = s.freeCount) :
    t = { s with data := t.data, deviceLog := t.deviceLog } := by
  obtain ⟨h1, h2, h3, h4, h5, h6, h7, h8, h9, h10, -, -⟩ := h
  cases t
  cases s
  simp_all

/-- Settles O56: in supervisor mode the instruction is its `DataWrite`, which never raises and leaves main memory. -/
theorem storeToData : Obligations.StoreToData := by
  intro s op r1 r2 imm e he hsp hn hwf rs a w
  refine ⟨fun hs => ?_, fun hs => ?_⟩
  · rw [exec_store, he]
    exact withEntry_user rfl hs (.inr (by rw [storeNeedsSupervisor, hsp]; rfl))
  have hexec : exec (.store op r1 r2 imm) s
      = (dataWrite w a (s.readReg rs.1) (Work.start s)).finish fun _ k => advance k.cur := by
    rw [exec_store_run he (mayRun_of_supervisor hs _) (.inl hs), hsp]
    rfl
  have hok : ∀ k, dataWrite w a (s.readReg rs.1) (Work.start s) = .ok () k →
      k.cur = { s with data := k.cur.data, deviceLog := k.cur.deviceLog } ∧
      exec (.store op r1 r2 imm) s = .next { k.cur with pc := s.pc + 4 } := fun k h => by
    have hframe : s.Frame k.cur := ((dataWrite_sat w a (s.readReg rs.1) (Work.start s)).ok h).cur
    have hcur := dataWrite_ok h
    rw [hexec, h]
    exact ⟨hframe.eq_of_store (by rw [hcur, dataWriteList_main]; rfl) (by rw [hcur, dataWriteList_freeCount]; rfl),
      advance_of_hasNext hn hframe.pc⟩
  have href : ∀ r, dataWrite w a (s.readReg rs.1) (Work.start s) = .refused r → exec (.store op r1 r2 imm) s = .refused r :=
    fun r h => by
      rw [hexec, h]
      rfl
  refine ⟨hok, href, fun h => href _ (dataWrite_refused _ (dataCheck_wide _ _ h)),
    fun exc k h => (dataWrite_sat w a _ (Work.start s)).raised h, fun hp hd => ?_, fun hp hd => ?_⟩
  · have hfits : a.toNat + widthBytes w ≤ dataSize :=
      aligned_fits (dataCheck_none (dataCheck_plain hp)).2 (dataCheck_none (dataCheck_plain hp)).1 (by decide)
    exact ⟨_, (hok _ (dataWrite_storage (k := Work.start s) _ hp hd)).2,
      (Memory.readVal_writeVal hwf _ w _ _ hfits).trans (lowBits_eq_and w _),
      fun b hb => Memory.read_writeVal_of_outside _ _ w _ _ hb⟩
  · have hlist := dataWriteList_device (s := s) (bs := toBytes s.platform.endian w (s.readReg rs.1))
      (by rw [toBytes_length]; exact hd)
    have hw : dataWrite w a (s.readReg rs.1) (Work.start s)
        = .ok () { Work.start s with cur := s.dataWriteList a.toNat (toBytes s.platform.endian w (s.readReg rs.1)) } := by
      simp only [dataWrite, Work.start, dataCheck_plain hp]
    refine (hok _ hw).2.trans ?_
    rw [hlist]

end Sys2Proof.Machine
end

section
/-! PROOFS. Main memory through the MMU, and what loads and stores of it keep (20_memory.md R45 to R48, R55, R60, R66, 43_i.md R127,
44_s.md R135). -/

namespace Sys2Proof.Machine

/-! ## Physical accesses -/

section
variable {p : Platform} {w : Width} {pa : Nat}

theorem physCheck_ok (ha : pa % widthBytes w = 0) (hi : allInstalled p.mainInstalled pa (widthBytes w) = true) :
    physCheck p w pa = none := (if_neg (not_not.2 ha)).trans (if_pos hi)

theorem physCheck_misaligned (p : Platform) (ha : pa % widthBytes w ≠ 0) : physCheck p w pa = some .misaligned := if_pos ha

theorem physCheck_absent (ha : pa % widthBytes w = 0) (hi : allInstalled p.mainInstalled pa (widthBytes w) = false) :
    physCheck p w pa = some .notInstalled := (if_neg (not_not.2 ha)).trans (if_neg (by simp [hi]))

end

theorem physRead_refused {k : Work} {w : Width} {pa : Nat} {r : Refusal} (e : Endian)
    (h : physCheck k.cur.platform w pa = some r) : physRead e w pa k = .refused r := by
  simp only [physRead, h]

theorem physWrite_refused {k : Work} {w : Width} {pa : Nat} {r : Refusal} (v : Word)
    (h : physCheck k.cur.platform w pa = some r) : physWrite w pa v k = .refused r := by
  simp only [physWrite, h]

/-! ## Translated accesses -/

section
variable {k : Work} {w : Width} {a : Word}

theorem mainAddr_on {kind : AccessKind} {va : Pc} (h : psrMmu k.cur.psr = true) :
    mainAddr kind va k = mmuTranslate kind va k := if_pos h

theorem memRead_translated (hm : psrMmu k.cur.psr = true) (hlt : a.toNat < mainSize) (ha : a.toNat % widthBytes w = 0) :
    memRead w a k = (mmuTranslate .read (a.extractLsb' 0 24) k).andThen fun pa k1 => physRead k1.cur.platform.endian w pa k1 := by
  unfold memRead
  rw [inMainAligned_fits _ hlt ha, mainAddr_on hm]

theorem memWrite_translated (v : Word) (hm : psrMmu k.cur.psr = true) (hlt : a.toNat < mainSize)
    (ha : a.toNat % widthBytes w = 0) :
    memWrite w a v k = (mmuTranslate .write (a.extractLsb' 0 24) k).andThen fun pa k1 => physWrite w pa v k1 := by
  unfold memWrite
  rw [inMainAligned_fits _ hlt ha, mainAddr_on hm]

theorem fetchAt_translated (hm : psrMmu k.cur.psr = true) (hlt : a.toNat < mainSize) (ha : a.toNat % 4 = 0) :
    fetchAt (a.extractLsb' 0 24) k
      = (mmuTranslate .fetch (a.extractLsb' 0 24) k).andThen fun pa k1 => physRead .big .word pa k1 := by
  unfold fetchAt
  rw [low24_toNat hlt, if_neg (not_not.2 ha), mainAddr_on hm]

/-- An access of each kind goes as its translation does. -/
theorem accesses_translated {kind : AccessKind} {x : Access Nat} (v : Word) (hm : psrMmu k.cur.psr = true)
    (hlt : a.toNat < mainSize) (h : mmuTranslate kind (a.extractLsb' 0 24) k = x) :
    (kind = .read → a.toNat % widthBytes w = 0 →
      memRead w a k = x.andThen fun pa k1 => physRead k1.cur.platform.endian w pa k1) ∧
    (kind = .write → a.toNat % widthBytes w = 0 → memWrite w a v k = x.andThen fun pa k1 => physWrite w pa v k1) ∧
    (kind = .fetch → a.toNat % 4 = 0 →
      fetchAt (a.extractLsb' 0 24) k = x.andThen fun pa k1 => physRead .big .word pa k1) := by
  subst h
  refine ⟨?_, ?_, ?_⟩ <;> rintro rfl ha
  · exact memRead_translated hm hlt ha
  · exact memWrite_translated v hm hlt ha
  · exact fetchAt_translated hm hlt ha

end

/-! ## What a raised access and a completed read leave -/

theorem inMainAligned_raised {α : Type} {w : Width} {a : Word} {f : Pc → Access α} {e : Exc} {k : Work}
    (h : inMainAligned w a f = .raised e k) : f (low24 a) = .raised e k := by
  unfold inMainAligned inMain at h
  split at h
  · cases h
  · dsimp only at h
    split at h
    · cases h
    · exact h

theorem mainAddr_raised {kind : AccessKind} {va : Pc} {e : Exc} {k k' : Work} (h : mainAddr kind va k = .raised e k') :
    psrMmu k.cur.psr = true ∧ mmuTranslate kind va k = .raised e k' := by
  unfold mainAddr at h
  split at h
  · next hm => exact ⟨hm, h⟩
  · cases h

/-- Page Fault whatever the kind; Access Violation in user mode, and of no read. -/
theorem pteCheck_some {sup : Bool} {kind : AccessKind} {pte : Word} {e : Exc} (h : pteCheck sup kind pte = some e) :
    e = .pageFault ∨ (e = .accessViolation ∧ sup = false ∧ kind ≠ .read) := by
  cases hp : ptePresent pte with
  | false =>
    rw [pteCheck_absent hp] at h
    cases h
    exact .inl rfl
  | true =>
    cases sup with
    | true =>
      rw [pteCheck_supervisor hp] at h
      cases h
    | false =>
      rw [pteCheck_user hp] at h
      cases kind with
      | read => cases h
      | write | fetch =>
        dsimp only at h
        split at h
        · cases h
        · cases h
          exact .inr ⟨rfl, rfl, nofun⟩

/-- What a translation raises, in the mode the access started in. -/
theorem mmuTranslate_exception {kind : AccessKind} {va : Pc} {e : Exc} {k k' : Work} (h : mmuTranslate kind va k = .raised e k') :
    e = .pageFault ∨ (e = .accessViolation ∧ k.cur.supervisor = false ∧ kind ≠ .read) := by
  obtain ⟨pde, pte, h1, -, hc⟩ := mmuTranslate_raised h
  have hsup : k'.cur.supervisor = k.cur.supervisor := congrArg psrS ((readPde_sat va k).ok h1).cur.psr
  exact hsup ▸ pteCheck_some hc

theorem memRead_raised {w : Width} {a : Word} {e : Exc} {k k' : Work} (h : memRead w a k = .raised e k') :
    psrMmu k.cur.psr = true ∧ e = .pageFault := by
  rcases Access.andThen_raised (inMainAligned_raised h) with h | ⟨pa, k1, -, h⟩
  · obtain ⟨hm, ht⟩ := mainAddr_raised h
    exact ⟨hm, (mmuTranslate_exception ht).resolve_right fun hx => hx.2.2 rfl⟩
  · exact ((physRead_sat _ _ _ _).raised h).elim

theorem memWrite_raised {w : Width} {a v : Word} {e : Exc} {k k' : Work} (h : memWrite w a v k = .raised e k') :
    psrMmu k.cur.psr = true ∧ (e = .pageFault ∨ (e = .accessViolation ∧ k.cur.supervisor = false)) := by
  rcases Access.andThen_raised (inMainAligned_raised h) with h | ⟨pa, k1, ha, h⟩
  · obtain ⟨hm, ht⟩ := mainAddr_raised h
    exact ⟨hm, (mmuTranslate_exception ht).imp id fun hx => ⟨hx.1, hx.2.1⟩⟩
  · exact ((physWrite_sat _ _ _ _ ((mainAddr_sat _ _ _).ok ha).2).raised h).elim

/-- No read sets a dirty bit. -/
theorem mainAddr_reads {va : Pc} {pa : Nat} {k k' : Work} (h : mainAddr .read va k = .ok pa k') : k.Reads k' := by
  unfold mainAddr at h
  split at h
  · obtain ⟨pde, pte, k1, h1, -, -, -, hk⟩ := mmuTranslate_ok h
    rw [hk, setDirtyIfNeeded, if_neg (by simp)]
    exact (readPde_sat va k).ok h1
  · cases h
    exact .refl k

theorem memRead_reads {w : Width} {a v : Word} {k k' : Work} (h : memRead w a k = .ok v k') : k.Reads k' := by
  obtain ⟨pa, k1, ha, hr⟩ := Access.andThen_ok (inMainAligned_ok h).2
  obtain rfl := (physRead_sat _ _ _ _).ok hr
  exact mainAddr_reads ha

/-- The fields a write of main memory may have changed. -/
theorem State.MainFrame.eq {s t : State} (h : s.MainFrame t) :
    t = { s with main := t.main, deviceLog := t.deviceLog, freeCount := t.freeCount } := by
  obtain ⟨⟨h1, h2, h3, h4, h5, h6, h7, h8, h9, h10, -, -⟩, h11⟩ := h
  cases t
  cases s
  simp_all

/-- Settles O49: the accesses are equations of the primitives; what they leave is read off them. -/
theorem mainAccessesGoThroughThePrimitives : Obligations.MainAccessesGoThroughThePrimitives := by
  refine ⟨fun k w a v hm hlt => ⟨fun kind pa k1 h => ?_, fun kind e k1 h => ?_, fun kind r h => ?_, fun ha => ?_⟩,
    fun k e w pa v => ⟨fun ha hi => ?_, fun ha => ?_, fun ha hi => ?_⟩, fun s op r1 r2 imm hn => ⟨?_, ?_⟩⟩
  · exact accesses_translated v hm hlt h
  · exact accesses_translated v hm hlt h
  · exact accesses_translated v hm hlt h
  · exact ⟨inMainAligned_misaligned _ hlt ha, inMainAligned_misaligned _ hlt ha⟩
  · have hc := physCheck_ok ha hi
    exact ⟨by simp only [physRead, hc], by simp only [physWrite, hc]⟩
  · exact ⟨physRead_refused e (physCheck_misaligned _ ha), physWrite_refused v (physCheck_misaligned _ ha)⟩
  · exact ⟨physRead_refused e (physCheck_absent ha hi), physWrite_refused v (physCheck_absent ha hi)⟩
  · intro e w x he hb hmay rs a
    have hexec : exec (.load op r1 r2 imm) s = (memRead w a (Work.start s)).finish fun v k =>
        advance (k.cur.writeReg rs.1 (extend x w v)) := exec_load_run he hb hmay (.inr rfl)
    rw [hexec]
    refine ⟨fun v k h => ?_, fun exc k h => ?_, fun r h => by rw [h]; rfl⟩
    · have hread : s.ReadFrame k.cur := (memRead_reads h).cur
      rw [h]
      exact ⟨advance_of_hasNext hn ((writeReg_pc _ _ _).trans hread.pc), hread.eq⟩
    · have hread : s.ReadFrame k.base := ((memRead_sat w a (Work.start s)).raised h).base
      have hexc := memRead_raised h
      rw [h]
      exact ⟨rfl, hread.eq, hexc⟩
  · intro e w he hb hmay rs a
    have hexec : exec (.store op r1 r2 imm) s
        = (memWrite w a (s.readReg rs.1) (Work.start s)).finish fun _ k => advance k.cur := by
      rw [exec_store_run he hmay (.inr (by rw [hb])), hb]
      rfl
    rw [hexec]
    refine ⟨fun k h => ?_, fun exc k h => ?_, fun r h => by rw [h]; rfl⟩
    · have hframe : s.MainFrame k.cur := ((memWrite_sat w a _ (Work.start s)).ok h).cur
      have hout := fun b hb => memWrite_untouched (b := b) h hb
      rw [h]
      exact ⟨advance_of_hasNext hn hframe.pc, hframe.eq, hout⟩
    · have hread : s.ReadFrame k.base := ((memWrite_sat w a _ (Work.start s)).raised h).base
      have hexc := memWrite_raised h
      rw [h]
      exact ⟨rfl, hread.eq, hexc⟩

end Sys2Proof.Machine
end

section
/-! PROOFS. The psr and requested traps (47_t.md R152, R153), entries that are programs of registers or store through one (40_u.md R110,
41_j.md R115, R116, 43_i.md R126, 46_m.md R145, 47_t.md R150). -/

namespace Sys2Proof.Machine

/-! ## The psr -/

/-- A T entry that the mode allows. -/
theorem exec_sys_run {s : State} {op : Opcode} {r1 : RegIx} {v : Byte} {e : Entry SysBody}
    (he : findSys s.platform.opmap op r1 v = .entry e) (hm : mayRun s e.supervisorOnly = true)
    (hs : s.supervisor = true ∨ sysNeedsSupervisor e.body = false) : exec (.sys op r1 v) s = execSysBody e.body r1 v s := by
  rw [exec_sys, he]
  exact withEntry_run rfl hm hs

theorem writePsr_clear {v : Word} (s : State) (h : psrRes v = 0) : writePsr v s = .ok { s with psr := v } := if_neg (not_not.2 h)

theorem writePsr_reserved {v : Word} (s : State) (h : psrRes v ≠ 0) : writePsr v s = .error .psrReserved := if_pos h

/-- Settles O38: the privilege, then the reserved bits. -/
theorem psrWrite : Obligations.PsrWrite := by
  intro s op r1 v e he hb
  have hexec : s.supervisor = true → exec (.sys op r1 v) s = sysWritePsr r1 s := fun hs => by
    rw [exec_sys_run he (mayRun_of_supervisor hs _) (.inl hs), hb]
    rfl
  refine ⟨fun hs hr hn => ?_, fun hs hr => ?_, fun hs => ?_⟩
  · rw [hexec hs, sysWritePsr, writePsr_clear s hr]
    exact advance_of_hasNext hn rfl
  · rw [hexec hs, sysWritePsr, writePsr_reserved s hr]
  · rw [exec_sys, he]
    exact withEntry_user rfl hs (.inr (by rw [hb]; rfl))

/-- Settles O39: a register write, and the next instruction. -/
theorem psrRead : Obligations.PsrRead := by
  intro s op r1 v e he hb hm hn
  rw [exec_sys_run he hm (.inr (by rw [hb]; rfl)), hb]
  exact advance_of_hasNext hn (writeReg_pc _ _ _)

/-! ## Requested traps -/

theorem requestTrap_default {v : Byte} {q : BitVec 3} {h : Pc} {s : State} (hn : hasNext s = true)
    (hd : s.platform.frame = .default) (hf : frameFits s = true) (hh : handlerAt s v h = true) :
    requestTrap v q s = .next (entryState q (s.pc + 4) h s) := by
  simp only [requestTrap, nextPc_of_hasNext hn rfl, enterTrap, trapEnter_default v q (s.pc + 4) hd hf hh]

/-- The word's byte as a vector. -/
theorem low8_zeroExtend (v : Byte) : (v.zeroExtend 32 : Word).extractLsb' 0 8 = v := by
  apply BitVec.eq_of_toNat_eq
  have := v.isLt
  simp only [BitVec.extractLsb'_toNat, BitVec.truncate_eq_setWidth, BitVec.toNat_setWidth, Nat.shiftRight_zero]
  omega

/-- A program goes on in the handler's first state. -/
theorem runProg_requestTrap {tp : TrapPrio} {v : Byte} {h : Pc} {s : State} (rest : Prog) (f : Fields) (hn : hasNext s = true)
    (hd : s.platform.frame = .default) (hf : frameFits s = true) (hh : handlerAt s v h = true)
    (hz : tp.exprs.any (dividesByZero [v.zeroExtend 32]) = false) :
    runProg (.op (.requestTrap (.opnd 0) tp) rest) (Ctx.start s f [v.zeroExtend 32])
      = runProg rest ((Ctx.start s f [v.zeroExtend 32]).landed { Work.start s with
          cur := entryState (trapPrioValue tp [v.zeroExtend 32] (psrP s.psr)) (s.pc + 4) h s }) := by
  refine runProg_op (.inl rfl) (by simpa [MicroOp.exprs, dividesByZero] using hz) ?_
  have hpc : (Work.start s).base.nextPc = some (s.pc + 4) := nextPc_of_hasNext hn rfl
  have hv : (evalExpr [v.zeroExtend 32] (.opnd 0)).extractLsb' 0 8 = v := low8_zeroExtend v
  simp only [runOp, Ctx.start_work, Ctx.start_env, hpc, hv]
  rw [trapEnterIn_plain v _ _ hf hh, enteredState_default _ _ _ hd]
  rfl

/-- A primitive that ends the instruction ends the program. -/
theorem runProg_op_stops {o : MicroOp} {rest : Prog} {c : Ctx} {r : Result}
    (hs : o.needsSupervisor = false ∨ c.work.cur.supervisor = true) (hz : o.exprs.any (dividesByZero c.env) = false)
    (h : runOp o c = .stop r) : runProg (.op o rest) c = .stop r := by
  rw [runProg, Ctx.checked, if_neg (by rcases hs with hs | hs <;> simp [hs]), if_neg (by simp [hz]), h]

/-- A program that writes a word computed from the psr to the psr, in supervisor mode. -/
theorem runProg_psrFromPsr {x : Expr} {c : Ctx} (hs : c.work.cur.supervisor = true)
    (hz : dividesByZero (c.env ++ [c.work.cur.psr]) x = false) :
    (psrRes (evalExpr (c.env ++ [c.work.cur.psr]) x) = 0 → runProg (.op .readPsr (.op (.writePsr x) .done)) c
      = .go ((c.push c.work.cur.psr).withCur { c.work.cur with psr := evalExpr (c.env ++ [c.work.cur.psr]) x })) ∧
    (psrRes (evalExpr (c.env ++ [c.work.cur.psr]) x) ≠ 0 →
      runProg (.op .readPsr (.op (.writePsr x) .done)) c = .stop (.refused .psrReserved)) := by
  have hread : runProg (.op .readPsr (.op (.writePsr x) .done)) c
      = runProg (.op (.writePsr x) .done) (c.push c.work.cur.psr) := runProg_op (.inl rfl) rfl rfl
  have hz' : (MicroOp.writePsr x).exprs.any (dividesByZero (c.push c.work.cur.psr).env) = false := by
    simpa [MicroOp.exprs] using hz
  rw [hread]
  refine ⟨fun hr => runProg_op (.inr hs) hz' ?_, fun hr => runProg_op_stops (.inr hs) hz' ?_⟩
  · simp only [runOp, Ctx.push_env, Ctx.push_work, writePsr_clear _ hr]
  · simp only [runOp, Ctx.push_env, Ctx.push_work, writePsr_reserved _ hr]

/-- Settles O40: the trap is the instruction's whole effect, or the program's first. -/
theorem requestedTrap : Obligations.RequestedTrap := by
  intro s op r1 v e h he hm hn hd hf
  refine ⟨fun tv tp hb => ?_, fun tp f hb hs hh hz => ?_⟩
  · intro env hh
    rw [exec_sys_run he hm (.inr (by rw [hb]; rfl)), hb]
    exact requestTrap_default hn hd hf hh
  · have hsup : (entryState (trapPrioValue tp [v.zeroExtend 32] (psrP s.psr)) (s.pc + 4) h s).supervisor = true := by
      simp [entryState, State.supervisor]
    have hexec := exec_sys_run he hm (.inl hs)
    rw [hb] at hexec
    have hexec := hexec.trans (congrArg endProg (runProg_requestTrap _ ⟨r1, 0, 0, 0⟩ hn hd hf hh hz))
    generalize entryState (trapPrioValue tp [v.zeroExtend 32] (psrP s.psr)) (s.pc + 4) h s = t at hsup hexec ⊢
    intro _ hzf
    have hpsr := runProg_psrFromPsr (x := f) (c := (Ctx.start s ⟨r1, 0, 0, 0⟩ [v.zeroExtend 32]).landed
      { Work.start s with cur := t }) hsup hzf
    rw [hexec]
    refine ⟨fun hr => ?_, fun hr => ?_⟩
    · rw [hpsr.1 hr]
      rfl
    · rw [hpsr.2 hr]
      rfl

/-! ## Entries that are programs -/

section
variable {s : State} {op : Opcode} {r1 r2 : RegIx}

theorem exec_sys_prog {v : Byte} {e : Entry SysBody} {p : Prog} (he : findSys s.platform.opmap op r1 v = .entry e)
    (hb : e.body = .prog p) (hm : mayRun s e.supervisorOnly = true) (hs : p.needsSupervisor = false) :
    exec (.sys op r1 v) s = execProg p ⟨r1, 0, 0, 0⟩ [v.zeroExtend 32] s := by
  rw [exec_sys_run he hm (.inr (by rw [hb]; exact hs)), hb]
  rfl

theorem exec_bulk_prog {low : BitVec 15} {e : Entry BulkBody} (he : findBulk s.platform.opmap op = .entry e)
    (hm : mayRun s e.supervisorOnly = true) (hs : e.body.prog.needsSupervisor = false)
    (hz : e.body.enc = .three → low.extractLsb' 0 10 = 0#10) :
    exec (.bulk op r1 r2 low) s
      = execProg e.body.prog (bulkFields e.body.enc r1 r2 low) (bulkOperands e.body.enc low) s := by
  rw [exec_bulk, he]
  exact withEntry_run (bulkZeroOk_of hz) hm (.inr hs)

theorem exec_uj_prog {imm : BitVec 20} {e : Entry UJBody} {p : Prog} (he : findUJ s.platform.opmap op = .entry e)
    (hb : e.body = .u p) (hm : mayRun s e.supervisorOnly = true) (hs : p.needsSupervisor = false) :
    exec (.uj op r1 imm) s = execProg p ⟨r1, 0, 0, 0⟩ [imm.zeroExtend 32] s := by
  rw [exec_uj, he, withEntry_run rfl hm (.inr (by rw [hb]; exact hs)), hb]
  rfl

theorem exec_load_prog {imm : BitVec 15} {e : Entry LoadBody} {p : Prog} (he : findLoad s.platform.opmap op = .entry e)
    (hb : e.body = .alignedOffset p) (hm : mayRun s e.supervisorOnly = true) (hs : p.needsSupervisor = false) :
    exec (.load op r1 r2 imm) s
      = execProg p ⟨(pairRoles s.platform.roles.i r1 r2).1, (pairRoles s.platform.roles.i r1 r2).2, 0, 0⟩
          [imm.signExtend 32 <<< 2] s := by
  rw [exec_load, he, withEntry_run rfl hm (.inr (by rw [hb]; exact hs)), hb]
  rfl

end

/-- Settles O43: each entry is its program on its operands, which reads registers and writes one. -/
theorem entriesWriteFunctionsOfTheirOperands : Obligations.EntriesWriteFunctionsOfTheirOperands := by
  intro s op r1 r2 v imm imm20 name sup f hm hn write goes
  have writes : ∀ {i : Instr} {rd a b c : RegIx} {env : List Word}, exec i s = execProg write ⟨rd, a, b, c⟩ env s →
      goes i rd env := fun {i rd a b c env} h => by
    obtain ⟨hgo, hdiv⟩ := execProg_writeReg (.field .r1) f ⟨rd, a, b, c⟩ env s
    exact ⟨fun hz => h.trans (hgo hz hn), fun hz => h.trans (hdiv hz)⟩
  refine ⟨fun he => ?_, fun he => ?_, fun he => ?_, fun he hz => ?_, fun he => ?_⟩
  · exact writes (exec_uj_prog he rfl hm rfl)
  · exact writes ((exec_load_prog he rfl hm rfl).trans (execProg_readReg _ _ _ _ _))
  · exact writes ((exec_bulk_prog he hm rfl nofun).trans (execProg_readReg _ _ _ _ _))
  · exact writes ((exec_bulk_prog he hm rfl fun _ => hz).trans
      ((execProg_readReg _ _ _ _ _).trans (execProg_readReg _ _ _ _ _)))
  · exact writes ((exec_sys_prog he rfl hm rfl).trans (execProg_readReg _ _ _ _ _))

/-- Settles O45: two reads give the operands of a plain write. -/
theorem bulkStoresThroughARegister : Obligations.BulkStoresThroughARegister := by
  intro s op r1 r2 low e w he hm hn hb hz hp
  have hexec := exec_bulk_prog (r1 := r1) (r2 := r2) (low := low) he hm (by rw [hb]; rfl) fun _ => hz
  rw [hb] at hexec
  have hstore : runOp (.store .main w (.opnd 0) (.opnd 1))
      (Ctx.start s (bulkFields .three r1 r2 low) [s.readReg r1, s.readReg r2])
      = .go { Ctx.start s (bulkFields .three r1 r2 low) [s.readReg r1, s.readReg r2] with work := { Work.start s with
          cur := { s with main := s.main.writeVal s.platform.endian w (s.readReg r1).toNat (s.readReg r2) } } } := by
    have hw : storeTo .main w (s.readReg r1) (s.readReg r2) (Work.start s) = .ok () _ :=
      memWrite_plain (k := Work.start s) (s.readReg r2) hp
    show Access.inProg (storeTo .main w (s.readReg r1) (s.readReg r2) (Work.start s)) _ = _
    rw [hw]
    rfl
  rw [hexec, execProg_readReg, execProg_readReg]
  refine (congrArg endProg (runProg_op (.inl rfl) rfl hstore)).trans ?_
  exact advance_of_hasNext hn rfl

/-! ## Programs of registers complete -/

/-- `t` is `s` but for registers of which `w` holds. -/
structure State.WroteOnly (w : RegIx → Bool) (s t : State) : Prop where
  rest : ∃ regs ssp usp, t = { s with regs := regs, ssp := ssp, usp := usp }
  others : ∀ i, w i = false → t.readReg i = s.readReg i
  otherCopy : if s.supervisor then t.usp = s.usp else t.ssp = s.ssp

theorem State.WroteOnly.refl (w : RegIx → Bool) (s : State) : s.WroteOnly w s :=
  ⟨⟨_, _, _, rfl⟩, fun _ _ => rfl, by split <;> rfl⟩

/-- A register write leaves the other mode's stack pointer. -/
theorem writeReg_wrote (s : State) (i : RegIx) (v : Word) :
    (∃ regs ssp usp, s.writeReg i v = { s with regs := regs, ssp := ssp, usp := usp }) ∧
    if s.supervisor then (s.writeReg i v).usp = s.usp else (s.writeReg i v).ssp = s.ssp := by
  cases hk : regSlot i with
  | some k =>
    rw [writeReg_of_slot v hk]
    exact ⟨⟨_, _, _, rfl⟩, by split <;> rfl⟩
  | none =>
    rcases regSlot_eq_none hk with rfl | rfl
    · exact ⟨⟨_, _, _, rfl⟩, by split <;> rfl⟩
    · rw [writeReg_sp]
      cases hs : psrS s.psr with
      | true =>
        simp only [State.supervisor, hs, ↓reduceIte]
        exact ⟨⟨_, _, _, rfl⟩, trivial⟩
      | false =>
        simp only [State.supervisor, hs, ↓reduceIte, Bool.false_eq_true]
        exact ⟨⟨_, _, _, rfl⟩, trivial⟩

theorem State.WroteOnly.writeReg {w : RegIx → Bool} {s t : State} (h : s.WroteOnly w t) {i : RegIx} (hi : w i = true) (v : Word) :
    s.WroteOnly w (t.writeReg i v) := by
  obtain ⟨hrest, hcopy⟩ := writeReg_wrote t i v
  refine ⟨?_, fun j hj => ?_, ?_⟩
  · obtain ⟨regs, ssp, usp, rfl⟩ := h.rest
    exact hrest
  · have hne : j ≠ i := by rintro rfl; rw [hj] at hi; cases hi
    rw [readReg_writeReg_of_ne t v hne, h.others j hj]
  · have hsup : t.supervisor = s.supervisor := by
      obtain ⟨regs, ssp, usp, rfl⟩ := h.rest
      rfl
    have hc := h.otherCopy
    rw [hsup] at hcopy
    split <;> simp_all

/-- The next instruction's state after such writes. -/
theorem State.WroteOnly.onlyRegisters {w : RegIx → Bool} {s t : State} (h : s.WroteOnly w t) :
    s.OnlyRegisters w { t with pc := s.pc + 4 } := by
  refine ⟨?_, h.others, h.otherCopy⟩
  obtain ⟨regs, ssp, usp, rfl⟩ := h.rest
  rfl

/-- In the middle of a program of registers. -/
structure Ctx.WroteOnly (w : RegIx → Bool) (s : State) (f : Fields) (c : Ctx) : Prop where
  cur : s.WroteOnly w c.work.cur
  fields : c.fields = f
  jumped : c.jumped = false

/-- A primitive of registers goes on, and `w` holds of the register it writes. -/
theorem runOp_registers {w : RegIx → Bool} {s : State} {f : Fields} {o : MicroOp} (ho : o.registerOnly = true)
    (hw : ∀ r, o.writtenReg = some r → w (f.sel r) = true) {c : Ctx} (h : c.WroteOnly w s f) :
    (runOp o c).Sat (Ctx.WroteOnly w s f) fun _ => False := by
  obtain ⟨hcur, hf, hj⟩ := h
  cases o with
  | compute e => exact ⟨hcur, hf, hj⟩
  | fieldNumber k => exact ⟨hcur, hf, hj⟩
  | readReg r => exact ⟨hcur, hf, hj⟩
  | readPc => exact ⟨hcur, hf, hj⟩
  | readPsr => exact ⟨hcur, hf, hj⟩
  | writeReg r e => exact ⟨hcur.writeReg (by rw [hf]; exact hw r rfl) _, hf, hj⟩
  | commit =>
    exact ⟨by rw [Ctx.commit_cur]; exact hcur, (Ctx.commit_fields c).trans hf, (Ctx.commit_jumped c).trans hj⟩
  | writePsr e | jump e | load sp n x a | store sp n a v | physLoad n x a | physStore n a v | fetchWord a | require e
  | checkDivisor e | raise e | requestTrap v q | trapEnter v q saved | trapReturn | halt =>
    exact absurd ho (by simp [MicroOp.registerOnly])

theorem needsSupervisor_of_registerOnly {o : MicroOp} (h : o.registerOnly = true) : o.needsSupervisor = false := by
  cases o <;> simp_all [MicroOp.registerOnly, MicroOp.needsSupervisor]

/-- A program of registers goes on to its end. -/
theorem runProg_registers {w : RegIx → Bool} {s : State} {f : Fields} (p : Prog) (hr : p.all MicroOp.registerOnly = true)
    (ht : p.total = true) (hw : ∀ i, w i = false → progWrites f p i = false) {c : Ctx} (h : c.WroteOnly w s f) :
    (runProg p c).Sat (Ctx.WroteOnly w s f) fun _ => False := by
  have henv : ∀ {c : Ctx} (env : List Word), c.WroteOnly w s f → Ctx.WroteOnly w s f { c with env := env } :=
    fun env h => ⟨h.cur, h.fields, h.jumped⟩
  induction p generalizing c with
  | done => exact h
  | op o rest ih =>
    simp only [Prog.all, Bool.and_eq_true] at hr
    simp only [Prog.total, Bool.and_eq_true] at ht
    simp only [progWrites, Prog.any, Bool.or_eq_false_iff] at hw
    have hop := runOp_registers hr.1 (fun r hx => by
      by_contra hn
      have := (hw (f.sel r) (by simpa using hn)).1
      simp [hx] at this) h
    rw [runProg, needsSupervisor_of_registerOnly hr.1, checked_total c ht.1]
    cases hx : runOp o c with
    | go c1 => rw [hx] at hop; exact ih hr.2 ht.2 (fun i hi => (hw i hi).2) hop
    | stop r => rw [hx] at hop; exact hop
  | loop n body rest ihb ih =>
    simp only [Prog.all, Bool.and_eq_true] at hr
    simp only [Prog.total, Bool.and_eq_true] at ht
    simp only [progWrites, Prog.any, Bool.or_eq_false_iff] at hw
    have hb := iterate_sat (Q := fun _ => False)
      (f := fun k c1 => runProg body { c1 with env := c.env ++ [BitVec.ofNat 32 k] })
      (fun k c1 h1 => ihb hr.1 ht.1.2 (fun i hi => (hw i hi).1) (henv _ h1)) (evalExpr c.env n).toNat h
    rw [runProg, checked_total c (by simp [ht.1.1])]
    cases hx : iterate (fun k c1 => runProg body { c1 with env := c.env ++ [BitVec.ofNat 32 k] })
        (evalExpr c.env n).toNat c with
    | go c1 => rw [hx] at hb; exact ih hr.2 ht.2 (fun i hi => (hw i hi).2) (henv _ hb)
    | stop r => rw [hx] at hb; exact hb
  | branch e yes no rest ihy ihn ih =>
    simp only [Prog.all, Bool.and_eq_true] at hr
    simp only [Prog.total, Bool.and_eq_true] at ht
    simp only [progWrites, Prog.any, Bool.or_eq_false_iff] at hw
    have hb : (if exprHolds c.env e then runProg yes c else runProg no c).Sat (Ctx.WroteOnly w s f) fun _ => False := by
      split
      · exact ihy hr.1.1 ht.1.1.2 (fun i hi => (hw i hi).1.1) h
      · exact ihn hr.1.2 ht.1.2 (fun i hi => (hw i hi).1.2) h
    rw [runProg, checked_total c (by simp [ht.1.1.1])]
    cases hx : (if exprHolds c.env e then runProg yes c else runProg no c) with
    | go c1 => rw [hx] at hb; exact ih hr.2 ht.2 (fun i hi => (hw i hi).2) (henv _ hb)
    | stop r => rw [hx] at hb; exact hb

/-- What such a program gives from the start of an instruction. -/
theorem runProg_registerOnly {p : Prog} (hp : p.registerOnly = true) (f : Fields) (env : List Word) (s : State) :
    ∃ c, runProg p (Ctx.start s f env) = .go c ∧ c.WroteOnly (progWrites f p) s f := by
  simp only [Prog.registerOnly, Bool.and_eq_true] at hp
  have h := runProg_registers (w := progWrites f p) p hp.1 hp.2 (fun _ hi => hi)
    (c := Ctx.start s f env) ⟨.refl _ s, rfl, rfl⟩
  cases hx : runProg p (Ctx.start s f env) with
  | go c => rw [hx] at h; exact ⟨c, rfl, h⟩
  | stop r => rw [hx] at h; exact h.elim

theorem execProg_registerOnly {p : Prog} (hp : p.registerOnly = true) (f : Fields) (env : List Word) {s : State}
    (hn : hasNext s = true) : ∃ t, execProg p f env s = .next t ∧ s.OnlyRegisters (progWrites f p) t := by
  obtain ⟨c, hc, hcur, -, hj⟩ := runProg_registerOnly hp f env s
  have hpc : c.work.cur.pc = s.pc := by
    obtain ⟨regs, ssp, usp, h⟩ := hcur.rest
    rw [h]
  refine ⟨_, ?_, hcur.onlyRegisters⟩
  unfold execProg
  rw [hc]
  simp only [endProg, hj]
  exact advance_of_hasNext hn hpc

/-- Settles O44: each entry is its program, which needs no supervisor and goes on to its end. -/
theorem registerProgramsComplete : Obligations.RegisterProgramsComplete := by
  intro s op r1 r2 v low imm hn
  refine ⟨fun e p he hm hb hp => ?_, fun e he hm hp hz => ?_, fun e p he hm hb hp => ?_, fun e p he hm hb hp => ?_⟩
  · rw [exec_sys_prog he hb hm (registerOnly_user hp)]
    exact execProg_registerOnly hp _ _ hn
  · rw [exec_bulk_prog he hm (registerOnly_user hp) hz]
    exact execProg_registerOnly hp _ _ hn
  · rw [exec_uj_prog he hb hm (registerOnly_user hp)]
    exact execProg_registerOnly hp _ _ hn
  · rw [exec_load_prog he hb hm (registerOnly_user hp)]
    exact execProg_registerOnly hp _ _ hn

/-! ## J -/

theorem exec_uj_jump {s : State} {op : Opcode} {rd : RegIx} {imm : BitVec 20} {e : Entry UJBody} {link : Option Prog}
    (he : findUJ s.platform.opmap op = .entry e) (hb : e.body = .j link) :
    exec (.uj op rd imm) s = execJump link rd imm s := by
  rw [exec_uj, he, withEntry_run rfl (by simp [mayRun, findUJ_jump he hb]) (.inr (by rw [hb]; rfl)), hb]
  rfl

/-- J once its link has run (41_j.md R115). -/
theorem execJump_go {s : State} {rd : RegIx} {imm : BitVec 20} {link : Option Prog} {b : RelBase} {c : Ctx}
    (hr : s.platform.relBase = some b) (hl : runLink link rd imm s = .go c) :
    execJump link rd imm s = jumpTo (s.pc.toNat + relBaseBytes b + 4 * imm.toInt) c.work.cur := by
  simp only [execJump, hr, hl, relTarget, jumpOffset_eq_four_mul]

/-- Settles O42: the link runs to its end, and the target decides. -/
theorem jumpGoesToItsTarget : Obligations.JumpGoesToItsTarget := by
  refine ⟨⟨rfl, rfl⟩, fun s op rd imm e link he hb => ?_⟩
  rw [exec_uj_jump he hb]
  refine ⟨fun hr => by simp only [execJump, hr], fun b hr => ?_⟩
  intro target
  have hnone : rd = 0 → runLink none rd imm s = .go (Ctx.start s ⟨rd, 0, 0, 0⟩ [s.pc.zeroExtend 32, scaledImm20 imm]) :=
    fun h => if_pos h
  have hsome : ∀ l, link = some l → ∃ c, runLink (some l) rd imm s = .go c
      ∧ c.WroteOnly (progWrites ⟨rd, 0, 0, 0⟩ l) s ⟨rd, 0, 0, 0⟩ := fun l hl =>
    runProg_registerOnly (findUJ_link he (hl ▸ hb)) _ _ s
  refine ⟨fun f hl h0 h1 => ?_, fun l hl h0 h1 => ?_, fun hl hrd h0 h1 => ?_, fun hl hrd => ?_, fun hl ht => ?_⟩
  · subst hl
    have htotal : f.total = true := by
      have := findUJ_link he hb
      simpa [Prog.registerOnly, Prog.all, Prog.total, MicroOp.registerOnly, MicroOp.exprs] using this
    have hrun : runLink (some (.op (.writeReg (.field .r1) f) .done)) rd imm s = .go _ :=
      runProg_writeReg ⟨rd, 0, 0, 0⟩ s (dividesByZero_total htotal)
    rw [execJump_go hr hrun]
    exact jumpTo_inRange _ h0 h1
  · obtain ⟨c, hc, hcur, -, -⟩ := hsome l hl
    subst hl
    rw [execJump_go hr hc]
    exact ⟨{ c.work.cur with pc := s.pc + 4 }, jumpTo_inRange _ h0 h1, hcur.onlyRegisters⟩
  · subst hl
    rw [execJump_go hr (hnone hrd)]
    exact jumpTo_inRange _ h0 h1
  · have hrun : runLink none rd imm s = .stop (.refused .linkUnknown) := if_neg hrd
    subst hl
    simp only [execJump, hr, hrun]
  · cases link with
    | none =>
      rw [execJump_go hr (hnone (hl.resolve_left (not_not.2 rfl)))]
      exact jumpTo_outOfRange _ ht
    | some l =>
      obtain ⟨c, hc, -⟩ := hsome l rfl
      rw [execJump_go hr hc]
      exact jumpTo_outOfRange _ ht

end Sys2Proof.Machine
end

section
/-! PROOFS. How an M instruction ends (46_m.md R145, 60_exceptions.md R170). -/

namespace Sys2Proof.Machine

theorem advance_next {u t : State} (h : advance u = .next t) : t = { u with pc := u.pc + 4 } := by
  unfold advance at h
  split at h
  · next p hp =>
    unfold State.nextPc at hp
    split at hp
    · cases hp
      cases h
      congr 1
    · cases hp
  · cases h

/-- An entry that answers a next state has run, or the mode does not allow it. -/
theorem withEntry_next {β : Type} {e : Entry β} {z n : β → Bool} {s t : State} {run : β → Result}
    (h : withEntry (.entry e) z n s run = .next t) : takeException .privilegeViolation s = .next t ∨ run e.body = .next t := by
  unfold withEntry at h
  dsimp only at h
  split at h
  · cases h
  · split at h
    · exact .inl h
    · exact .inr h

/-- The fields an M instruction may have changed before it ends. -/
theorem State.RanMemory.eq {s t : State} (h : s.RanMemory t) : t = { s with
    regs := t.regs, ssp := t.ssp, usp := t.usp, main := t.main, data := t.data, deviceLog := t.deviceLog,
    freeCount := t.freeCount } := by
  obtain ⟨⟨h1, h2, h3, h4, -, -, -⟩, h5, h6, h7⟩ := h
  cases t
  cases s
  simp_all

/-- A program of registers and memory goes on to the next instruction, or takes an exception from a state of which `B`
holds. -/
theorem endProg_memory {s t : State} {d : Bool} {B : State → Prop} {r : Run}
    (h : r.Sat (fun c => Ctx.Of (s.RanBulk d) B c ∧ c.jumped = false) (EndsMemory B)) (ht : endProg r = .next t) :
    (t = { s with
      regs := t.regs, ssp := t.ssp, usp := t.usp, pc := s.pc + 4, main := t.main, data := t.data,
      deviceLog := t.deviceLog, freeCount := t.freeCount }) ∨ ∃ x b, takeException x b = .next t ∧ B b := by
  cases r with
  | go c =>
    obtain ⟨hc, hj⟩ := h
    left
    simp only [endProg, hj] at ht
    have hu := hc.cur.toRanMemory.eq
    rw [advance_next ht, hc.cur.pc, hu]
  | stop o =>
    cases h with
    | refused r => cases ht
    | exception e b hb => exact .inr ⟨e, b, ht, hb⟩

/-- What an M entry that keeps nothing leaves when it is abandoned. -/
theorem State.Noted.abandoned {s b : State} {d : Bool} (h : s.Noted (s.bulkWalk (!d)) b) :
    s.Noted (fun _ u => psrMmu s.psr = true ∧ u.platform = s.platform ∧ psrPdt u.psr = psrPdt s.psr
        ∧ (d = false → u.data = s.data)) b
    ∧ b = { s with main := b.main, deviceLog := b.deviceLog, freeCount := b.freeCount }
    ∧ ((s.platform.mmuSetsDirty = false ∨ psrMmu s.psr = false) → b.main = s.main) := by
  refine ⟨h.mono fun _ u hw => ?_, h.eq, fun hc => ?_⟩
  · obtain ⟨hm, hp, hpdt, hd⟩ := hw
    exact ⟨hm, hp, hpdt, fun hx => hd (by rw [hx]; rfl)⟩
  · rcases hc with hc | hc
    · exact h.baseFrame.clean hc
    · exact h.main_eq fun _ _ hw => by rw [hw.1] at hc; cases hc

/-- Settles O46: the program's run, with what an exception goes back to followed where nothing is kept. -/
theorem bulkGoesOnOrRaises : Obligations.BulkGoesOnOrRaises := by
  intro s t op r1 r2 low e he ht
  have hmem := findBulk_memoryOnly he
  rw [exec_bulk, he] at ht
  rcases withEntry_next ht with ht | ht
  · exact .inr ⟨.privilegeViolation, s, ht, rfl, fun _ => ⟨.refl, rfl, fun _ => rfl⟩⟩
  by_cases hk : e.body.prog.commits = false ∨ s.platform.bulkKeeps = false
  · refine (endProg_memory (runProg_memory_abandons s _ hmem hk _ _) ht).imp id ?_
    rintro ⟨x, b, hx, hb⟩
    exact ⟨x, b, hx, hb.ranMemory.eq, fun _ => hb.abandoned⟩
  · refine (endProg_memory (runProg_memory s _ hmem _ _) ht).imp id ?_
    rintro ⟨x, b, hx, hb⟩
    exact ⟨x, b, hx, hb.toRanMemory.eq, fun h => absurd h hk⟩

end Sys2Proof.Machine
end
